-- ==== Sys2Proof/Word.lean ====
section
/-! DEFINITION. The word types: a byte, and the two endpoint addresses the block names. An address of PTR_W
bits is a natural number (R10, R7; log 4). -/

namespace Sys2Proof

/-- R9: a byte is 8 bits. -/
abbrev Byte := BitVec 8

/-- R44, R66: the address of endpoint 0 for host-to-device packets. -/
def ep0Out : Byte := 0x00

/-- R44, R66: the address of endpoint 0 for device-to-host packets. -/
def ep0In : Byte := 0x80

end Sys2Proof
end

