-- ==== Sys2Proof/Config.lean ====
section
/-! DEFINITION. The implementation parameters of R7, as plain data that State carries and no step changes, the values
State.reset uses for them, and the model's one free value. -/

namespace Sys2Proof

/-- R7 `STATUS_AFTER_IN`, R131: the control state entered when the last packet of an IN data stage has gone. -/
inductive StatusAfterIn where
  | statusin
  | statusout
deriving DecidableEq, Repr

/-- R7: the parameters. `getStatusWord` is GET_STATUS_WORD, a function of recipient and `wIndex` written as a finite
table over the default of R133: a pair the table lists has the table's word, any other pair the default. -/
structure Params where
  ep0Size : BitVec 8
  bufSize : Nat
  ptrW : Nat
  dataBuf : Nat
  statusAfterIn : StatusAfterIn
  getStatusWord : List ((BitVec 5 × BitVec 16) × BitVec 16)
deriving DecidableEq, Repr

/-- R7, R8: the ranges of the parameters and the constraints among them. -/
def Params.valid (p : Params) : Bool :=
  decide (1 ≤ p.ep0Size.toNat) && decide (8 ≤ p.bufSize) && decide (p.bufSize ≤ 65543)
    && decide (p.dataBuf + p.bufSize ≤ 2 ^ p.ptrW)

/-- DESIGN CHOICE (log 1): the parameter values State.reset is built with. EP0SIZE, BUFSIZE, STATUS_AFTER_IN and
GET_STATUS_WORD are those of 95_test_vectors.md section 0; PTR_W and DATA_BUF are open. -/
def Config.params : Params where
  ep0Size := 8
  bufSize := 136
  ptrW := 32
  dataBuf := 0x20000000
  statusAfterIn := .statusin
  getStatusWord := []

/-- The free value (log 12): the response pointer that R134 to R136 and R139 write `_`. Applied to a counter of State. -/
opaque Config.freePtr : Nat → Nat

end Sys2Proof
end

