-- ==== Sys2Proof/Syntax.lean ====
section
/-! DEFINITION. The syntax: one constructor of Instr per row of spec/opcode_table.json, with the operands the spec's
formats give it (R59, R60, R64). -/

namespace Sys2Proof

/-- R60, R61: the eight bytes of a Setup packet, as fields. `dir` is `bmRequestType[7]` (true: device-to-host), `typ` is
`bmRequestType[6:5]`, `recipient` is `bmRequestType[4:0]`. -/
structure Request where
  dir : Bool
  typ : BitVec 2
  recipient : BitVec 5
  bRequest : BitVec 8
  wValue : BitVec 16
  wIndex : BitVec 16
  wLength : BitVec 16
deriving DecidableEq, Repr

/-- R65: the nine event kinds. -/
inductive EventKind where
  | reset | sof | suspend | wakeup | eptx | eprx | epsetup | error | esof
deriving DecidableEq, Repr

/-- R26: the seven values of `control_state`. -/
inductive ControlState where
  | idle | rxdata | txdata | ztxdata | lastdata | statusin | statusout
deriving DecidableEq, Repr

/-- R25: the five values of `device_state`. -/
inductive DeviceState where
  | disabled | disconnected | default | addressed | configured
deriving DecidableEq, Repr

/-- R68: the three result codes. -/
inductive Res where
  | fail | ack | nak
deriving DecidableEq, Repr

/-- R82: the 58 rows of the opcode table. -/
inductive Instr where
  -- EVT tokens (R64, R65): the endpoint address the driver reports
  | evtReset (ep : BitVec 8)
  | evtSof (ep : BitVec 8)
  | evtSuspend (ep : BitVec 8)
  | evtWakeup (ep : BitVec 8)
  | evtEptx (ep : BitVec 8)
  | evtEprx (ep : BitVec 8)
  | evtEpsetup (ep : BitVec 8)
  | evtError (ep : BitVec 8)
  | evtEsof (ep : BitVec 8)
  -- CMD tokens (R67)
  | cmdEnable
  | cmdDisable
  | cmdConnect
  | cmdDisconnect
  | cmdReset
  -- RES codes (R68)
  | resFail
  | resAck
  | resNak
  -- SETUP packets by class (R63)
  | setupNodata (r : Request)
  | setupIn (r : Request)
  | setupOut (r : Request)
  -- SETUP packets as the built-in handler selects on them (R70, R132)
  | stdGetStatus (r : Request)
  | stdClearFeature (r : Request)
  | stdReserved2 (r : Request)
  | stdSetFeature (r : Request)
  | stdReserved4 (r : Request)
  | stdSetAddress (r : Request)
  | stdGetDescriptor (r : Request)
  | stdSetDescriptor (r : Request)
  | stdGetConfiguration (r : Request)
  | stdSetConfiguration (r : Request)
  | stdGetInterface (r : Request)
  | stdSetInterface (r : Request)
  | stdSynchFrame (r : Request)
  | stdOther (r : Request)
  | nonstdClass (r : Request)
  | nonstdVendor (r : Request)
  | nonstdTypeReserved (r : Request)
  -- EP0 pairs (control_state, kind) (R81)
  | ep0IdleEpsetup
  | ep0IdleEprx
  | ep0IdleEptx
  | ep0RxdataEpsetup
  | ep0RxdataEprx
  | ep0RxdataEptx
  | ep0TxdataEpsetup
  | ep0TxdataEprx
  | ep0TxdataEptx
  | ep0ZtxdataEpsetup
  | ep0ZtxdataEprx
  | ep0ZtxdataEptx
  | ep0LastdataEpsetup
  | ep0LastdataEprx
  | ep0LastdataEptx
  | ep0StatusinEpsetup
  | ep0StatusinEprx
  | ep0StatusinEptx
  | ep0StatusoutEpsetup
  | ep0StatusoutEprx
  | ep0StatusoutEptx
deriving DecidableEq, Repr

end Sys2Proof
end

