-- ==== Sys2Proof/WellFormed.lean ====
section
/-! DEFINITION. Well-formed instructions: the operands a row of the opcode table admits (R63, R70, R82). -/

namespace Sys2Proof

/-- R70: a standard request with request code `q`. -/
def Request.isStd (r : Request) (q : Nat) : Bool :=
  decide (r.typ = 0) && decide (r.bRequest.toNat = q)

/-- Whether the operand of an instruction is one its row of the opcode table admits: the class of R63 for the SETUP
rows, type and request code for the STD rows, type for the NONSTD rows; every other row admits every operand. -/
def Instr.wf : Instr → Bool
  | .evtReset _ | .evtSof _ | .evtSuspend _ | .evtWakeup _ | .evtEptx _ | .evtEprx _ | .evtEpsetup _ => true
  | .evtError _ | .evtEsof _ => true
  | .cmdEnable | .cmdDisable | .cmdConnect | .cmdDisconnect | .cmdReset => true
  | .resFail | .resAck | .resNak => true
  | .setupNodata r => decide (r.wLength = 0)
  | .setupIn r => decide (r.wLength ≠ 0) && r.dir
  | .setupOut r => decide (r.wLength ≠ 0) && !r.dir
  | .stdGetStatus r => r.isStd 0
  | .stdClearFeature r => r.isStd 1
  | .stdReserved2 r => r.isStd 2
  | .stdSetFeature r => r.isStd 3
  | .stdReserved4 r => r.isStd 4
  | .stdSetAddress r => r.isStd 5
  | .stdGetDescriptor r => r.isStd 6
  | .stdSetDescriptor r => r.isStd 7
  | .stdGetConfiguration r => r.isStd 8
  | .stdSetConfiguration r => r.isStd 9
  | .stdGetInterface r => r.isStd 10
  | .stdSetInterface r => r.isStd 11
  | .stdSynchFrame r => r.isStd 12
  | .stdOther r => decide (r.typ = 0) && decide (13 ≤ r.bRequest.toNat)
  | .nonstdClass r => decide (r.typ = 1)
  | .nonstdVendor r => decide (r.typ = 2)
  | .nonstdTypeReserved r => decide (r.typ = 3)
  | .ep0IdleEpsetup | .ep0IdleEprx | .ep0IdleEptx => true
  | .ep0RxdataEpsetup | .ep0RxdataEprx | .ep0RxdataEptx => true
  | .ep0TxdataEpsetup | .ep0TxdataEprx | .ep0TxdataEptx => true
  | .ep0ZtxdataEpsetup | .ep0ZtxdataEprx | .ep0ZtxdataEptx => true
  | .ep0LastdataEpsetup | .ep0LastdataEprx | .ep0LastdataEptx => true
  | .ep0StatusinEpsetup | .ep0StatusinEprx | .ep0StatusinEptx => true
  | .ep0StatusoutEpsetup | .ep0StatusoutEprx | .ep0StatusoutEptx => true

end Sys2Proof
end

