-- ==== Sys2Proof/Decode.lean ====
section
/-! DEFINITION. Decoding: from an encoded word, in the decode context that reads it, to an instruction or a named
rejection; and the encoder. The six contexts are the formats of R59, with the SETUP format read twice: by class (R63)
and by the built-in handler (R70, R82). -/

namespace Sys2Proof

/-- A word in its decode context. R59: the formats; R82: the STD and NONSTD rows "are decoded by the built-in handler
only". -/
inductive Word where
  | evt (w : BitVec 16)
  | cmd (w : BitVec 8)
  | res (w : BitVec 8)
  | setup (p : BitVec 64)
  | std (p : BitVec 64)
  | ep0 (w : BitVec 11)
deriving DecidableEq, Repr

/-- Why a word is rejected. -/
inductive DecodeError where
  /-- R73: event kinds 9 to 255 are not defined. -/
  | undefinedEvent
  /-- R74: command codes 5 to 255 are not defined. -/
  | undefinedCommand
  /-- R81, R95: the engine's entry is for the kinds eptx, eprx and epsetup only. -/
  | notAnEndpointEvent
  /-- R76, R98: a Setup packet has eight bytes. -/
  | wrongLength
deriving DecidableEq, Repr

/-- R65: the event kinds' codes. -/
def EventKind.code : EventKind → BitVec 8
  | .reset => 0 | .sof => 1 | .suspend => 2 | .wakeup => 3 | .eptx => 4
  | .eprx => 5 | .epsetup => 6 | .error => 7 | .esof => 8

/-- R26: the control states' codes. -/
def ControlState.code : ControlState → BitVec 3
  | .idle => 0 | .rxdata => 1 | .txdata => 2 | .ztxdata => 3 | .lastdata => 4 | .statusin => 5 | .statusout => 6

/-- R26, R81: the control state of a code; code 7 is unreachable and read as idle. -/
def ControlState.ofCode (c : BitVec 3) : ControlState :=
  match c.toNat with
  | 0 => .idle | 1 => .rxdata | 2 => .txdata | 3 => .ztxdata | 4 => .lastdata | 5 => .statusin | 6 => .statusout
  | _ => .idle

/-- R25: the device states' codes. -/
def DeviceState.code : DeviceState → BitVec 3
  | .disabled => 0 | .disconnected => 1 | .default => 2 | .addressed => 3 | .configured => 4

/-- R68: the result codes' numbers. -/
def Res.code : Res → BitVec 8
  | .fail => 0 | .ack => 1 | .nak => 2

/-- R68, R75: the result a code stands for; a code that is neither ack nor nak is fail. -/
def Res.ofCode (c : BitVec 8) : Res :=
  match c.toNat with
  | 1 => .ack
  | 2 => .nak
  | _ => .fail

/-- R60: the fields of the 64-bit packet `P`. -/
def Request.ofPacket (p : BitVec 64) : Request where
  dir := p.getLsbD 7
  typ := p.extractLsb' 5 2
  recipient := p.extractLsb' 0 5
  bRequest := p.extractLsb' 8 8
  wValue := p.extractLsb' 16 16
  wIndex := p.extractLsb' 32 16
  wLength := p.extractLsb' 48 16

/-- R60: the 64-bit packet `P` of the fields. -/
def Request.packet (r : Request) : BitVec 64 :=
  r.wLength ++ r.wIndex ++ r.wValue ++ r.bRequest ++ BitVec.ofBool r.dir ++ r.typ ++ r.recipient

/-- R60: `P = {b7, b6, b5, b4, b3, b2, b1, b0}` of eight bytes in wire order; a missing byte counts as zero, which
`decodeSetupBytes` and the Setup read (R98) rule out. -/
def packetOfBytes (bs : List Byte) : BitVec 64 :=
  bs.getD 7 0 ++ bs.getD 6 0 ++ bs.getD 5 0 ++ bs.getD 4 0 ++ bs.getD 3 0 ++ bs.getD 2 0 ++ bs.getD 1 0 ++ bs.getD 0 0

/-- R60: the bytes of `P` in wire order. -/
def bytesOfPacket (p : BitVec 64) : List Byte :=
  [p.extractLsb' 0 8, p.extractLsb' 8 8, p.extractLsb' 16 8, p.extractLsb' 24 8,
   p.extractLsb' 32 8, p.extractLsb' 40 8, p.extractLsb' 48 8, p.extractLsb' 56 8]

/-- R64, R65, R73: an event token `{kind, ep}`. -/
def decodeEvt (w : BitVec 16) : Except DecodeError Instr :=
  let ep := w.extractLsb' 0 8
  match (w.extractLsb' 8 8).toNat with
  | 0 => .ok (.evtReset ep)
  | 1 => .ok (.evtSof ep)
  | 2 => .ok (.evtSuspend ep)
  | 3 => .ok (.evtWakeup ep)
  | 4 => .ok (.evtEptx ep)
  | 5 => .ok (.evtEprx ep)
  | 6 => .ok (.evtEpsetup ep)
  | 7 => .ok (.evtError ep)
  | 8 => .ok (.evtEsof ep)
  | _ => .error .undefinedEvent

/-- R67, R74: a command token. -/
def decodeCmd (w : BitVec 8) : Except DecodeError Instr :=
  match w.toNat with
  | 0 => .ok .cmdEnable
  | 1 => .ok .cmdDisable
  | 2 => .ok .cmdConnect
  | 3 => .ok .cmdDisconnect
  | 4 => .ok .cmdReset
  | _ => .error .undefinedCommand

/-- R68, R75: a result code. -/
def decodeRes (w : BitVec 8) : Instr :=
  match Res.ofCode w with
  | .fail => .resFail
  | .ack => .resAck
  | .nak => .resNak

/-- R63: the class of a Setup packet. -/
def decodeSetup (p : BitVec 64) : Instr :=
  let r := Request.ofPacket p
  if r.wLength = 0 then .setupNodata r else if r.dir then .setupIn r else .setupOut r

/-- R70, R132, R140: the request as the built-in handler selects on it, type first, then request code. -/
def decodeStd (p : BitVec 64) : Instr :=
  let r := Request.ofPacket p
  match r.typ.toNat, r.bRequest.toNat with
  | 0, 0 => .stdGetStatus r
  | 0, 1 => .stdClearFeature r
  | 0, 2 => .stdReserved2 r
  | 0, 3 => .stdSetFeature r
  | 0, 4 => .stdReserved4 r
  | 0, 5 => .stdSetAddress r
  | 0, 6 => .stdGetDescriptor r
  | 0, 7 => .stdSetDescriptor r
  | 0, 8 => .stdGetConfiguration r
  | 0, 9 => .stdSetConfiguration r
  | 0, 10 => .stdGetInterface r
  | 0, 11 => .stdSetInterface r
  | 0, 12 => .stdSynchFrame r
  | 0, _ => .stdOther r
  | 1, _ => .nonstdClass r
  | 2, _ => .nonstdVendor r
  | _, _ => .nonstdTypeReserved r

/-- R81: the row of a control state for an endpoint event. -/
def ep0Row (c : ControlState) : EventKind → Except DecodeError Instr
  | .epsetup =>
    match c with
    | .idle => .ok .ep0IdleEpsetup
    | .rxdata => .ok .ep0RxdataEpsetup
    | .txdata => .ok .ep0TxdataEpsetup
    | .ztxdata => .ok .ep0ZtxdataEpsetup
    | .lastdata => .ok .ep0LastdataEpsetup
    | .statusin => .ok .ep0StatusinEpsetup
    | .statusout => .ok .ep0StatusoutEpsetup
  | .eprx =>
    match c with
    | .idle => .ok .ep0IdleEprx
    | .rxdata => .ok .ep0RxdataEprx
    | .txdata => .ok .ep0TxdataEprx
    | .ztxdata => .ok .ep0ZtxdataEprx
    | .lastdata => .ok .ep0LastdataEprx
    | .statusin => .ok .ep0StatusinEprx
    | .statusout => .ok .ep0StatusoutEprx
  | .eptx =>
    match c with
    | .idle => .ok .ep0IdleEptx
    | .rxdata => .ok .ep0RxdataEptx
    | .txdata => .ok .ep0TxdataEptx
    | .ztxdata => .ok .ep0ZtxdataEptx
    | .lastdata => .ok .ep0LastdataEptx
    | .statusin => .ok .ep0StatusinEptx
    | .statusout => .ok .ep0StatusoutEptx
  | .reset | .sof | .suspend | .wakeup | .error | .esof => .error .notAnEndpointEvent

/-- R65: the endpoint event a kind code stands for, if it is one. -/
def endpointKind (k : BitVec 8) : Option EventKind :=
  match k.toNat with
  | 4 => some .eptx
  | 5 => some .eprx
  | 6 => some .epsetup
  | _ => none

/-- R81, R82: the synthetic 11-bit key `{control_state, kind}`. -/
def decodeEp0 (w : BitVec 11) : Except DecodeError Instr :=
  match endpointKind (w.extractLsb' 0 8) with
  | some k => ep0Row (ControlState.ofCode (w.extractLsb' 8 3)) k
  | none => .error .notAnEndpointEvent

/-- The decoder: total on every word of every format, rejecting by name. -/
def decode : Word → Except DecodeError Instr
  | .evt w => decodeEvt w
  | .cmd w => decodeCmd w
  | .res w => .ok (decodeRes w)
  | .setup p => .ok (decodeSetup p)
  | .std p => .ok (decodeStd p)
  | .ep0 w => decodeEp0 w

/-- The bytes of a Setup packet in wire order, as the engine decodes them; any other number of bytes is rejected
(R98). -/
def decodeSetupBytes (bs : List Byte) : Except DecodeError Instr :=
  if bs.length = 8 then decode (.setup (packetOfBytes bs)) else .error .wrongLength

/-- R64: the token `{kind, ep}`. -/
def evtWord (k : EventKind) (ep : BitVec 8) : Word := .evt (k.code ++ ep)

/-- R82: the key `{control_state[2:0], kind[7:0]}`. -/
def ep0Word (c : ControlState) (k : EventKind) : Word := .ep0 (c.code ++ k.code)

/-- The encoder: the word of an instruction, from the codes of R60, R64, R65, R67, R68, R81. -/
def encode : Instr → Word
  | .evtReset ep => evtWord .reset ep
  | .evtSof ep => evtWord .sof ep
  | .evtSuspend ep => evtWord .suspend ep
  | .evtWakeup ep => evtWord .wakeup ep
  | .evtEptx ep => evtWord .eptx ep
  | .evtEprx ep => evtWord .eprx ep
  | .evtEpsetup ep => evtWord .epsetup ep
  | .evtError ep => evtWord .error ep
  | .evtEsof ep => evtWord .esof ep
  | .cmdEnable => .cmd 0
  | .cmdDisable => .cmd 1
  | .cmdConnect => .cmd 2
  | .cmdDisconnect => .cmd 3
  | .cmdReset => .cmd 4
  | .resFail => .res Res.fail.code
  | .resAck => .res Res.ack.code
  | .resNak => .res Res.nak.code
  | .setupNodata r => .setup r.packet
  | .setupIn r => .setup r.packet
  | .setupOut r => .setup r.packet
  | .stdGetStatus r => .std r.packet
  | .stdClearFeature r => .std r.packet
  | .stdReserved2 r => .std r.packet
  | .stdSetFeature r => .std r.packet
  | .stdReserved4 r => .std r.packet
  | .stdSetAddress r => .std r.packet
  | .stdGetDescriptor r => .std r.packet
  | .stdSetDescriptor r => .std r.packet
  | .stdGetConfiguration r => .std r.packet
  | .stdSetConfiguration r => .std r.packet
  | .stdGetInterface r => .std r.packet
  | .stdSetInterface r => .std r.packet
  | .stdSynchFrame r => .std r.packet
  | .stdOther r => .std r.packet
  | .nonstdClass r => .std r.packet
  | .nonstdVendor r => .std r.packet
  | .nonstdTypeReserved r => .std r.packet
  | .ep0IdleEpsetup => ep0Word .idle .epsetup
  | .ep0IdleEprx => ep0Word .idle .eprx
  | .ep0IdleEptx => ep0Word .idle .eptx
  | .ep0RxdataEpsetup => ep0Word .rxdata .epsetup
  | .ep0RxdataEprx => ep0Word .rxdata .eprx
  | .ep0RxdataEptx => ep0Word .rxdata .eptx
  | .ep0TxdataEpsetup => ep0Word .txdata .epsetup
  | .ep0TxdataEprx => ep0Word .txdata .eprx
  | .ep0TxdataEptx => ep0Word .txdata .eptx
  | .ep0ZtxdataEpsetup => ep0Word .ztxdata .epsetup
  | .ep0ZtxdataEprx => ep0Word .ztxdata .eprx
  | .ep0ZtxdataEptx => ep0Word .ztxdata .eptx
  | .ep0LastdataEpsetup => ep0Word .lastdata .epsetup
  | .ep0LastdataEprx => ep0Word .lastdata .eprx
  | .ep0LastdataEptx => ep0Word .lastdata .eptx
  | .ep0StatusinEpsetup => ep0Word .statusin .epsetup
  | .ep0StatusinEprx => ep0Word .statusin .eprx
  | .ep0StatusinEptx => ep0Word .statusin .eptx
  | .ep0StatusoutEpsetup => ep0Word .statusout .epsetup
  | .ep0StatusoutEprx => ep0Word .statusout .eprx
  | .ep0StatusoutEptx => ep0Word .statusout .eptx

/-- A row of the opcode table as a mask and a match on the number its word is (R82). -/
structure TableRow where
  mask : Nat
  matched : Nat
deriving DecidableEq, Repr

/-- The row of the opcode table an instruction belongs to: "mask" and "match" of spec/opcode_table.json. -/
def Instr.tableRow : Instr → TableRow
  | .evtReset _ => ⟨0xFF00, 0x0000⟩
  | .evtSof _ => ⟨0xFF00, 0x0100⟩
  | .evtSuspend _ => ⟨0xFF00, 0x0200⟩
  | .evtWakeup _ => ⟨0xFF00, 0x0300⟩
  | .evtEptx _ => ⟨0xFF00, 0x0400⟩
  | .evtEprx _ => ⟨0xFF00, 0x0500⟩
  | .evtEpsetup _ => ⟨0xFF00, 0x0600⟩
  | .evtError _ => ⟨0xFF00, 0x0700⟩
  | .evtEsof _ => ⟨0xFF00, 0x0800⟩
  | .cmdEnable => ⟨0xFF, 0x00⟩
  | .cmdDisable => ⟨0xFF, 0x01⟩
  | .cmdConnect => ⟨0xFF, 0x02⟩
  | .cmdDisconnect => ⟨0xFF, 0x03⟩
  | .cmdReset => ⟨0xFF, 0x04⟩
  | .resFail => ⟨0xFF, 0x00⟩
  | .resAck => ⟨0xFF, 0x01⟩
  | .resNak => ⟨0xFF, 0x02⟩
  | .setupNodata _ => ⟨0xFFFF000000000000, 0⟩
  | .setupIn _ => ⟨0x80, 0x80⟩
  | .setupOut _ => ⟨0x80, 0x00⟩
  | .stdGetStatus _ => ⟨0xFF60, 0x0000⟩
  | .stdClearFeature _ => ⟨0xFF60, 0x0100⟩
  | .stdReserved2 _ => ⟨0xFF60, 0x0200⟩
  | .stdSetFeature _ => ⟨0xFF60, 0x0300⟩
  | .stdReserved4 _ => ⟨0xFF60, 0x0400⟩
  | .stdSetAddress _ => ⟨0xFF60, 0x0500⟩
  | .stdGetDescriptor _ => ⟨0xFF60, 0x0600⟩
  | .stdSetDescriptor _ => ⟨0xFF60, 0x0700⟩
  | .stdGetConfiguration _ => ⟨0xFF60, 0x0800⟩
  | .stdSetConfiguration _ => ⟨0xFF60, 0x0900⟩
  | .stdGetInterface _ => ⟨0xFF60, 0x0A00⟩
  | .stdSetInterface _ => ⟨0xFF60, 0x0B00⟩
  | .stdSynchFrame _ => ⟨0xFF60, 0x0C00⟩
  | .stdOther _ => ⟨0x60, 0x00⟩
  | .nonstdClass _ => ⟨0x60, 0x20⟩
  | .nonstdVendor _ => ⟨0x60, 0x40⟩
  | .nonstdTypeReserved _ => ⟨0x60, 0x60⟩
  | .ep0IdleEpsetup => ⟨0x7FF, 0x006⟩
  | .ep0IdleEprx => ⟨0x7FF, 0x005⟩
  | .ep0IdleEptx => ⟨0x7FF, 0x004⟩
  | .ep0RxdataEpsetup => ⟨0x7FF, 0x106⟩
  | .ep0RxdataEprx => ⟨0x7FF, 0x105⟩
  | .ep0RxdataEptx => ⟨0x7FF, 0x104⟩
  | .ep0TxdataEpsetup => ⟨0x7FF, 0x206⟩
  | .ep0TxdataEprx => ⟨0x7FF, 0x205⟩
  | .ep0TxdataEptx => ⟨0x7FF, 0x204⟩
  | .ep0ZtxdataEpsetup => ⟨0x7FF, 0x306⟩
  | .ep0ZtxdataEprx => ⟨0x7FF, 0x305⟩
  | .ep0ZtxdataEptx => ⟨0x7FF, 0x304⟩
  | .ep0LastdataEpsetup => ⟨0x7FF, 0x406⟩
  | .ep0LastdataEprx => ⟨0x7FF, 0x405⟩
  | .ep0LastdataEptx => ⟨0x7FF, 0x404⟩
  | .ep0StatusinEpsetup => ⟨0x7FF, 0x506⟩
  | .ep0StatusinEprx => ⟨0x7FF, 0x505⟩
  | .ep0StatusinEptx => ⟨0x7FF, 0x504⟩
  | .ep0StatusoutEpsetup => ⟨0x7FF, 0x606⟩
  | .ep0StatusoutEprx => ⟨0x7FF, 0x605⟩
  | .ep0StatusoutEptx => ⟨0x7FF, 0x604⟩

/-- The number a word is, whatever its format. -/
def Word.bits : Word → Nat
  | .evt w => w.toNat
  | .cmd w => w.toNat
  | .res w => w.toNat
  | .setup p => p.toNat
  | .std p => p.toNat
  | .ep0 w => w.toNat

/-- The decode context assumed for a bare number of `nbits` bits (log 9). The opcode table's formats overlap as numbers,
and the machine itself is always told the format by where the word comes from; this choice serves `decodeTableWord`
and `withFetchWord` alone. A number the wider formats could share goes to the first of: the EP0 key, the token, the
packet. -/
def tableWord (nbits w : Nat) : Word :=
  if nbits ≤ 8 then
    if w ≤ 4 then .cmd (BitVec.ofNat 8 w)
    else if w = 0x20 ∨ w = 0x40 ∨ w = 0x60 then .std (BitVec.ofNat 64 w)
    else .setup (BitVec.ofNat 64 w)
  else if nbits ≤ 16 then
    if 4 ≤ w % 256 ∧ w % 256 ≤ 6 ∧ w / 256 ≤ 6 then .ep0 (BitVec.ofNat 11 w)
    else if w / 256 ≤ 8 then .evt (BitVec.ofNat 16 w)
    else .std (BitVec.ofNat 64 w)
  else
    if w / 2 ^ 48 = 0 ∧ ¬ (w / 256 % 256 = 0 ∧ w / 32 % 4 = 0) then .std (BitVec.ofNat 64 w)
    else .setup (BitVec.ofNat 64 w)

/-- The instruction the decoder reads from a table word, in the context `tableWord` assumes. -/
def decodeTableWord (nbits w : Nat) : Option Instr :=
  (decode (tableWord nbits w)).toOption

end Sys2Proof
end

