-- ==== Sys2Proof/Machine/State.lean ====
section
/-! DEFINITION. The state of the machine: Device Status and the callback slots of R16, the shadow of the environment's
state of R38, and the model's own fields (inputs, answers, trace, label), all as plain data; why a step can stop; the
state after power-on (R168). A callback reference is a pointer (R7), a natural number (log 20). -/

namespace Sys2Proof.Machine

/-- R41: system memory as (address, byte) pairs, addresses strictly rising, no entry equal to what an unlisted address
reads as. -/
abbrev Memory := List Host.Cell

/-- R32: the event-callback table, one slot per event kind. -/
structure EvtTable where
  reset : Option Nat
  sof : Option Nat
  suspend : Option Nat
  wakeup : Option Nat
  eptx : Option Nat
  eprx : Option Nat
  epsetup : Option Nat
  error : Option Nat
  esof : Option Nat
deriving DecidableEq, Repr

/-- R33: the writable slots of the endpoint-callback table. Slot 0 is hardwired to the engine and has no storage. -/
structure EpTable where
  ep1 : Option Nat
  ep2 : Option Nat
  ep3 : Option Nat
  ep4 : Option Nat
  ep5 : Option Nat
  ep6 : Option Nat
  ep7 : Option Nat
deriving DecidableEq, Repr

/-- R33, R94: what an endpoint slot holds. -/
inductive EpSlot where
  | engine
  | user (cb : Nat)
  | empty
deriving DecidableEq, Repr

/-- R13, R43: a response `(rptr, rlen)`. -/
structure Response where
  ptr : Nat
  len : BitVec 16
deriving DecidableEq, Repr

/-- R45, R12: the answer to `ep_read`: the i32 result and the bytes of the packet that waited. -/
structure RxAnswer where
  result : BitVec 32
  bytes : List Byte
deriving DecidableEq, Repr

/-- R13, R58: the answer to `CtlCb`: result code, response, what it wrote into the completion slot, and the bytes of
the payload area it rewrote, as (offset, byte). -/
structure CtlAnswer where
  res : BitVec 8
  rptr : Nat
  rlen : BitVec 16
  ccb : Option Nat
  writes : List (Nat × Byte)
deriving DecidableEq, Repr

/-- R13: the answer to `DscCb`. -/
structure DscAnswer where
  res : BitVec 8
  rptr : Nat
  rlen : BitVec 16
deriving DecidableEq, Repr

/-- R79, R12: the environment's answers of one step: what `ep_read` gives, the i32 result of `ep_write`, the answers of
the three callbacks with a result, the result of `ep_is_stalled`. No step calls one of these twice. -/
structure Answers where
  rx : RxAnswer
  tx : BitVec 32
  ctl : CtlAnswer
  cfg : BitVec 8
  dsc : DscAnswer
  stalled : Bool
deriving DecidableEq, Repr

/-- Answers that give nothing: the read and the write fail, every callback answers fail, the endpoint is not stalled (log 6). -/
def Answers.silent : Answers where
  rx := { result := -1, bytes := [] }
  tx := -1
  ctl := { res := 0, rptr := 0, rlen := 0, ccb := none, writes := [] }
  cfg := 0
  dsc := { res := 0, rptr := 0, rlen := 0 }
  stalled := false

/-- R176: the slots a registration can write: every slot except `complete_cb` and endpoint slot 0. -/
inductive Slot where
  | ctl
  | cfg
  | dsc
  | evt (k : EventKind)
  | ep1 | ep2 | ep3 | ep4 | ep5 | ep6 | ep7
deriving DecidableEq, Repr

/-- What the environment does between steps: registering a callback (R176), writing a byte of the memory it owns (R39). -/
inductive EnvAction where
  | register (slot : Slot) (cb : Option Nat)
  | write (a : Nat) (v : Byte)
deriving DecidableEq, Repr

/-- What a delivery carries. The tokens of R5 are `evt` and `cmd`; `env` is an action of the environment; `res`, `setup`,
`std` and `ep0` start a step at an inner decode point of the engine (log 8). -/
inductive Input where
  | evt (w : BitVec 16)
  | cmd (w : BitVec 8)
  | env (a : EnvAction)
  | res (w : BitVec 8)
  | setup
  | std
  | ep0 (kind : BitVec 8)
deriving DecidableEq, Repr

/-- One input with the environment's answers to the calls its step makes (R79). -/
structure Delivery where
  input : Input
  answers : Answers
deriving DecidableEq, Repr

/-- R14: one entry of the output trace, a HAB operation of R12 or a callback invocation of R13, with its arguments and its
result where it has one; `epWrite` has the bytes handed over in place of its result, which the block discards (R46, D14;
log 7). The block never makes the calls of R164 that `Call.unused` names. -/
inductive Call where
  | enable (b : Bool)
  | habReset
  | connect (b : Bool)
  | setAddress (a : BitVec 8)
  | epConfig (ep : Byte) (typ : BitVec 8) (size : BitVec 16) (result : Bool)
  | epDeconfig (ep : Byte)
  | epRead (ep : Byte) (buf : Nat) (len : Nat) (result : BitVec 32)
  | epWrite (ep : Byte) (buf : Nat) (len : Nat) (bytes : List Byte)
  | epSetStall (ep : Byte) (b : Bool)
  | epIsStalled (ep : Byte) (result : Bool)
  | frameNumber (result : BitVec 16)
  | serialNumber (buf : Nat) (result : BitVec 16)
  | ctlCb (cb : Nat) (req : Request) (payload : List Byte) (res : BitVec 8)
  | cfgCb (cb : Nat) (cfg : BitVec 8) (res : BitVec 8)
  | dscCb (cb : Nat) (req : Request) (res : BitVec 8)
  | completeCb (cb : Nat) (req : Request)
  | evtCb (cb : Nat) (kind : EventKind) (ep : Byte)
  | epCb (cb : Nat) (n : BitVec 3) (kind : EventKind) (ep : Byte)
deriving DecidableEq, Repr

/-- R151: the causes of a stall. -/
inductive StallCause where
  | badSetup
  | overflow
  | requestFailed
  | badDataOut
  | badStatusOut
  | outOfSequence
deriving DecidableEq, Repr

/-- R38: a shadow of the environment's state behind the HAB, which no rule reads (log 10). `stalled` lists the endpoint
addresses whose stall flag is set, strictly rising. -/
structure Hab where
  stalled : List Byte
  address : BitVec 8
  powered : Bool
  pullup : Bool
  rx_waiting : Bool
  tx_pending : Option (List Byte)
deriving DecidableEq, Repr

/-- The machine's state, the fields of R16 under the spec's names. -/
structure State where
  params : Params
  data_buf : Nat
  data_ptr : Nat
  data_count : BitVec 16
  data_maxsize : BitVec 16
  ep0size : BitVec 8
  device_cfg : BitVec 8
  device_state : DeviceState
  control_state : ControlState
  ctl_cb : Option Nat
  complete_cb : Option Nat
  cfg_cb : Option Nat
  dsc_cb : Option Nat
  evt_cb : EvtTable
  ep_cb : EpTable
  pend_addr_v : Bool
  pend_addr : BitVec 7
  tx_short : Bool
  mem : Memory
  /-- R38: the environment's state (log 10). -/
  hab : Hab
  /-- The deliveries not yet consumed (log 8). -/
  inputs : List Delivery
  /-- The environment's answers to the calls of the step under way (log 6). -/
  answers : Answers
  /-- R14: the output trace of the step under way (log 16). -/
  trace : List Call
  /-- R154: the label of the stall the step under way has raised (log 16). -/
  cause : Option StallCause
  /-- R23 (I3): the response of the current request (log 13). -/
  resp : Response
  /-- How many free values have been drawn (log 12). -/
  draws : Nat
deriving DecidableEq, Repr

/-- Why a run stops. Each is an execution the spec puts outside the model. -/
inductive Fault where
  /-- Raised by `readMem`, for a read that runs past the end of memory: a header, a payload, or the bytes handed to
  `ep_write` (R43, 93_implementation_defined.md row 15). Safe: the spec gives such an execution no meaning (log 5). -/
  | readOutsideMemory
  /-- Raised by `writeMem`, for a write that runs past the end of memory: the bytes an `ep_read` delivers, or a built-in
  response (R7, R8). Safe: the parameters' constraints rule it out (log 5). -/
  | writeOutsideMemory
deriving DecidableEq, Repr

/-- What a step refuses. -/
inductive Refusal where
  /-- Raised by an arm of `exec` whose instruction has no meaning yet. Safe. No arm raises it. -/
  | notModelled (mnemonic : String)
  /-- Raised by the environment action `write` on a byte the environment must not write between steps: one of the control
  buffer (R58, R175), or one past the end of memory. Safe: the spec puts such an execution outside the model (log 15). -/
  | environmentWrite
deriving DecidableEq, Repr

/-- The outcome of a step. -/
abbrev Result := Host.Outcome State Fault Refusal

/-- R32: no event callback registered. -/
def EvtTable.none : EvtTable :=
  ⟨.none, .none, .none, .none, .none, .none, .none, .none, .none⟩

/-- R33: no endpoint callback registered. -/
def EpTable.none : EpTable := ⟨.none, .none, .none, .none, .none, .none, .none⟩

/-- DESIGN CHOICE (log 10): the environment's state at power-on, which R168 leaves to the HAB. -/
def Hab.reset : Hab where
  stalled := []
  address := 0
  powered := false
  pullup := false
  rx_waiting := false
  tx_pending := none

/-- R168: the state after initialisation with the parameters `p`. `data_ptr`, `data_count` and `pend_addr` are
unspecified there and "0 is a valid choice" (log 2). -/
def State.init (p : Params) : State where
  params := p
  data_buf := p.dataBuf
  data_ptr := 0
  data_count := 0
  data_maxsize := BitVec.ofNat 16 (p.bufSize - 8)
  ep0size := p.ep0Size
  device_cfg := 0
  device_state := .disabled
  control_state := .idle
  ctl_cb := none
  complete_cb := none
  cfg_cb := none
  dsc_cb := none
  evt_cb := EvtTable.none
  ep_cb := EpTable.none
  pend_addr_v := false
  pend_addr := 0
  tx_short := false
  mem := []
  hab := Hab.reset
  inputs := []
  answers := Answers.silent
  trace := []
  cause := none
  resp := { ptr := 0, len := 0 }
  draws := 0

/-- The machine right after power-on (R168), with the parameter values of log 1. The reset of R148 and R85 is an
instruction, not this state (log 21). -/
def State.reset : State := State.init Config.params

end Sys2Proof.Machine
end

