-- ==== Sys2Proof/Machine/Memory.lean ====
section
/-! DEFINITION. System memory (R41): reading and writing bytes of the canonical list. -/

namespace Sys2Proof.Machine

/-- DESIGN CHOICE (log 3): what a byte nothing has written reads as; R168 leaves it unspecified. -/
def Memory.unlisted : Byte := 0

/-- The canonical form: addresses strictly rising, no entry equal to what an unlisted address reads as. -/
abbrev Memory.wf (m : Memory) : Prop :=
  m.Pairwise (fun c d => c.1 < d.1) ∧ ∀ c ∈ m, c.2 ≠ Memory.unlisted

/-- The byte at an address. -/
def Memory.read : Memory → Nat → Byte
  | [], _ => Memory.unlisted
  | c :: m, a => if a = c.1 then c.2 else if a < c.1 then Memory.unlisted else Memory.read m a

/-- An entry in front of a list of higher addresses, left out when the byte is what an unlisted address reads as. -/
def Memory.entry (a : Nat) (v : Byte) (m : Memory) : Memory :=
  if v = Memory.unlisted then m else (a, v) :: m

/-- Writing one byte. -/
def Memory.write : Memory → Nat → Byte → Memory
  | [], a, v => Memory.entry a v []
  | c :: m, a, v =>
    if a < c.1 then Memory.entry a v (c :: m)
    else if a = c.1 then Memory.entry a v m
    else c :: Memory.write m a v

/-- R11 `MemRead(a, n)`: the bytes at `a .. a+n-1`, lowest address first. -/
def Memory.readBytes (m : Memory) : Nat → Nat → List Byte
  | _, 0 => []
  | a, n + 1 => m.read a :: Memory.readBytes m (a + 1) n

/-- R11 `MemWrite`: the bytes of the list at `a`, `a+1`, and so on. -/
def Memory.writeBytes (m : Memory) : Nat → List Byte → Memory
  | _, [] => m
  | a, b :: bs => Memory.writeBytes (m.write a b) (a + 1) bs

/-- The (offset, byte) pairs in order, each at `base` plus its offset. -/
def Memory.writeAt (m : Memory) (base : Nat) : List (Nat × Byte) → Memory
  | [] => m
  | w :: ws => Memory.writeAt (m.write (base + w.1) w.2) base ws

end Sys2Proof.Machine
end

