-- ==== Sys2Proof/Machine/Operands.lean ====
section
/-! DEFINITION. Operand forms: fields of the endpoint address, operands taken from a Setup packet (R62), the callback
slots, the lengths of packets (R50, R53), and the environment's answers as the rules read them. -/

namespace Sys2Proof.Machine

/-- R66, R62: the endpoint number, the low three bits of an endpoint address. -/
def epNumber (ep : Byte) : BitVec 3 := ep.extractLsb' 0 3

/-- R62: the device address of SET_ADDRESS. -/
def addressOf (r : Request) : BitVec 7 := r.wValue.extractLsb' 0 7

/-- R62: the configuration number of SET_CONFIGURATION. -/
def configOf (r : Request) : BitVec 8 := r.wValue.extractLsb' 0 8

/-- R62: the endpoint address of a request to an endpoint. -/
def endpointOf (r : Request) : Byte := r.wIndex.extractLsb' 0 8

/-- R134, R71: a request for the feature ENDPOINT_HALT of an endpoint. -/
def isEndpointHalt (r : Request) : Bool := decide (r.recipient = 2) && decide (r.wValue = 0)

/-- R76, 93_implementation_defined.md row 7: the recipients the built-in handler knows; it does not recognise a request to
the recipients 4 to 31 (log 23). -/
def knownRecipient (r : Request) : Bool := decide (r.recipient.toNat < 4)

/-- R32: the slot of an event kind. -/
def State.evtSlot (s : State) : EventKind → Option Nat
  | .reset => s.evt_cb.reset
  | .sof => s.evt_cb.sof
  | .suspend => s.evt_cb.suspend
  | .wakeup => s.evt_cb.wakeup
  | .eptx => s.evt_cb.eptx
  | .eprx => s.evt_cb.eprx
  | .epsetup => s.evt_cb.epsetup
  | .error => s.evt_cb.error
  | .esof => s.evt_cb.esof

/-- R33: an optional callback as the contents of an endpoint slot. -/
def EpSlot.ofOption : Option Nat → EpSlot
  | some cb => .user cb
  | none => .empty

/-- R33, R94: the slot of an endpoint number; slot 0 is hardwired to the engine. -/
def State.epSlot (s : State) (n : BitVec 3) : EpSlot :=
  match n.toNat with
  | 0 => .engine
  | 1 => .ofOption s.ep_cb.ep1
  | 2 => .ofOption s.ep_cb.ep2
  | 3 => .ofOption s.ep_cb.ep3
  | 4 => .ofOption s.ep_cb.ep4
  | 5 => .ofOption s.ep_cb.ep5
  | 6 => .ofOption s.ep_cb.ep6
  | _ => .ofOption s.ep_cb.ep7

/-- R110, R118, R53 (a): the length of the next packet, the smaller of the packet size and the remaining count. -/
def State.chunkLen (s : State) : Nat := min s.data_count.toNat s.ep0size.toNat

/-- R53 (f), R98: the signed value of an `ep_read` result. -/
def rxResult (r : BitVec 32) : Int := r.toInt

/-- R45: how many bytes an `ep_read` of `len` bytes writes: as many as it says it received, at most `len`; on an error,
the bytes of the answer, at most `len` (log 7). -/
def rxCount (a : RxAnswer) (len : Nat) : Nat :=
  if rxResult a.result < 0 then min len a.bytes.length else min len (rxResult a.result).toNat

/-- The first `n` bytes of a packet; a byte the answer does not list is zero (log 7). -/
def firstBytes : List Byte → Nat → List Byte
  | _, 0 => []
  | bs, n + 1 => bs.headD 0 :: firstBytes bs.tail n

/-- R45: the bytes an `ep_read` of `len` bytes writes. -/
def rxBytes (a : RxAnswer) (len : Nat) : List Byte := firstBytes a.bytes (rxCount a len)

/-- R10, R13: a callback's pointer, the low PTR_W bits of the number it gives (log 4). -/
def State.addr (s : State) (p : Nat) : Nat := p % 2 ^ s.params.ptrW

/-- R13: the response in the control callback's answer. -/
def State.ctlResponse (s : State) : Response :=
  { ptr := s.addr s.answers.ctl.rptr, len := s.answers.ctl.rlen }

/-- R13: the response in the descriptor callback's answer. -/
def State.dscResponse (s : State) : Response :=
  { ptr := s.addr s.answers.dsc.rptr, len := s.answers.dsc.rlen }

/-- R142, R134 to R136 (log 12): the response `(_, 0)` of a request served without data; the pointer is free. -/
def State.emptyResponse (s : State) : Response :=
  { ptr := s.addr (Config.freePtr s.draws), len := 0 }

/-- R58 (c): the payload area is offsets 0 to `data_maxsize - 1` from `data_buf + 8`; of the bytes the control callback
rewrote, those that lie in it and in memory (log 20). -/
def State.payloadWrites (s : State) (ws : List (Nat × Byte)) : List (Nat × Byte) :=
  ws.filter fun w => decide (w.1 < s.data_maxsize.toNat) && decide (s.data_buf + 8 + w.1 < 2 ^ s.params.ptrW)

/-- R63, R101 to R116: what a result code decides: a transfer without data stage, an IN data stage of at most `wLength`
bytes, or an OUT data stage whose payload is complete. -/
inductive Stage where
  | noData
  | inData (wLength : BitVec 16)
  | outData
deriving DecidableEq, Repr

/-- R63: the stage of a request. -/
def stageOf (r : Request) : Stage :=
  if r.wLength = 0 then .noData else if r.dir then .inData r.wLength else .outData

/-- R133, R7: where the built-in GET_STATUS takes its word from. -/
inductive StatusSource where
  | word (w : BitVec 16)
  | halt (ep : Byte)
  | unserved
deriving DecidableEq, Repr

/-- R133, R7: the parameter GET_STATUS_WORD, its table first, then its default. DESIGN CHOICE (log 24): for a pair the
table lists the word is the table's and `ep_is_stalled` is not called, an endpoint's pair among them; the spec gives the
call inside the default only. -/
def statusSource (p : Params) (r : Request) : StatusSource :=
  match p.getStatusWord.lookup (r.recipient, r.wIndex) with
  | some w => .word w
  | none =>
    match r.recipient.toNat with
    | 0 => .word 0
    | 1 => .word 0
    | 2 => .halt (endpointOf r)
    | _ => .unserved

/-- R133, R47: the two bytes of a status word, low byte first. -/
def statusBytes (w : BitVec 16) : List Byte := [w.extractLsb' 0 8, w.extractLsb' 8 8]

end Sys2Proof.Machine
end

