-- ==== Sys2Proof/Machine/Flags.lean ====
section
/-! DEFINITION. Flag and mode computations: `tx_short` (R36), the control state a chunk leads to (R118), the device state
an address or a configuration leads to (R128, R139), the checks that decide a stall (R98, R107, R111). -/

namespace Sys2Proof.Machine

/-- R36, R104: the response is shorter than the host asked for. -/
def txShort (wLength rlen : BitVec 16) : Bool := decide (rlen.toNat < wLength.toNat)

/-- R104: the response size, clamped to what the host asked for. -/
def clampLen (wLength rlen : BitVec 16) : BitVec 16 := if rlen.toNat < wLength.toNat then rlen else wLength

/-- R118: the control state after a chunk of `c` bytes. -/
def afterChunk (s : State) (c : Nat) : ControlState :=
  if s.data_count.toNat - c ≠ 0 then .txdata
  else if c = s.ep0size.toNat ∧ s.tx_short = true then .ztxdata
  else .lastdata

/-- R127, R128: the device state once the pending address is applied. -/
def stateForAddress (a : BitVec 7) : DeviceState := if a ≠ 0 then .addressed else .default

/-- R139: the device state once a configuration is set. -/
def stateForConfig (c : BitVec 8) : DeviceState := if c ≠ 0 then .configured else .addressed

/-- R98: the Setup read did not return exactly 8. -/
def badSetup (r : BitVec 32) : Bool := decide (rxResult r ≠ 8)

/-- R110, R111: the result of a data read of `len` bytes is an error or more than was asked. -/
def badDataOut (r : BitVec 32) (len : Nat) : Bool := decide (rxResult r < 0) || decide ((len : Int) < rxResult r)

/-- R126: the status read did not return 0. -/
def badStatusOut (r : BitVec 32) : Bool := decide (rxResult r ≠ 0)

/-- R107: the payload would overflow the buffer. -/
def outOverflow (s : State) (r : Request) : Bool := decide (s.data_maxsize.toNat < r.wLength.toNat)

end Sys2Proof.Machine
end

