-- ==== Sys2Proof/Machine/Ops.lean ====
section
/-! DEFINITION. The shared operations: memory accesses that can run past the end of memory, the HAB operations and
callbacks with their trace entries (R12, R13, R14), the stall (R152) and its end (R155), the reset of Device Status
(R149), the procedures of the transfer stages (R109, R118, R127). An operation with a result takes what follows it as
its last argument. -/

namespace Sys2Proof.Machine

/-! ### Memory -/

/-- R41, R43: `n` bytes at `a` lie inside the 2^PTR_W bytes of memory; no byte is accessed when `n = 0`. -/
def State.inMemory (s : State) (a : Nat) (n : Nat) : Bool := decide (n = 0) || decide (a + n ≤ 2 ^ s.params.ptrW)

/-- R11 `MemRead`. -/
def readMem (a : Nat) (n : Nat) (s : State) (k : List Byte → Result) : Result :=
  if s.inMemory a n then k (s.mem.readBytes a n) else .fault .readOutsideMemory

/-- R11 `MemWrite`. -/
def writeMem (a : Nat) (bs : List Byte) (s : State) (k : State → Result) : Result :=
  if s.inMemory a bs.length then k { s with mem := s.mem.writeBytes a bs } else .fault .writeOutsideMemory

/-- R40, R60: the request in the control buffer, decoded from its 8 bytes. -/
def withRequest (s : State) (k : Request → Result) : Result :=
  readMem s.data_buf 8 s fun bs => k (Request.ofPacket (packetOfBytes bs))

/-! ### The trace and the HAB -/

/-- R14: one more entry of the output trace. -/
def State.call (s : State) (c : Call) : State := { s with trace := s.trace ++ [c] }

/-- Adding an endpoint address to the rising list of stalled ones. -/
def stallInsert (ep : Byte) : List Byte → List Byte
  | [] => [ep]
  | e :: es => if ep.toNat < e.toNat then ep :: e :: es else if ep = e then e :: es else e :: stallInsert ep es

/-- Taking an endpoint address off the list. -/
def stallErase (ep : Byte) (es : List Byte) : List Byte := es.filter fun e => decide (e ≠ ep)

/-- R38: the stall flag of an endpoint address takes the value `b`. -/
def Hab.setStall (h : Hab) (ep : Byte) (b : Bool) : Hab :=
  { h with stalled := if b then stallInsert ep h.stalled else stallErase ep h.stalled }

/-- R12 `enable(b)`. -/
def habEnable (b : Bool) (s : State) : State :=
  { s.call (.enable b) with hab := { s.hab with powered := b } }

/-- R12 `connect(b)`. -/
def habConnect (b : Bool) (s : State) : State :=
  { s.call (.connect b) with hab := { s.hab with pullup := b } }

/-- R12 `set_address(a)`. -/
def setAddress (a : BitVec 8) (s : State) : State :=
  { s.call (.setAddress a) with hab := { s.hab with address := a } }

/-- R12 `ep_set_stall(ep, b)`. -/
def epSetStall (ep : Byte) (b : Bool) (s : State) : State :=
  { s.call (.epSetStall ep b) with hab := s.hab.setStall ep b }

/-- R45 `ep_read(ep, buf, len)`: the packet is consumed, its bytes are written, the result is the environment's. -/
def epRead (ep : Byte) (buf : Nat) (len : Nat) (s : State) (k : BitVec 32 → State → Result) : Result :=
  writeMem buf (rxBytes s.answers.rx len) s fun s' =>
    k s.answers.rx.result
      { s'.call (.epRead ep buf len s.answers.rx.result) with hab := { s.hab with rx_waiting := false } }

/-- R46 `ep_write(ep, buf, len)`: the bytes of memory at the time of the call are handed over, the result is the
environment's. -/
def epWrite (ep : Byte) (buf : Nat) (len : Nat) (s : State) (k : BitVec 32 → State → Result) : Result :=
  readMem buf len s fun bs =>
    k s.answers.tx { s.call (.epWrite ep buf len bs) with hab := { s.hab with tx_pending := some bs } }

/-- R165, R155, R177: what the event that brought an endpoint-0 token says of the environment (log 10): a packet waits; the
packet handed over has gone; a Setup also clears endpoint 0's stall flags and discards the packet not yet sent. -/
def Hab.onEvent (h : Hab) : EventKind → Hab
  | .epsetup =>
    { (h.setStall ep0Out false).setStall ep0In false with rx_waiting := true, tx_pending := none }
  | .eprx => { h with rx_waiting := true }
  | .eptx => { h with tx_pending := none }
  | .reset | .sof | .suspend | .wakeup | .error | .esof => h

/-- The endpoint-0 event `k` has been reported. -/
def State.arrives (s : State) (k : EventKind) : State := { s with hab := s.hab.onEvent k }

/-! ### Taking and leaving the block's exception -/

/-- R152 `raise Stall(cause)`: both directions of endpoint 0 are stalled, OUT first, and the engine returns to idle. The
cause is a label (R154). It ends the step, so every rule uses it as its last action. -/
def stall (c : StallCause) (s : State) : State :=
  { s with
    trace := s.trace ++ [.epSetStall ep0Out true, .epSetStall ep0In true]
    hab := (s.hab.setStall ep0Out true).setStall ep0In true
    control_state := .idle
    cause := some c }

/-- R97, R155: what ends a stall or a transfer in flight, the arrival of the next Setup: the engine starts again at idle
and forgets what belonged to the old transfer. The stall flags are the HAB's (`Hab.onEvent`). -/
def restart (s : State) : State :=
  { s with control_state := .idle, complete_cb := none, pend_addr_v := false, tx_short := false }

/-- R149 `ResetStatus()`. -/
def resetStatus (s : State) : State :=
  { s with
    control_state := .idle, device_cfg := 0, device_state := .default
    complete_cb := none, pend_addr_v := false, tx_short := false }

/-! ### Callbacks -/

/-- R84, R13: the per-event callback, if one is registered. -/
def eventCallback (k : EventKind) (ep : Byte) (s : State) : State :=
  match s.evtSlot k with
  | some cb => s.call (.evtCb cb k ep)
  | none => s

/-- R13, R58 (c), R100: the control callback: it may rewrite the payload area and fill the completion slot. -/
def ctlCallback (cb : Nat) (req : Request) (payload : List Byte) (s : State) : State :=
  { s with
    trace := s.trace ++ [.ctlCb cb req payload s.answers.ctl.res]
    mem := s.mem.writeAt (s.data_buf + 8) (s.payloadWrites s.answers.ctl.writes)
    complete_cb := match s.answers.ctl.ccb with
      | some c => some c
      | none => s.complete_cb }

/-! ### The stages of a transfer -/

/-- R109 `EnterStatusIn()`: a zero-length packet is queued. Every rule discards the result of `ep_write` (R46, D14). -/
def enterStatusIn (s : State) : Result :=
  epWrite ep0In s.data_ptr 0 s fun _ s' => .next { s' with control_state := .statusin }

/-- R118 `SendChunk()`. -/
def sendChunk (s : State) : Result :=
  epWrite ep0In s.data_ptr s.chunkLen s fun _ s' =>
    .next { s' with
      data_ptr := s.data_ptr + s.chunkLen
      data_count := s.data_count - BitVec.ofNat 16 s.chunkLen
      control_state := afterChunk s s.chunkLen }

/-- R104: the IN data stage of the response `s.resp` begins, its first chunk in the same step. -/
def beginDataIn (wLength : BitVec 16) (s : State) : Result :=
  sendChunk { s with
    data_ptr := s.resp.ptr
    data_count := clampLen wLength s.resp.len
    tx_short := txShort wLength s.resp.len
    control_state := .txdata }

/-- R127, R128: the pending address is applied. -/
def applyPendingAddress (s : State) : State :=
  if s.pend_addr_v then
    { setAddress (s.pend_addr.setWidth 8) s with
      device_state := stateForAddress s.pend_addr, pend_addr_v := false }
  else s

/-- R127, R129: the one-shot completion callback is consumed, then the engine returns to idle. -/
def finishTransfer (s : State) : Result :=
  match s.complete_cb with
  | some cb =>
    withRequest s fun req =>
      .next { { s with complete_cb := none }.call (.completeCb cb req) with control_state := .idle }
  | none => .next { s with control_state := .idle }

/-- R127 `Complete()`. -/
def complete (s : State) : Result := finishTransfer (applyPendingAddress s)

end Sys2Proof.Machine
end

