-- ==== Sys2Proof/Machine/Commands.lean ====
section
/-! DEFINITION. The CMD rows: the async commands (R143 to R149). -/

namespace Sys2Proof.Machine

/-- CMD enable (R144). -/
def execCmdEnable (s : State) : Result := .next { habEnable true s with device_state := .disconnected }

/-- CMD disable (R145). -/
def execCmdDisable (s : State) : Result := .next { habEnable false s with device_state := .disabled }

/-- CMD connect (R146). -/
def execCmdConnect (s : State) : Result := .next (habConnect true s)

/-- CMD disconnect (R147). -/
def execCmdDisconnect (s : State) : Result := .next (habConnect false s)

/-- CMD reset (R148): no HAB call. -/
def execCmdReset (s : State) : Result := .next (resetStatus s)

end Sys2Proof.Machine
end

