-- ==== Sys2Proof/Machine/Results.lean ====
section
/-! DEFINITION. The RES rows: what a result code does to the transfer under way (R68, R101 to R106, R114 to R116, R157). -/

namespace Sys2Proof.Machine

/-- R68 ack, "accept; send/receive data or ZLP": an IN data stage begins (R104), in every other case the IN status stage
(R101, R114). -/
def resultAck (stage : Stage) (s : State) : Result :=
  match stage with
  | .inData wLength => beginDataIn wLength s
  | .noData => enterStatusIn s
  | .outData => enterStatusIn s

/-- R157, R102, R105, R116 nak: no call and no write. -/
def resultNak (s : State) : Result := .next s

/-- R68 fail, "issue STALL" (R103, R106, R115). -/
def resultFail (s : State) : Result := .next (stall .requestFailed s)

/-- The stage a result code would decide in this state (log 13): in `rxdata` the completed OUT payload (R113), elsewhere
the class of the request in the control buffer (R63). -/
def withStage (s : State) (k : Stage → Result) : Result :=
  match s.control_state with
  | .rxdata => k .outData
  | .idle | .txdata | .ztxdata | .lastdata | .statusin | .statusout => withRequest s fun r => k (stageOf r)

/-- RES fail (R68, R103). -/
def execResFail (s : State) : Result := resultFail s

/-- RES ack (R68, R101, R104, R114), with the response `s.resp` where the stage is an IN data stage. -/
def execResAck (s : State) : Result := withStage s fun stage => resultAck stage s

/-- RES nak (R68, R157). -/
def execResNak (s : State) : Result := resultNak s

/-- The end of request processing (R100 to R106): the result `res` with its response decides the stage. The response is
kept when it is accepted (R23 I3). -/
def finish (stage : Stage) (res : Res) (resp : Response) (s : State) : Result :=
  match res with
  | .ack => resultAck stage { s with resp := resp }
  | .nak => resultNak s
  | .fail => resultFail s

end Sys2Proof.Machine
end

