-- ==== Sys2Proof/Machine/Standard.lean ====
section
/-! DEFINITION. The STD and NONSTD rows: the built-in handler of R132 to R142. The meaning of a row is the handler's case
for it and then, in the same step, what its result decides for the request (R100; log 17). -/

namespace Sys2Proof.Machine

/-- R132, R140: the handler returns `(fail, _, 0)`. -/
def unserved (r : Request) (s : State) : Result := finish (stageOf r) .fail { ptr := 0, len := 0 } s

/-- R76: the handler's case `k` for a request it recognises by its recipient; any other fails (log 23). -/
def recognised (r : Request) (s : State) (k : Result) : Result := if knownRecipient r then k else unserved r s

/-- R134 to R136, R139: the handler returns `(ack, _, 0)`; the pointer is a free value (log 12). -/
def served (r : Request) (s : State) : Result :=
  finish (stageOf r) .ack s.emptyResponse { s with draws := s.draws + 1 }

/-- R133, R141, R47: a status word is built in the payload area, if there is room for two bytes. -/
def respondStatus (r : Request) (w : BitVec 16) (s : State) : Result :=
  if s.data_maxsize.toNat < 2 then unserved r s
  else writeMem (s.data_buf + 8) (statusBytes w) s fun s' =>
    finish (stageOf r) .ack { ptr := s.data_buf + 8, len := 2 } s'

/-- R164 `ep_is_stalled(ep)`: the answer is the environment's. -/
def isStalledCall (ep : Byte) (s : State) : State := s.call (.epIsStalled ep s.answers.stalled)

/-- STD.GET_STATUS (R133, R76). -/
def execStdGetStatus (r : Request) (s : State) : Result :=
  recognised r s <| match statusSource s.params r with
  | .word w => respondStatus r w s
  | .halt ep => respondStatus r (if s.answers.stalled then 1 else 0) (isStalledCall ep s)
  | .unserved => unserved r s

/-- R134, R135: the halt feature of an endpoint takes the value `b`; every other feature request fails, every other
recipient among them. -/
def setHalt (b : Bool) (r : Request) (s : State) : Result :=
  if isEndpointHalt r then served r (epSetStall (endpointOf r) b s) else unserved r s

/-- STD.CLEAR_FEATURE (R134). -/
def execStdClearFeature (r : Request) (s : State) : Result := setHalt false r s

/-- STD.SET_FEATURE (R135). -/
def execStdSetFeature (r : Request) (s : State) : Result := setHalt true r s

/-- STD.SET_ADDRESS (R136, R76): the address is stored, not applied. -/
def execStdSetAddress (r : Request) (s : State) : Result :=
  recognised r s <| served r { s with pend_addr := addressOf r, pend_addr_v := true }

/-- R137: the descriptor callback is called. -/
def dscCallback (cb : Nat) (r : Request) (s : State) : State := s.call (.dscCb cb r s.answers.dsc.res)

/-- STD.GET_DESCRIPTOR (R137, R76). -/
def execStdGetDescriptor (r : Request) (s : State) : Result :=
  recognised r s <| match s.dsc_cb with
  | some cb => finish (stageOf r) (Res.ofCode s.answers.dsc.res) s.dscResponse (dscCallback cb r s)
  | none => unserved r s

/-- STD.GET_CONFIGURATION (R138, R141, R76). -/
def execStdGetConfiguration (r : Request) (s : State) : Result :=
  recognised r s <| if s.data_maxsize.toNat < 1 then unserved r s
  else writeMem (s.data_buf + 8) [s.device_cfg] s fun s' =>
    finish (stageOf r) .ack { ptr := s.data_buf + 8, len := 1 } s'

/-- R139: the configuration callback is called. -/
def cfgCallback (cb : Nat) (c : BitVec 8) (s : State) : State := s.call (.cfgCb cb c s.answers.cfg)

/-- STD.SET_CONFIGURATION (R139, R76). -/
def execStdSetConfiguration (r : Request) (s : State) : Result :=
  recognised r s <| match s.cfg_cb with
  | some cb =>
    match Res.ofCode s.answers.cfg with
    | .ack =>
      served r { cfgCallback cb (configOf r) s with
        device_cfg := configOf r, device_state := stateForConfig (configOf r) }
    | .nak | .fail => unserved r (cfgCallback cb (configOf r) s)
  | none => unserved r s

/-- STD.RESERVED_2 (R140). -/
def execStdReserved2 (r : Request) (s : State) : Result := unserved r s

/-- STD.RESERVED_4 (R140). -/
def execStdReserved4 (r : Request) (s : State) : Result := unserved r s

/-- STD.SET_DESCRIPTOR (R140). -/
def execStdSetDescriptor (r : Request) (s : State) : Result := unserved r s

/-- STD.GET_INTERFACE (R140). -/
def execStdGetInterface (r : Request) (s : State) : Result := unserved r s

/-- STD.SET_INTERFACE (R140). -/
def execStdSetInterface (r : Request) (s : State) : Result := unserved r s

/-- STD.SYNCH_FRAME (R140). -/
def execStdSynchFrame (r : Request) (s : State) : Result := unserved r s

/-- STD.OTHER (R140): request codes 13 to 255. -/
def execStdOther (r : Request) (s : State) : Result := unserved r s

/-- NONSTD.CLASS (R132). -/
def execNonstdClass (r : Request) (s : State) : Result := unserved r s

/-- NONSTD.VENDOR (R132). -/
def execNonstdVendor (r : Request) (s : State) : Result := unserved r s

/-- NONSTD.TYPE_RESERVED (R132, R76). -/
def execNonstdTypeReserved (r : Request) (s : State) : Result := unserved r s

/-- R132 `StdRequest(req)`: the type, then the request code, select the row. -/
def stdRequest (r : Request) (s : State) : Result :=
  match r.typ.toNat, r.bRequest.toNat with
  | 0, 0 => execStdGetStatus r s
  | 0, 1 => execStdClearFeature r s
  | 0, 2 => execStdReserved2 r s
  | 0, 3 => execStdSetFeature r s
  | 0, 4 => execStdReserved4 r s
  | 0, 5 => execStdSetAddress r s
  | 0, 6 => execStdGetDescriptor r s
  | 0, 7 => execStdSetDescriptor r s
  | 0, 8 => execStdGetConfiguration r s
  | 0, 9 => execStdSetConfiguration r s
  | 0, 10 => execStdGetInterface r s
  | 0, 11 => execStdSetInterface r s
  | 0, 12 => execStdSynchFrame r s
  | 0, _ => execStdOther r s
  | 1, _ => execNonstdClass r s
  | 2, _ => execNonstdVendor r s
  | _, _ => execNonstdTypeReserved r s

end Sys2Proof.Machine
end

