-- ==== Sys2Proof/Machine/Setup.lean ====
section
/-! DEFINITION. The SETUP rows: the three branches of R99, from the decoded request to the end of the step (R100 to
R108). -/

namespace Sys2Proof.Machine

/-- R99: the cursor is set to the payload area and the count to `wLength`. -/
def startCursor (r : Request) (s : State) : State :=
  { s with data_ptr := s.data_buf + 8, data_count := r.wLength }

/-- R100 `ProcessRequest(req, empty)` and what its result decides: the control callback first, the built-in handler when
it fails or is absent. -/
def processRequest (stage : Stage) (r : Request) (s : State) : Result :=
  match s.ctl_cb with
  | some cb =>
    match Res.ofCode s.answers.ctl.res with
    | .ack => finish stage .ack s.ctlResponse (ctlCallback cb r [] s)
    | .nak => finish stage .nak s.ctlResponse (ctlCallback cb r [] s)
    | .fail => stdRequest r (ctlCallback cb r [] s)
  | none => stdRequest r s

/-- SETUP.NODATA (R101, R102, R103). -/
def execSetupNodata (r : Request) (s : State) : Result := processRequest .noData r (startCursor r s)

/-- SETUP.IN (R104, R105, R106). -/
def execSetupIn (r : Request) (s : State) : Result := processRequest (.inData r.wLength) r (startCursor r s)

/-- SETUP.OUT (R107, R108). -/
def execSetupOut (r : Request) (s : State) : Result :=
  if outOverflow s r then .next (stall .overflow (startCursor r s))
  else .next { startCursor r s with control_state := .rxdata }

/-- R99: the class of the request selects the branch. -/
def setupBranch (r : Request) (s : State) : Result :=
  if r.wLength = 0 then execSetupNodata r s else if r.dir then execSetupIn r s else execSetupOut r s

/-- R98 `ReadSetup()`. -/
def readSetup (s : State) : Result :=
  epRead ep0Out s.data_buf 8 s fun r s' =>
    if badSetup r then .next (stall .badSetup s') else withRequest s' fun req => setupBranch req s'

/-- R97 `SetupStage()`. -/
def setupStage (s : State) : Result := readSetup (restart s)

end Sys2Proof.Machine
end

