-- ==== Sys2Proof/Machine/Engine.lean ====
section
/-! DEFINITION. The EP0 rows (R81): what an endpoint-0 event does in each control state (R95, R110 to R131, R153). -/

namespace Sys2Proof.Machine

/-! ### The OUT data stage -/

/-- R113: the control callback's result for a completed payload; the built-in handler is not tried. -/
def payloadResult (cb : Nat) (r : Request) (payload : List Byte) (s : State) : Result :=
  match Res.ofCode s.answers.ctl.res with
  | .ack => resultAck .outData (ctlCallback cb r payload s)
  | .nak => resultNak (ctlCallback cb r payload s)
  | .fail => resultFail (ctlCallback cb r payload s)

/-- R113 `RxComplete()`. -/
def rxComplete (s : State) : Result :=
  withRequest s fun r =>
    readMem (s.data_buf + 8) r.wLength.toNat s fun payload =>
      match s.ctl_cb with
      | some cb => payloadResult cb r payload s
      | none => resultFail s

/-- R112 `Accumulate(r)`. -/
def accumulate (n : Nat) (s : State) : Result :=
  if s.data_count.toNat - n ≠ 0 then
    .next { s with data_ptr := s.data_ptr + n, data_count := s.data_count - BitVec.ofNat 16 n }
  else rxComplete { s with data_ptr := s.data_ptr + n, data_count := s.data_count - BitVec.ofNat 16 n }

/-- R110 `DataOut()`. -/
def dataOut (s : State) : Result :=
  epRead ep0Out s.data_ptr s.chunkLen s fun r s' =>
    if badDataOut r s.chunkLen then .next (stall .badDataOut s') else accumulate (rxResult r).toNat s'

/-! ### The IN data stage and the status stage -/

/-- R120 `SendZlp()`. -/
def sendZlp (s : State) : Result :=
  epWrite ep0In s.data_ptr 0 s fun _ s' => .next { s' with control_state := .lastdata }

/-- R121 `LastDataDone()`. -/
def lastDataDone (s : State) : Result :=
  match s.params.statusAfterIn with
  | .statusin => enterStatusIn s
  | .statusout => .next { s with control_state := .statusout }

/-- R126 `StatusOutDone()`. -/
def statusOutDone (s : State) : Result :=
  epRead ep0Out s.data_ptr 0 s fun r s' =>
    if badStatusOut r then .next (stall .badStatusOut s') else complete s'

/-- R153: an event the control state does not await. -/
def outOfSequence (s : State) : Result := .next (stall .outOfSequence s)

/-! ### The rows -/

/-- EP0.idle.epsetup (R97). -/
def execEp0IdleEpsetup (s : State) : Result := setupStage (s.arrives .epsetup)
/-- EP0.idle.eprx (R153). -/
def execEp0IdleEprx (s : State) : Result := outOfSequence (s.arrives .eprx)
/-- EP0.idle.eptx (R153). -/
def execEp0IdleEptx (s : State) : Result := outOfSequence (s.arrives .eptx)
/-- EP0.rxdata.epsetup (R97, R117). -/
def execEp0RxdataEpsetup (s : State) : Result := setupStage (s.arrives .epsetup)
/-- EP0.rxdata.eprx (R110 to R116). -/
def execEp0RxdataEprx (s : State) : Result := dataOut (s.arrives .eprx)
/-- EP0.rxdata.eptx (R153, R117). -/
def execEp0RxdataEptx (s : State) : Result := outOfSequence (s.arrives .eptx)
/-- EP0.txdata.epsetup (R97, R124). -/
def execEp0TxdataEpsetup (s : State) : Result := setupStage (s.arrives .epsetup)
/-- EP0.txdata.eprx (R153, R124). -/
def execEp0TxdataEprx (s : State) : Result := outOfSequence (s.arrives .eprx)
/-- EP0.txdata.eptx (R119). -/
def execEp0TxdataEptx (s : State) : Result := sendChunk (s.arrives .eptx)
/-- EP0.ztxdata.epsetup (R97, R124). -/
def execEp0ZtxdataEpsetup (s : State) : Result := setupStage (s.arrives .epsetup)
/-- EP0.ztxdata.eprx (R153, R124). -/
def execEp0ZtxdataEprx (s : State) : Result := outOfSequence (s.arrives .eprx)
/-- EP0.ztxdata.eptx (R120). -/
def execEp0ZtxdataEptx (s : State) : Result := sendZlp (s.arrives .eptx)
/-- EP0.lastdata.epsetup (R97, R124). -/
def execEp0LastdataEpsetup (s : State) : Result := setupStage (s.arrives .epsetup)
/-- EP0.lastdata.eprx (R153, R124). -/
def execEp0LastdataEprx (s : State) : Result := outOfSequence (s.arrives .eprx)
/-- EP0.lastdata.eptx (R121). -/
def execEp0LastdataEptx (s : State) : Result := lastDataDone (s.arrives .eptx)
/-- EP0.statusin.epsetup (R97, R130). -/
def execEp0StatusinEpsetup (s : State) : Result := setupStage (s.arrives .epsetup)
/-- EP0.statusin.eprx (R153, R130). -/
def execEp0StatusinEprx (s : State) : Result := outOfSequence (s.arrives .eprx)
/-- EP0.statusin.eptx (R125). -/
def execEp0StatusinEptx (s : State) : Result := complete (s.arrives .eptx)
/-- EP0.statusout.epsetup (R97, R130). -/
def execEp0StatusoutEpsetup (s : State) : Result := setupStage (s.arrives .epsetup)
/-- EP0.statusout.eprx (R126). -/
def execEp0StatusoutEprx (s : State) : Result := statusOutDone (s.arrives .eprx)
/-- EP0.statusout.eptx (R153, R130). -/
def execEp0StatusoutEptx (s : State) : Result := outOfSequence (s.arrives .eptx)

/-- R95 for the kind epsetup: the row of the control state. -/
def engineEpsetup (s : State) : Result :=
  match s.control_state with
  | .idle => execEp0IdleEpsetup s
  | .rxdata => execEp0RxdataEpsetup s
  | .txdata => execEp0TxdataEpsetup s
  | .ztxdata => execEp0ZtxdataEpsetup s
  | .lastdata => execEp0LastdataEpsetup s
  | .statusin => execEp0StatusinEpsetup s
  | .statusout => execEp0StatusoutEpsetup s

/-- R95 for the kind eprx: the row of the control state. -/
def engineEprx (s : State) : Result :=
  match s.control_state with
  | .idle => execEp0IdleEprx s
  | .rxdata => execEp0RxdataEprx s
  | .txdata => execEp0TxdataEprx s
  | .ztxdata => execEp0ZtxdataEprx s
  | .lastdata => execEp0LastdataEprx s
  | .statusin => execEp0StatusinEprx s
  | .statusout => execEp0StatusoutEprx s

/-- R95 for the kind eptx: the row of the control state. -/
def engineEptx (s : State) : Result :=
  match s.control_state with
  | .idle => execEp0IdleEptx s
  | .rxdata => execEp0RxdataEptx s
  | .txdata => execEp0TxdataEptx s
  | .ztxdata => execEp0ZtxdataEptx s
  | .lastdata => execEp0LastdataEptx s
  | .statusin => execEp0StatusinEptx s
  | .statusout => execEp0StatusoutEptx s

end Sys2Proof.Machine
end

