-- ==== Sys2Proof/Machine/Events.lean ====
section
/-! DEFINITION. The EVT rows: the dispatcher (R84 to R94). -/

namespace Sys2Proof.Machine

/-- R94 `Route(kind, ep)`: the endpoint's slot takes the event; an empty slot stalls the address the event carried. The
engine's action for a number-0 event is given by the caller. -/
def route (k : EventKind) (engine : State → Result) (ep : Byte) (s : State) : Result :=
  match s.epSlot (epNumber ep) with
  | .engine => engine s
  | .user cb => .next (s.call (.epCb cb (epNumber ep) k ep))
  | .empty => .next (epSetStall ep true s)

/-- EVT reset (R85): Device Status is reset, then the callback is called. -/
def execEvtReset (ep : BitVec 8) (s : State) : Result := .next (eventCallback .reset ep (resetStatus s))

/-- EVT sof (R86). -/
def execEvtSof (ep : BitVec 8) (s : State) : Result := .next (eventCallback .sof ep s)

/-- EVT suspend (R87). -/
def execEvtSuspend (ep : BitVec 8) (s : State) : Result := .next (eventCallback .suspend ep s)

/-- EVT wakeup (R88). -/
def execEvtWakeup (ep : BitVec 8) (s : State) : Result := .next (eventCallback .wakeup ep s)

/-- EVT eptx (R89). -/
def execEvtEptx (ep : BitVec 8) (s : State) : Result := route .eptx engineEptx ep s

/-- EVT eprx (R90). -/
def execEvtEprx (ep : BitVec 8) (s : State) : Result := route .eprx engineEprx ep s

/-- EVT epsetup (R91). -/
def execEvtEpsetup (ep : BitVec 8) (s : State) : Result := route .epsetup engineEpsetup ep s

/-- EVT error (R92). -/
def execEvtError (ep : BitVec 8) (s : State) : Result := .next (eventCallback .error ep s)

/-- EVT esof (R93). -/
def execEvtEsof (ep : BitVec 8) (s : State) : Result := .next (eventCallback .esof ep s)

end Sys2Proof.Machine
end

