-- ==== Sys2Proof/Machine/Dispatch.lean ====
section
/-! DEFINITION. The dispatch of instructions to their meanings. -/

namespace Sys2Proof.Machine

def exec (i : Instr) (s : State) : Host.Outcome State Fault Refusal :=
  match i with
  | .evtReset ep => Sys2Proof.Machine.execEvtReset ep s
  | .evtSof ep => Sys2Proof.Machine.execEvtSof ep s
  | .evtSuspend ep => Sys2Proof.Machine.execEvtSuspend ep s
  | .evtWakeup ep => Sys2Proof.Machine.execEvtWakeup ep s
  | .evtEptx ep => Sys2Proof.Machine.execEvtEptx ep s
  | .evtEprx ep => Sys2Proof.Machine.execEvtEprx ep s
  | .evtEpsetup ep => Sys2Proof.Machine.execEvtEpsetup ep s
  | .evtError ep => Sys2Proof.Machine.execEvtError ep s
  | .evtEsof ep => Sys2Proof.Machine.execEvtEsof ep s
  | .cmdEnable => Sys2Proof.Machine.execCmdEnable s
  | .cmdDisable => Sys2Proof.Machine.execCmdDisable s
  | .cmdConnect => Sys2Proof.Machine.execCmdConnect s
  | .cmdDisconnect => Sys2Proof.Machine.execCmdDisconnect s
  | .cmdReset => Sys2Proof.Machine.execCmdReset s
  | .resFail => Sys2Proof.Machine.execResFail s
  | .resAck => Sys2Proof.Machine.execResAck s
  | .resNak => Sys2Proof.Machine.execResNak s
  | .setupNodata r => Sys2Proof.Machine.execSetupNodata r s
  | .setupIn r => Sys2Proof.Machine.execSetupIn r s
  | .setupOut r => Sys2Proof.Machine.execSetupOut r s
  | .stdGetStatus r => Sys2Proof.Machine.execStdGetStatus r s
  | .stdClearFeature r => Sys2Proof.Machine.execStdClearFeature r s
  | .stdReserved2 r => Sys2Proof.Machine.execStdReserved2 r s
  | .stdSetFeature r => Sys2Proof.Machine.execStdSetFeature r s
  | .stdReserved4 r => Sys2Proof.Machine.execStdReserved4 r s
  | .stdSetAddress r => Sys2Proof.Machine.execStdSetAddress r s
  | .stdGetDescriptor r => Sys2Proof.Machine.execStdGetDescriptor r s
  | .stdSetDescriptor r => Sys2Proof.Machine.execStdSetDescriptor r s
  | .stdGetConfiguration r => Sys2Proof.Machine.execStdGetConfiguration r s
  | .stdSetConfiguration r => Sys2Proof.Machine.execStdSetConfiguration r s
  | .stdGetInterface r => Sys2Proof.Machine.execStdGetInterface r s
  | .stdSetInterface r => Sys2Proof.Machine.execStdSetInterface r s
  | .stdSynchFrame r => Sys2Proof.Machine.execStdSynchFrame r s
  | .stdOther r => Sys2Proof.Machine.execStdOther r s
  | .nonstdClass r => Sys2Proof.Machine.execNonstdClass r s
  | .nonstdVendor r => Sys2Proof.Machine.execNonstdVendor r s
  | .nonstdTypeReserved r => Sys2Proof.Machine.execNonstdTypeReserved r s
  | .ep0IdleEpsetup => Sys2Proof.Machine.execEp0IdleEpsetup s
  | .ep0IdleEprx => Sys2Proof.Machine.execEp0IdleEprx s
  | .ep0IdleEptx => Sys2Proof.Machine.execEp0IdleEptx s
  | .ep0RxdataEpsetup => Sys2Proof.Machine.execEp0RxdataEpsetup s
  | .ep0RxdataEprx => Sys2Proof.Machine.execEp0RxdataEprx s
  | .ep0RxdataEptx => Sys2Proof.Machine.execEp0RxdataEptx s
  | .ep0TxdataEpsetup => Sys2Proof.Machine.execEp0TxdataEpsetup s
  | .ep0TxdataEprx => Sys2Proof.Machine.execEp0TxdataEprx s
  | .ep0TxdataEptx => Sys2Proof.Machine.execEp0TxdataEptx s
  | .ep0ZtxdataEpsetup => Sys2Proof.Machine.execEp0ZtxdataEpsetup s
  | .ep0ZtxdataEprx => Sys2Proof.Machine.execEp0ZtxdataEprx s
  | .ep0ZtxdataEptx => Sys2Proof.Machine.execEp0ZtxdataEptx s
  | .ep0LastdataEpsetup => Sys2Proof.Machine.execEp0LastdataEpsetup s
  | .ep0LastdataEprx => Sys2Proof.Machine.execEp0LastdataEprx s
  | .ep0LastdataEptx => Sys2Proof.Machine.execEp0LastdataEptx s
  | .ep0StatusinEpsetup => Sys2Proof.Machine.execEp0StatusinEpsetup s
  | .ep0StatusinEprx => Sys2Proof.Machine.execEp0StatusinEprx s
  | .ep0StatusinEptx => Sys2Proof.Machine.execEp0StatusinEptx s
  | .ep0StatusoutEpsetup => Sys2Proof.Machine.execEp0StatusoutEpsetup s
  | .ep0StatusoutEprx => Sys2Proof.Machine.execEp0StatusoutEprx s
  | .ep0StatusoutEptx => Sys2Proof.Machine.execEp0StatusoutEptx s

end Sys2Proof.Machine
end

