-- ==== Sys2Proof/Machine/Fetch.lean ====
section
/-! DEFINITION. Fetching: the word an input delivers, where a Setup packet lies (R42, R60), what the environment does
between steps (R176, R39), and the two entry points by which tokens come (R83, R143). -/

namespace Sys2Proof.Machine

/-- The tokens of R5 and the actions of the environment; the other inputs start a step at an inner decode point (log 8). -/
def Input.isToken : Input → Bool
  | .evt _ => true
  | .cmd _ => true
  | .env _ => true
  | .res _ => false
  | .setup => false
  | .std => false
  | .ep0 _ => false

/-- The state in which the step of a delivery runs: the delivery is consumed, its answers are at hand, the trace is empty
and no stall is labelled. -/
def State.take (s : State) (d : Delivery) (rest : List Delivery) : State :=
  { s with inputs := rest, answers := d.answers, trace := [], cause := none }

/-- R176: a callback is registered, or a slot is emptied. -/
def State.register (s : State) (cb : Option Nat) : Slot → State
  | .ctl => { s with ctl_cb := cb }
  | .cfg => { s with cfg_cb := cb }
  | .dsc => { s with dsc_cb := cb }
  | .evt .reset => { s with evt_cb := { s.evt_cb with reset := cb } }
  | .evt .sof => { s with evt_cb := { s.evt_cb with sof := cb } }
  | .evt .suspend => { s with evt_cb := { s.evt_cb with suspend := cb } }
  | .evt .wakeup => { s with evt_cb := { s.evt_cb with wakeup := cb } }
  | .evt .eptx => { s with evt_cb := { s.evt_cb with eptx := cb } }
  | .evt .eprx => { s with evt_cb := { s.evt_cb with eprx := cb } }
  | .evt .epsetup => { s with evt_cb := { s.evt_cb with epsetup := cb } }
  | .evt .error => { s with evt_cb := { s.evt_cb with error := cb } }
  | .evt .esof => { s with evt_cb := { s.evt_cb with esof := cb } }
  | .ep1 => { s with ep_cb := { s.ep_cb with ep1 := cb } }
  | .ep2 => { s with ep_cb := { s.ep_cb with ep2 := cb } }
  | .ep3 => { s with ep_cb := { s.ep_cb with ep3 := cb } }
  | .ep4 => { s with ep_cb := { s.ep_cb with ep4 := cb } }
  | .ep5 => { s with ep_cb := { s.ep_cb with ep5 := cb } }
  | .ep6 => { s with ep_cb := { s.ep_cb with ep6 := cb } }
  | .ep7 => { s with ep_cb := { s.ep_cb with ep7 := cb } }

/-- R58, R39: the environment owns the bytes of memory outside the control buffer. -/
def State.envOwns (s : State) (a : Nat) : Bool :=
  decide (a < 2 ^ s.params.ptrW) && (decide (a < s.data_buf) || decide (s.data_buf + 8 + s.data_maxsize.toNat ≤ a))

/-- R176, R39: an action of the environment between two steps of the block. -/
def envStep (a : EnvAction) (s : State) : Result :=
  match a with
  | .register slot cb => .next (s.register cb slot)
  | .write a v => if s.envOwns a then .next { s with mem := s.mem.write a v } else .refused .environmentWrite

/-- R42, R60: the packet in the control buffer. -/
def withPacket (s : State) (k : BitVec 64 → Result) : Result :=
  readMem s.data_buf 8 s fun bs => k (packetOfBytes bs)

/-- The key `{control_state, kind}` of an endpoint-0 event (R82). -/
def State.ep0Key (s : State) (kind : BitVec 8) : BitVec 11 := s.control_state.code ++ kind

/-- What an input makes the step do: an action of the environment, or the word to decode. -/
def fetch (d : Input) (s : State) (run : Word → Result) : Result :=
  match d with
  | .evt w => run (.evt w)
  | .cmd w => run (.cmd w)
  | .env a => envStep a s
  | .res w => run (.res w)
  | .setup => withPacket s fun p => run (.setup p)
  | .std => withPacket s fun p => run (.std p)
  | .ep0 kind => run (.ep0 (s.ep0Key kind))

/-- R73, R74: a token the decoder rejects is ignored, no state change and no call. -/
def ignored (s : State) : Result := .next s

/-- R83: a poll delivers its events, in the driver's order, each with its answers. -/
def State.poll (s : State) (events : List (BitVec 16 × Answers)) : State :=
  { s with inputs := s.inputs ++ events.map fun e => { input := .evt e.1, answers := e.2 } }

/-- R143 `apply_command(cmd)`: a command token is delivered. -/
def State.applyCommand (s : State) (cmd : BitVec 8) (a : Answers) : State :=
  { s with inputs := s.inputs ++ [{ input := .cmd cmd, answers := a }] }

/-- R176: the environment registers a callback before the next token. -/
def State.environment (s : State) (a : EnvAction) : State :=
  { s with inputs := s.inputs ++ [{ input := .env a, answers := Answers.silent }] }

/-- One more delivery in front of the queue, with silent answers. -/
def State.deliverNext (s : State) (d : Input) : State :=
  { s with inputs := { input := d, answers := Answers.silent } :: s.inputs }

/-- The 8 bytes of a packet in the header of the control buffer (R42). -/
def State.storePacket (s : State) (p : BitVec 64) : State :=
  { s with mem := s.mem.writeBytes s.data_buf (bytesOfPacket p) }

/-- A word placed where the next step fetches it (log 8): a token or a code in front of the queue; a packet in the control
buffer, with the delivery that starts its decoding; for an EP0 key, the control state it names and its event. -/
def State.placeWord (s : State) : Word → State
  | .evt w => s.deliverNext (.evt w)
  | .cmd w => s.deliverNext (.cmd w)
  | .res w => s.deliverNext (.res w)
  | .setup p => (s.storePacket p).deliverNext .setup
  | .std p => (s.storePacket p).deliverNext .std
  | .ep0 w =>
    { s with control_state := ControlState.ofCode (w.extractLsb' 8 3) }.deliverNext (.ep0 (w.extractLsb' 0 8))

end Sys2Proof.Machine
end

