-- ==== Sys2Proof/Machine/Step.lean ====
section
/-! DEFINITION. One step of the machine: one delivery is consumed and runs to completion (R5). -/

namespace Sys2Proof.Machine

/-- The word decoded and executed; a rejected token is ignored (R73, R74). -/
def runWord (s : State) (w : Word) : Result :=
  match decode w with
  | .ok i => exec i s
  | .error _ => ignored s

/-- R5: one step consumes one delivery. With nothing delivered the machine waits (R180): its state is unchanged. -/
def step (s : State) : Host.Outcome State Fault Refusal :=
  match s.inputs with
  | [] => .next s
  | d :: rest => fetch d.input (s.take d rest) (runWord (s.take d rest))

/-- The state with a word of the opcode table placed where the next step fetches it (log 8, log 9). -/
def State.withFetchWord (s : State) (nbits w : Nat) : State := s.placeWord (tableWord nbits w)

end Sys2Proof.Machine
end

