-- ==== Sys2Proof/Safety.lean ====
section
/-! DEFINITION. What statements speak of: the invariant of Device Status (R23), the duties the spec puts on the
environment (R43, R58, R176), and the states the stages of a transfer lead to. -/

namespace Sys2Proof.Machine

/-- R40: the request in the control buffer. -/
def State.header (s : State) : Request := Request.ofPacket (packetOfBytes (s.mem.readBytes s.data_buf 8))

/-- The outcome is a next state. -/
def Completes (r : Result) : Prop := ∃ t, r = .next t

/-- The next state, if there is one. -/
def stateOf : Result → Option State
  | .next t => some t
  | .fault _ => none
  | .refused _ => none

/-- R23 and what it rests on, at every step boundary of a run of tokens: the parameters hold their constraints (R8) and
the fields loaded from them their values (I1, R169); memory and the list of stalled endpoints are in canonical form; in
`rxdata` (I2); in `txdata` and `ztxdata` (I3); R119 and R26 on the remaining count; R27 on `statusout`; every input
waiting is a token or an action of the environment. (I4) is the type of `control_state`. -/
structure Inv (s : State) : Prop where
  params_valid : s.params.valid = true
  buf : s.data_buf = s.params.dataBuf
  packet : s.ep0size = s.params.ep0Size
  maxsize : s.data_maxsize.toNat + 8 = s.params.bufSize
  mem_wf : s.mem.wf
  mem_range : ∀ c ∈ s.mem, c.1 < 2 ^ s.params.ptrW
  stalled_rising : s.hab.stalled.Pairwise (fun a b => a.toNat < b.toNat)
  rx_count : s.control_state = .rxdata → s.data_count.toNat ≤ s.data_maxsize.toNat
  rx_cursor : s.control_state = .rxdata →
    s.data_ptr + s.data_count.toNat = s.data_buf + 8 + s.header.wLength.toNat
  rx_low : s.control_state = .rxdata → s.data_buf + 8 ≤ s.data_ptr
  rx_high : s.control_state = .rxdata → s.data_ptr ≤ s.data_buf + 8 + s.data_maxsize.toNat
  rx_fits : s.control_state = .rxdata → s.header.wLength.toNat ≤ s.data_maxsize.toNat
  tx_cursor : s.control_state = .txdata ∨ s.control_state = .ztxdata →
    s.data_ptr + s.data_count.toNat = s.resp.ptr + min s.header.wLength.toNat s.resp.len.toNat
  tx_more : s.control_state = .txdata → 0 < s.data_count.toNat
  tx_done : s.control_state = .ztxdata ∨ s.control_state = .lastdata → s.data_count = 0
  tx_owed : s.control_state = .ztxdata → s.tx_short = true
  status_out : s.control_state = .statusout → s.params.statusAfterIn = .statusout
  tokens : ∀ d ∈ s.inputs, d.input.isToken = true

/-- R43: a response lies inside memory. -/
def Response.fits (p : Params) (r : Response) : Prop := r.ptr + r.len.toNat ≤ 2 ^ p.ptrW

/-- R43, R58: what the environment owes with one delivery: the responses it answers lie inside memory, and it writes only
bytes it owns. -/
def Delivery.dutiful (s : State) (d : Delivery) : Prop :=
  Response.fits s.params { ptr := s.addr d.answers.ctl.rptr, len := d.answers.ctl.rlen } ∧
  Response.fits s.params { ptr := s.addr d.answers.dsc.rptr, len := d.answers.dsc.rlen } ∧
  ∀ a v, d.input = .env (.write a v) → s.envOwns a = true

/-- The environment's duties towards a state: for every delivery waiting, and for the response being sent. -/
structure Dutiful (s : State) : Prop where
  deliveries : ∀ d ∈ s.inputs, d.dutiful s
  sending : s.control_state = .txdata ∨ s.control_state = .ztxdata → Response.fits s.params s.resp

/-- R109: the state `s` with the zero-length status packet queued. -/
def statusQueued (s : State) : State :=
  { s with
    trace := s.trace ++ [.epWrite ep0In s.data_ptr 0 []]
    hab := { s.hab with tx_pending := some [] }
    control_state := .statusin }

/-- R104, R118: the state `s` with the first chunk of the response `p` handed over, where the host asked for `wLength`
bytes: `n` bytes in all, `c` of them now. -/
def firstChunkSent (wLength : BitVec 16) (p : Response) (s : State) : State :=
  let n := min wLength.toNat p.len.toNat
  let c := min n s.ep0size.toNat
  let short := decide (p.len.toNat < wLength.toNat)
  { s with
    resp := p
    data_ptr := p.ptr + c
    data_count := BitVec.ofNat 16 (n - c)
    tx_short := short
    trace := s.trace ++ [.epWrite ep0In p.ptr c (s.mem.readBytes p.ptr c)]
    hab := { s.hab with tx_pending := some (s.mem.readBytes p.ptr c) }
    control_state :=
      if n ≠ c then .txdata else if c = s.ep0size.toNat ∧ short = true then .ztxdata else .lastdata }

/-- R152: the state `s` with both directions of endpoint 0 stalled and the engine idle, under the label `c`. -/
def stalledState (c : StallCause) (s : State) : State :=
  { s with
    trace := s.trace ++ [.epSetStall ep0Out true, .epSetStall ep0In true]
    hab := (s.hab.setStall ep0Out true).setStall ep0In true
    control_state := .idle
    cause := some c }

/-- R104: the bytes of the first chunk of the response `p` lie inside memory. -/
def firstChunkFits (wLength : BitVec 16) (p : Response) (s : State) : Prop :=
  p.ptr + min (min wLength.toNat p.len.toNat) s.ep0size.toNat ≤ 2 ^ s.params.ptrW

/-- R101, R104: how a transfer goes on when its request is acked with the response `p`, by the class of the request. -/
def accepted (r : Request) (p : Response) (s : State) : State :=
  if r.wLength ≠ 0 ∧ r.dir = true then firstChunkSent r.wLength p s else statusQueued { s with resp := p }

/-- R127: the state `s` at the end of a control transfer. -/
def completedState (s : State) : State :=
  { s with
    trace := s.trace ++ (if s.pend_addr_v then [.setAddress (s.pend_addr.setWidth 8)] else [])
      ++ (match s.complete_cb with
        | some cb => [.completeCb cb s.header]
        | none => [])
    hab := if s.pend_addr_v then { s.hab with address := s.pend_addr.setWidth 8 } else s.hab
    device_state :=
      if s.pend_addr_v then (if s.pend_addr ≠ 0 then .addressed else .default) else s.device_state
    pend_addr_v := false
    complete_cb := none
    control_state := .idle }

/-- R45, R110: the state `s` once `ep_read(EP0_OUT, buf, len)` has returned. -/
def packetRead (buf len : Nat) (s : State) : State :=
  { s with
    mem := s.mem.writeBytes buf (rxBytes s.answers.rx len)
    trace := s.trace ++ [.epRead ep0Out buf len s.answers.rx.result]
    hab := { s.hab with rx_waiting := false } }

/-- R97, R98: the state `s` once the old transfer is forgotten and the Setup packet is read into the control buffer. -/
def setupRead (s : State) : State :=
  packetRead s.data_buf 8
    { s with
      hab := s.hab.onEvent .epsetup
      control_state := .idle, complete_cb := none, pend_addr_v := false, tx_short := false }

/-- R99: the state `s` with the cursor at the payload area and the count at `wLength`. -/
def cursorSet (r : Request) (s : State) : State := { s with data_ptr := s.data_buf + 8, data_count := r.wLength }

/-- The seven rows of R81 for a Setup event on endpoint 0. -/
def setupRows : List Instr :=
  [.ep0IdleEpsetup, .ep0RxdataEpsetup, .ep0TxdataEpsetup, .ep0ZtxdataEpsetup, .ep0LastdataEpsetup,
   .ep0StatusinEpsetup, .ep0StatusoutEpsetup]

/-- R97, R94: the forms that read a Setup packet into the control buffer: the Setup rows, and a Setup event of an address
of endpoint number 0. -/
def readsSetup (i : Instr) : Prop := i ∈ setupRows ∨ ∃ ep : Byte, ep.extractLsb' 0 3 = 0 ∧ i = .evtEpsetup ep

/-- R110, R95: the forms that read a data packet at the cursor: the row of `rxdata`, and in `rxdata` a receive event of an
address of endpoint number 0. -/
def readsData (s : State) (i : Instr) : Prop :=
  i = .ep0RxdataEprx ∨ s.control_state = .rxdata ∧ ∃ ep : Byte, ep.extractLsb' 0 3 = 0 ∧ i = .evtEprx ep

/-- R58: the forms that may store to memory in the state `s`: those that read a Setup or a data packet, ask the control
callback, or build the answer of GET_STATUS or GET_CONFIGURATION (R141). -/
def mayStore (s : State) (i : Instr) : Prop :=
  readsSetup i ∨ readsData s i ∨ ∃ r : Request,
    i = .stdGetStatus r ∨ i = .stdGetConfiguration r ∨
    (i = .setupNodata r ∨ i = .setupIn r) ∧
      (s.ctl_cb ≠ none ∨ r.typ = 0 ∧ (r.bRequest = 0 ∨ r.bRequest = 8))

/-- R132, R99: the forms in which the built-in handler may run the standard request of code `n` on the request `q`: the
row `row`, a request of the class NODATA or IN, and a Setup event that has read `q` and left the state `t`. -/
def fromRequest (row : Instr) (n : BitVec 8) (q : Request) (i : Instr) (t : State) : Prop :=
  i = row ∨ q.typ = 0 ∧ q.bRequest = n ∧
    (i = .setupNodata q ∨ i = .setupIn q ∨ readsSetup i ∧ t.header = q)

/-- R119: `n` transmit completions in `txdata`, one after the other. -/
def dataInSteps : Nat → State → Result
  | 0, s => .next s
  | n + 1, s =>
    match exec .ep0TxdataEptx s with
    | .next t => dataInSteps n t
    | .fault f => .fault f
    | .refused r => .refused r

/-- R123: the bytes a trace has handed to EP0 IN, in order. -/
def sentBytes : List Call → List Byte
  | [] => []
  | .epWrite _ _ _ bs :: cs => bs ++ sentBytes cs
  | _ :: cs => sentBytes cs

/-- The HAB operations R164 and D44 say the block never calls. -/
def Call.unused : Call → Bool
  | .habReset => true
  | .epConfig _ _ _ _ => true
  | .epDeconfig _ => true
  | .frameNumber _ => true
  | .serialNumber _ _ => true
  | _ => false

/-- The calls whose answer comes from the environment, and `ep_write`: the kinds of call a step makes at most once. -/
def Call.kind : Call → Nat
  | .epRead _ _ _ _ => 1
  | .epWrite _ _ _ _ => 2
  | .ctlCb _ _ _ _ => 3
  | .cfgCb _ _ _ => 4
  | .dscCb _ _ _ => 5
  | .epIsStalled _ _ => 6
  | .completeCb _ _ => 7
  | .setAddress _ => 8
  | _ => 0

/-- R96: the pairs of control states one step of the block may go between, by the token that is consumed. -/
def controlStep (afterIn : StatusAfterIn) (k : EventKind) (c d : ControlState) : Bool :=
  match k, c, d with
  | .epsetup, _, .statusin => true
  | .epsetup, _, .idle => true
  | .epsetup, _, .txdata => true
  | .epsetup, _, .ztxdata => true
  | .epsetup, _, .lastdata => true
  | .epsetup, _, .rxdata => true
  | .epsetup, _, .statusout => false
  | .eprx, .rxdata, .rxdata => true
  | .eprx, .rxdata, .statusin => true
  | .eprx, _, d => decide (d = .idle)
  | .eptx, .txdata, .txdata => true
  | .eptx, .txdata, .ztxdata => true
  | .eptx, .txdata, .lastdata => true
  | .eptx, .txdata, _ => false
  | .eptx, .ztxdata, d => decide (d = .lastdata)
  | .eptx, .lastdata, d =>
    match afterIn with
    | .statusin => decide (d = .statusin)
    | .statusout => decide (d = .statusout)
  | .eptx, _, d => decide (d = .idle)
  | .reset, _, d => decide (d = .idle)
  | .sof, c, d => decide (d = c)
  | .suspend, c, d => decide (d = c)
  | .wakeup, c, d => decide (d = c)
  | .error, c, d => decide (d = c)
  | .esof, c, d => decide (d = c)

end Sys2Proof.Machine
end

