-- ==== Sys2Proof/Certificates/Slice0/Obligations.lean ====
section
/-! DEFINITION. The statements for the provers. A statement about `exec` speaks of every state; the trace of a step
starts empty (`State.take`), and `exec` only adds to it. -/

open Sys2Proof Sys2Proof.Machine

/-! ### Encoding -/

/-- R60, R64, R67, R68, R81: no field of an encoding is dropped. The numbers of the codes and the packing of a token are
the spec's decisions D3, D4, D5 (log 19). -/
def Obligations.DecodingAnEncodedInstructionGivesItBack : Prop :=
  ∀ i : Instr, i.wf = true → decode (encode i) = .ok i

/-- R60, R64, R67, R68, R81: what the decoder reads is well-formed and encodes to the word it was read from, except the
result codes R75 and the control state code R81 read as another's. The codes are the spec's decisions D3, D4, D7 (log 19). -/
def Obligations.EncodingADecodedWordGivesItBack : Prop :=
  ∀ (w : Word) (i : Instr), decode w = .ok i →
    i.wf = true ∧
    ((∀ c, w = .res c → c.toNat ≤ 2) → (∀ k, w = .ep0 k → (k.extractLsb' 8 3).toNat ≤ 6) → encode i = w)

/-- R63: the three classes of a Setup packet. -/
def Obligations.SetupPacketsFallIntoThreeClasses : Prop :=
  ∀ p : BitVec 64,
    ((∃ r, decode (.setup p) = .ok (.setupNodata r)) ↔ p &&& 0xFFFF000000000000#64 = 0) ∧
    ((∃ r, decode (.setup p) = .ok (.setupIn r)) ↔ p.getLsbD 7 = true ∧ p.extractLsb' 48 16 ≠ 0) ∧
    ((∃ r, decode (.setup p) = .ok (.setupOut r)) ↔ p.getLsbD 7 = false ∧ p.extractLsb' 48 16 ≠ 0) ∧
    (∀ r, decode (.setup p) = .ok (.setupNodata r) → r.wLength = 0) ∧
    (∀ r, decode (.setup p) = .ok (.setupIn r) → 0 < r.wLength.toNat ∧ r.dir = true) ∧
    (∀ r, decode (.setup p) = .ok (.setupOut r) → 0 < r.wLength.toNat ∧ r.dir = false)

/-- R60: the layout of the eight bytes. -/
def Obligations.SetupPacketLayoutIsLittleEndian : Prop :=
  ∀ b0 b1 b2 b3 b4 b5 b6 b7 : Byte,
    let p := packetOfBytes [b0, b1, b2, b3, b4, b5, b6, b7]
    let r := Request.ofPacket p
    bytesOfPacket p = [b0, b1, b2, b3, b4, b5, b6, b7] ∧
    p = b7 ++ b6 ++ b5 ++ b4 ++ b3 ++ b2 ++ b1 ++ b0 ∧
    r.dir = b0.getLsbD 7 ∧ r.typ = b0.extractLsb' 5 2 ∧ r.recipient = b0.extractLsb' 0 5 ∧
    r.bRequest = b1 ∧ r.wValue = b3 ++ b2 ∧ r.wIndex = b5 ++ b4 ∧ r.wLength = b7 ++ b6

/-- R80, R65, R67, R68, R81: words written out from the spec's encodings decode to the instructions they stand for. The
codes are the spec's decisions D3, D4, D5, D6 (log 19). -/
def Obligations.WordsOfTheSpecDecode : Prop :=
  decode (.evt 0x0480) = .ok (.evtEptx 0x80) ∧
  decode (.evt 0x0600) = .ok (.evtEpsetup 0x00) ∧
  decode (.cmd 0x04) = .ok .cmdReset ∧
  decode (.res 0x01) = .ok .resAck ∧
  decode (.ep0 0x105) = .ok .ep0RxdataEprx ∧
  decodeSetupBytes [0x80, 0x06, 0x00, 0x01, 0x00, 0x00, 0x12, 0x00] =
    .ok (.setupIn ⟨true, 0, 0, 6, 0x0100, 0, 18⟩) ∧
  decode (.std (packetOfBytes [0x00, 0x05, 0x05, 0x00, 0x00, 0x00, 0x00, 0x00])) =
    .ok (.stdSetAddress ⟨false, 0, 0, 5, 5, 0, 0⟩)

/-- R73, R74, the spec's decision D7: a token of an undefined kind or code is consumed and ignored. -/
def Obligations.UndefinedTokensAreIgnored : Prop :=
  ∀ (s : State) (a : Answers) (rest : List Delivery),
    (∀ w : BitVec 16, s.inputs = ⟨.evt w, a⟩ :: rest → 9 ≤ (w.extractLsb' 8 8).toNat →
      step s = .next { s with inputs := rest, answers := a, trace := [], cause := none }) ∧
    (∀ w : BitVec 8, s.inputs = ⟨.cmd w, a⟩ :: rest → 5 ≤ w.toNat →
      step s = .next { s with inputs := rest, answers := a, trace := [], cause := none })

/-- R75, the spec's decision D7: a result that is neither ack nor nak is taken as fail, wherever the engine reads one. For
a request to the recipients 4 to 31 the handler reads none (R76, log 23; `UnrecognisedRequestsStall`). -/
def Obligations.UndefinedResultsAreFail : Prop :=
  (∀ c : BitVec 8, c ≠ 1 → c ≠ 2 → decode (.res c) = .ok .resFail) ∧
  (∀ (s : State) (r : Request) (cb : Nat) (i : Instr), s.ctl_cb = some cb →
    s.answers.ctl.res ≠ 1 → s.answers.ctl.res ≠ 2 → decode (.std r.packet) = .ok i →
    exec (.setupNodata r) s = exec i (ctlCallback cb r [] (cursorSet r s)) ∧
    exec (.setupIn r) s = exec i (ctlCallback cb r [] (cursorSet r s))) ∧
  (∀ (s : State) (r : Request) (cb : Nat), r.recipient.toNat < 4 → s.dsc_cb = some cb →
    s.answers.dsc.res ≠ 1 → s.answers.dsc.res ≠ 2 →
    exec (.stdGetDescriptor r) s = .next (stalledState .requestFailed (s.call (.dscCb cb r s.answers.dsc.res)))) ∧
  (∀ (s : State) (r : Request) (cb : Nat), r.recipient.toNat < 4 → s.cfg_cb = some cb → s.answers.cfg ≠ 1 →
    exec (.stdSetConfiguration r) s =
      .next (stalledState .requestFailed (s.call (.cfgCb cb (r.wValue.extractLsb' 0 8) s.answers.cfg))))

/-! ### Steps -/

/-- R5: one step runs the instruction its delivery decodes to, in the state in which the delivery has been taken; with
nothing delivered the machine waits. Which word an input stands for is the model's choice (log 8) for the inner decode
points. -/
def Obligations.AStepRunsTheDecodedInstruction : Prop :=
  (∀ s : State, s.inputs = [] → step s = .next s) ∧
  ∀ (s : State) (d : Delivery) (rest : List Delivery) (i : Instr), s.inputs = d :: rest →
    (∀ w, d.input = .evt w → decode (.evt w) = .ok i → step s = exec i (s.take d rest)) ∧
    (∀ w, d.input = .cmd w → decode (.cmd w) = .ok i → step s = exec i (s.take d rest)) ∧
    (∀ w, d.input = .res w → decode (.res w) = .ok i → step s = exec i (s.take d rest)) ∧
    (d.input = .setup → s.data_buf + 8 ≤ 2 ^ s.params.ptrW →
      decodeSetupBytes (s.mem.readBytes s.data_buf 8) = .ok i → step s = exec i (s.take d rest)) ∧
    (d.input = .std → s.data_buf + 8 ≤ 2 ^ s.params.ptrW →
      decode (.std (packetOfBytes (s.mem.readBytes s.data_buf 8))) = .ok i → step s = exec i (s.take d rest)) ∧
    (∀ k, d.input = .ep0 k → decode (.ep0 (s.control_state.code ++ k)) = .ok i → step s = exec i (s.take d rest))

/-- R176, R33, R39: the environment's actions between steps: a registration changes its slot and nothing else, so that
`complete_cb` and endpoint slot 0 never change; a write of memory changes one byte the environment owns. -/
def Obligations.EnvironmentActionsChangeOnlyTheirTarget : Prop :=
  ∀ (s : State) (a : Answers) (rest : List Delivery),
    (∀ slot cb, s.inputs = ⟨.env (.register slot cb), a⟩ :: rest →
      ∃ t, step s = .next t ∧
        t = { s with
          inputs := rest, answers := a, trace := [], cause := none
          ctl_cb := t.ctl_cb, cfg_cb := t.cfg_cb, dsc_cb := t.dsc_cb, evt_cb := t.evt_cb, ep_cb := t.ep_cb } ∧
        t.epSlot 0 = .engine ∧
        t.ctl_cb = (if slot = .ctl then cb else s.ctl_cb) ∧
        t.cfg_cb = (if slot = .cfg then cb else s.cfg_cb) ∧
        t.dsc_cb = (if slot = .dsc then cb else s.dsc_cb) ∧
        (∀ k, t.evtSlot k = if slot = .evt k then cb else s.evtSlot k) ∧
        t.ep_cb.ep1 = (if slot = .ep1 then cb else s.ep_cb.ep1) ∧
        t.ep_cb.ep2 = (if slot = .ep2 then cb else s.ep_cb.ep2) ∧
        t.ep_cb.ep3 = (if slot = .ep3 then cb else s.ep_cb.ep3) ∧
        t.ep_cb.ep4 = (if slot = .ep4 then cb else s.ep_cb.ep4) ∧
        t.ep_cb.ep5 = (if slot = .ep5 then cb else s.ep_cb.ep5) ∧
        t.ep_cb.ep6 = (if slot = .ep6 then cb else s.ep_cb.ep6) ∧
        t.ep_cb.ep7 = (if slot = .ep7 then cb else s.ep_cb.ep7)) ∧
    (∀ b v, s.inputs = ⟨.env (.write b v), a⟩ :: rest → s.mem.wf →
      b < 2 ^ s.params.ptrW → b < s.data_buf ∨ s.data_buf + 8 + s.data_maxsize.toNat ≤ b →
      ∃ t, step s = .next t ∧
        t = { s with inputs := rest, answers := a, trace := [], cause := none, mem := t.mem } ∧
        ∀ x, t.mem.read x = if x = b then v else s.mem.read x)

/-! ### Commands -/

/-- R144, R145: `enable` and `disable` call the HAB and set the device state. The codes are the spec's decision D3, the
order D42, what the shadow `hab` records the model's (log 10). -/
def Obligations.EnableAndDisableSwitchTheTransceiver : Prop :=
  decode (.cmd 0) = .ok .cmdEnable ∧ decode (.cmd 1) = .ok .cmdDisable ∧
  ∀ s : State,
    exec .cmdEnable s = .next { s with
      trace := s.trace ++ [.enable true], hab := { s.hab with powered := true }, device_state := .disconnected } ∧
    exec .cmdDisable s = .next { s with
      trace := s.trace ++ [.enable false], hab := { s.hab with powered := false }, device_state := .disabled }

/-- R146, R147: `connect` and `disconnect` call the HAB and change no state of the block; for `disconnect` that is the
spec's decision D43. The codes are D3, what the shadow `hab` records the model's (log 10). -/
def Obligations.ConnectAndDisconnectSwitchThePullUp : Prop :=
  decode (.cmd 2) = .ok .cmdConnect ∧ decode (.cmd 3) = .ok .cmdDisconnect ∧
  ∀ s : State,
    exec .cmdConnect s = .next { s with trace := s.trace ++ [.connect true], hab := { s.hab with pullup := true } } ∧
    exec .cmdDisconnect s = .next { s with trace := s.trace ++ [.connect false], hab := { s.hab with pullup := false } }

/-- R148, R149, R171: six fields are written, nothing is called, everything else survives. That the last three are
written, and that nothing is called, are the spec's decisions D45 and D44. -/
def Obligations.CommandResetReinitialisesDeviceStatus : Prop :=
  decode (.cmd 4) = .ok .cmdReset ∧
  ∀ s : State, exec .cmdReset s = .next { s with
    control_state := .idle, device_cfg := 0, device_state := .default
    complete_cb := none, pend_addr_v := false, tx_short := false }

/-! ### Events -/

/-- R85: the reset event resets Device Status and then calls the callback of its slot. The order is the spec's decision
D17, the last three fields D45. That a bus reset leaves the shadow `hab` as it is, is the model's choice (log 10). -/
def Obligations.EventResetResetsAndThenCallsBack : Prop :=
  (∀ ep : Byte, decode (.evt (0#8 ++ ep)) = .ok (.evtReset ep)) ∧
  ∀ (s : State) (ep : Byte), exec (.evtReset ep) s = .next { s with
    control_state := .idle, device_cfg := 0, device_state := .default
    complete_cb := none, pend_addr_v := false, tx_short := false
    trace := s.trace ++ (match s.evt_cb.reset with
      | some cb => [.evtCb cb .reset ep]
      | none => []) }

/-- R86, R87, R88, R92, R93: the five informational events call the callback of their slot, with their kind and the
endpoint address, and change nothing. The numbers of the kinds are the spec's decision D3 (R65; log 19). -/
def Obligations.InformationalEventsOnlyCallBack : Prop :=
  (EventKind.sof.code = 1 ∧ EventKind.suspend.code = 2 ∧ EventKind.wakeup.code = 3 ∧ EventKind.error.code = 7 ∧
    EventKind.esof.code = 8) ∧
  ∀ (s : State) (ep : Byte) (i : Instr) (slot : Option Nat) (k : EventKind),
    (i, slot, k) ∈ [(.evtSof ep, s.evt_cb.sof, .sof), (.evtSuspend ep, s.evt_cb.suspend, .suspend),
      (.evtWakeup ep, s.evt_cb.wakeup, .wakeup), (.evtError ep, s.evt_cb.error, .error),
      (.evtEsof ep, s.evt_cb.esof, EventKind.esof)] →
    exec i s = .next { s with
      trace := s.trace ++ (match slot with
        | some cb => [.evtCb cb k ep]
        | none => []) }

/-- R94: an endpoint event goes to the slot of the low three bits of its address; where the slot is empty, that address is
stalled, the spec's decision D19. -/
def Obligations.EndpointEventsGoToTheirSlot : Prop :=
  ∀ (s : State) (ep : Byte) (i j : Instr) (k : EventKind),
    (i, k) ∈ [(.evtEptx ep, .eptx), (.evtEprx ep, .eprx), (Instr.evtEpsetup ep, EventKind.epsetup)] →
    (ep.extractLsb' 0 3 = 0 → decode (.ep0 (s.control_state.code ++ k.code)) = .ok j → exec i s = exec j s) ∧
    (∀ n slot, (n, slot) ∈ [(1#3, s.ep_cb.ep1), (2#3, s.ep_cb.ep2), (3#3, s.ep_cb.ep3), (4#3, s.ep_cb.ep4),
        (5#3, s.ep_cb.ep5), (6#3, s.ep_cb.ep6), (7#3, s.ep_cb.ep7)] → ep.extractLsb' 0 3 = n →
      (∀ cb, slot = some cb → exec i s = .next { s with trace := s.trace ++ [.epCb cb n k ep] }) ∧
      (slot = none → exec i s = .next { s with
        trace := s.trace ++ [.epSetStall ep true], hab := s.hab.setStall ep true }))

/-- R95, R81: the engine's entry selects on the event and the control state, whatever the other bits of the address
(the spec's decisions D9, D51). What an event says of the shadow `hab` is the model's (log 10). -/
def Obligations.TheEngineSelectsOnEventAndControlState : Prop :=
  ∀ (s : State) (ep : Byte), ep.extractLsb' 0 3 = 0 →
    (∀ i ∈ setupRows, exec (.evtEpsetup ep) s = exec i s) ∧
    exec (.evtEprx ep) s = (match s.control_state with
      | .rxdata => exec .ep0RxdataEprx s
      | .statusout => exec .ep0StatusoutEprx s
      | _ => .next (stalledState .outOfSequence { s with hab := { s.hab with rx_waiting := true } })) ∧
    exec (.evtEptx ep) s = (match s.control_state with
      | .txdata => exec .ep0TxdataEptx s
      | .ztxdata => exec .ep0ZtxdataEptx s
      | .lastdata => exec .ep0LastdataEptx s
      | .statusin => exec .ep0StatusinEptx s
      | _ => .next (stalledState .outOfSequence { s with hab := { s.hab with tx_pending := none } }))

/-- R152, R153: the eight out-of-sequence rows stall endpoint 0 in both directions, OUT first, return to idle and do
nothing else: no packet is read (the spec's decisions D49, D51). What an event says of the shadow `hab` is the model's
(log 10). -/
def Obligations.OutOfSequenceEventsStallEndpointZero : Prop :=
  ∀ (s : State) (i : Instr) (h : Hab),
    (i, h) ∈ [(.ep0IdleEprx, { s.hab with rx_waiting := true }), (.ep0TxdataEprx, { s.hab with rx_waiting := true }),
      (.ep0ZtxdataEprx, { s.hab with rx_waiting := true }), (.ep0LastdataEprx, { s.hab with rx_waiting := true }),
      (.ep0StatusinEprx, { s.hab with rx_waiting := true }), (.ep0IdleEptx, { s.hab with tx_pending := none }),
      (.ep0RxdataEptx, { s.hab with tx_pending := none }),
      (Instr.ep0StatusoutEptx, { s.hab with tx_pending := none })] →
    exec i s = .next { s with
      trace := s.trace ++ [.epSetStall 0x00 true, .epSetStall 0x80 true]
      hab := (h.setStall 0x00 true).setStall 0x80 true
      control_state := .idle
      cause := some .outOfSequence }

/-! ### The Setup stage -/

/-- R97, R98, R99: a Setup event forgets the old transfer, reads 8 bytes into the control buffer, stalls unless exactly 8
came, and otherwise goes on as the row of the packet's class. What is forgotten, and that a result other than 8 stalls, are
the spec's decisions D21, D22; what the event says of the shadow `hab` is the model's (log 10). -/
def Obligations.ASetupEventReadsAndDecodesItsPacket : Prop :=
  ∀ (s : State) (i : Instr), i ∈ setupRows → s.mem.wf → s.data_buf + 8 ≤ 2 ^ s.params.ptrW →
    (s.answers.rx.result.toInt ≠ 8 → exec i s = .next (stalledState .badSetup (setupRead s))) ∧
    (s.answers.rx.result.toInt = 8 → ∀ j,
      decodeSetupBytes (firstBytes s.answers.rx.bytes 8) = .ok j → exec i s = exec j (setupRead s))

/-- R97 to R108: on every Setup event of endpoint 0 whose packet is read whole, in every control state, with every
request and every answer of the callbacks whose response lies in memory, the step completes, with the packet in the
buffer and the trace begun by the read; it never labels a bad Setup. -/
def Obligations.SetupEventsComplete : Prop :=
  ∀ (s : State) (ep : Byte) (i : Instr), i ∈ Instr.evtEpsetup ep :: setupRows → ep.extractLsb' 0 3 = 0 →
    s.mem.wf → s.data_buf + 8 + s.data_maxsize.toNat ≤ 2 ^ s.params.ptrW →
    s.answers.rx.result = 8 →
    Response.fits s.params s.ctlResponse → Response.fits s.params s.dscResponse →
    ∃ t l, exec i s = .next t ∧
      t.trace = s.trace ++ .epRead ep0Out s.data_buf 8 8 :: l ∧
      t.mem.readBytes s.data_buf 8 = firstBytes s.answers.rx.bytes 8 ∧
      (s.cause = none → t.cause ≠ some .badSetup)

/-- R100, R101, R102: a request without data stage: the control callback decides it; on ack one zero-length packet is
queued, on nak nothing is done, on fail, or without a control callback, the built-in handler runs the row it decodes (the
spec's decisions D23, D25, D30). That `resp` keeps the response is the model's (log 13). -/
def Obligations.RequestsWithoutDataStage : Prop :=
  ∀ (s : State) (r : Request),
    (∀ cb, s.ctl_cb = some cb →
      (s.answers.ctl.res = 1 → exec (.setupNodata r) s =
        .next (statusQueued { ctlCallback cb r [] (cursorSet r s) with resp := s.ctlResponse })) ∧
      (s.answers.ctl.res = 2 → exec (.setupNodata r) s = .next (ctlCallback cb r [] (cursorSet r s))) ∧
      (s.answers.ctl.res ≠ 1 → s.answers.ctl.res ≠ 2 → ∀ i, decode (.std r.packet) = .ok i →
        exec (.setupNodata r) s = exec i (ctlCallback cb r [] (cursorSet r s)))) ∧
    (s.ctl_cb = none → ∀ i, decode (.std r.packet) = .ok i →
      exec (.setupNodata r) s = exec i (cursorSet r s))

/-- R104, R105, R106, R100: a request with an IN data stage: on ack the first chunk of the clamped response is handed over
in the same step, on nak nothing is done, on fail, or without a control callback, the built-in handler runs the row it
decodes (the spec's decisions D23, D25, D26, D27). -/
def Obligations.RequestsWithAnInDataStage : Prop :=
  ∀ (s : State) (r : Request),
    (∀ cb, s.ctl_cb = some cb →
      (s.answers.ctl.res = 1 → firstChunkFits r.wLength s.ctlResponse s → exec (.setupIn r) s =
        .next (firstChunkSent r.wLength s.ctlResponse (ctlCallback cb r [] (cursorSet r s)))) ∧
      (s.answers.ctl.res = 2 → exec (.setupIn r) s = .next (ctlCallback cb r [] (cursorSet r s))) ∧
      (s.answers.ctl.res ≠ 1 → s.answers.ctl.res ≠ 2 → ∀ i, decode (.std r.packet) = .ok i →
        exec (.setupIn r) s = exec i (ctlCallback cb r [] (cursorSet r s)))) ∧
    (s.ctl_cb = none → ∀ i, decode (.std r.packet) = .ok i →
      exec (.setupIn r) s = exec i (cursorSet r s))

/-- R107, R108, R99, R152: a request with an OUT data stage stalls at once when its payload would not fit, and otherwise
waits for its payload; nothing is called but the stall. In both cases the cursor is set first (R99); that the stall is of
both directions, OUT first, is the spec's decision D49. -/
def Obligations.RequestsWithAnOutDataStage : Prop :=
  ∀ (s : State) (r : Request),
    (s.data_maxsize.toNat < r.wLength.toNat →
      exec (.setupOut r) s = .next (stalledState .overflow (cursorSet r s))) ∧
    (r.wLength.toNat ≤ s.data_maxsize.toNat →
      exec (.setupOut r) s = .next { s with
        data_ptr := s.data_buf + 8, data_count := r.wLength, control_state := .rxdata })

/-- R58, R100, R13: what an invocation of the control callback does: it is called with the request and the payload, may
fill the completion slot, may rewrite bytes of the payload area, and changes nothing else (the spec's decision D15;
log 20). -/
def Obligations.TheControlCallbackReachesOnlyThePayloadArea : Prop :=
  ∀ (cb : Nat) (r : Request) (payload : List Byte) (s : State), s.mem.wf →
    ctlCallback cb r payload s = { s with
      trace := s.trace ++ [.ctlCb cb r payload s.answers.ctl.res]
      complete_cb := if s.answers.ctl.ccb = none then s.complete_cb else s.answers.ctl.ccb
      mem := (ctlCallback cb r payload s).mem } ∧
    (ctlCallback cb r payload s).mem.wf ∧
    ∀ a, (a < s.data_buf + 8 ∨ s.data_buf + 8 + s.data_maxsize.toNat ≤ a) →
      (ctlCallback cb r payload s).mem.read a = s.mem.read a

/-! ### The OUT data stage -/

/-- R110, R111: a data read that fails or returns more than was asked stalls; no callback is invoked (the spec's decisions
D35, D36). -/
def Obligations.ABadDataReadStalls : Prop :=
  ∀ (s : State), s.data_ptr + min s.data_count.toNat s.ep0size.toNat ≤ 2 ^ s.params.ptrW →
    s.answers.rx.result.toInt < 0 ∨
      (min s.data_count.toNat s.ep0size.toNat : Int) < s.answers.rx.result.toInt →
    exec .ep0RxdataEprx s = .next (stalledState .badDataOut
      (packetRead s.data_ptr (min s.data_count.toNat s.ep0size.toNat) s))

/-- R110, R112: `n` bytes accepted while more are to come: they are stored at the cursor, the cursor advances, the count
falls, the control state stays (the spec's decisions D35, D36; which bytes a read delivers is log 7). -/
def Obligations.AnOutPacketIsAccumulated : Prop :=
  ∀ (s : State) (n : Nat), s.mem.wf →
    s.data_ptr + min s.data_count.toNat s.ep0size.toNat ≤ 2 ^ s.params.ptrW →
    s.answers.rx.result.toInt = n → n ≤ min s.data_count.toNat s.ep0size.toNat → n ≠ s.data_count.toNat →
    exec .ep0RxdataEprx s = .next
      { packetRead s.data_ptr (min s.data_count.toNat s.ep0size.toNat) s with
        data_ptr := s.data_ptr + n, data_count := BitVec.ofNat 16 (s.data_count.toNat - n) } ∧
    ∀ t, exec .ep0RxdataEprx s = .next t →
      t.mem.readBytes s.data_ptr n = firstBytes s.answers.rx.bytes n ∧
      ∀ a, a < s.data_ptr ∨ s.data_ptr + n ≤ a → t.mem.read a = s.mem.read a

/-- R112 to R116: the last bytes of a payload: the control callback decides, the built-in handler is not tried: ack queues
the status packet, nak changes nothing, anything else, or no control callback, stalls (the spec's decisions D23, D25, D37). -/
def Obligations.ACompletePayloadIsDecidedByTheControlCallback : Prop :=
  ∀ (s t : State), s.data_ptr + min s.data_count.toNat s.ep0size.toNat ≤ 2 ^ s.params.ptrW →
    s.answers.rx.result.toInt = s.data_count.toNat → s.data_count.toNat ≤ s.ep0size.toNat →
    t = { packetRead s.data_ptr s.data_count.toNat s with
      data_ptr := s.data_ptr + s.data_count.toNat, data_count := 0 } →
    s.data_buf + 8 + max 1 t.header.wLength.toNat ≤ 2 ^ s.params.ptrW →
    (s.ctl_cb = none → exec .ep0RxdataEprx s = .next (stalledState .requestFailed t)) ∧
    ∀ cb, s.ctl_cb = some cb →
      let u := ctlCallback cb t.header (t.mem.readBytes (s.data_buf + 8) t.header.wLength.toNat) t
      (s.answers.ctl.res = 1 → exec .ep0RxdataEprx s = .next (statusQueued u)) ∧
      (s.answers.ctl.res = 2 → exec .ep0RxdataEprx s = .next u) ∧
      (s.answers.ctl.res ≠ 1 → s.answers.ctl.res ≠ 2 →
        exec .ep0RxdataEprx s = .next (stalledState .requestFailed u))

/-- R107, R110, R58: in a state of the invariant no byte outside the payload area changes in the OUT data stage. -/
def Obligations.TheOutDataStageNeverOverflowsTheBuffer : Prop :=
  ∀ s t : State, Inv s → s.control_state = .rxdata → exec .ep0RxdataEprx s = .next t →
    ∀ a, (a < s.data_buf + 8 ∨ s.data_buf + 8 + s.data_maxsize.toNat ≤ a) → t.mem.read a = s.mem.read a

/-! ### The IN data stage -/

/-- R118, R119: a transmit completion in `txdata` hands over the next chunk and chooses the next control state (the spec's
decisions D27, D28). -/
def Obligations.ATransmitCompletionSendsTheNextChunk : Prop :=
  ∀ (s : State) (c : Nat), c = min s.data_count.toNat s.ep0size.toNat →
    c = 0 ∨ s.data_ptr + c ≤ 2 ^ s.params.ptrW →
    exec .ep0TxdataEptx s = .next { s with
      trace := s.trace ++ [.epWrite ep0In s.data_ptr c (s.mem.readBytes s.data_ptr c)]
      hab := { s.hab with tx_pending := some (s.mem.readBytes s.data_ptr c) }
      data_ptr := s.data_ptr + c
      data_count := BitVec.ofNat 16 (s.data_count.toNat - c)
      control_state :=
        if s.data_count.toNat ≠ c then .txdata
        else if c = s.ep0size.toNat ∧ s.tx_short = true then .ztxdata
        else .lastdata }

/-- R120, R121, R109: the zero-length data packet, and the end of the IN data stage in the direction STATUS_AFTER_IN
gives (the spec's decisions D29, D30, D31). What an event says of the shadow `hab` is the model's (log 10). -/
def Obligations.TheEndOfTheInDataStage : Prop :=
  ∀ s : State,
    exec .ep0ZtxdataEptx s = .next { s with
      trace := s.trace ++ [.epWrite ep0In s.data_ptr 0 []]
      hab := { s.hab with tx_pending := some [] }
      control_state := .lastdata } ∧
    (s.params.statusAfterIn = .statusin → exec .ep0LastdataEptx s = .next { s with
      trace := s.trace ++ [.epWrite ep0In s.data_ptr 0 []]
      hab := { s.hab with tx_pending := some [] }
      control_state := .statusin }) ∧
    (s.params.statusAfterIn = .statusout → exec .ep0LastdataEptx s = .next { s with
      hab := { s.hab with tx_pending := none }, control_state := .statusout })

/-- R123, R78, R122: from the first chunk on, as many transmit completions as there are further packets hand over exactly
the first `min(wLength, rlen)` bytes of the response, in `ceil(n / ep0size)` packets and at least one; one more,
zero-length, is owed exactly when the response fills its last packet and is shorter than the host asked for (the spec's
decisions D26 to D29). Memory does not change between the steps, which R178 leaves to the environment. -/
def Obligations.AnInDataStageDeliversTheClampedResponse : Prop :=
  ∀ (s : State) (p : Response) (wLength : BitVec 16) (n e : Nat),
    n = min wLength.toNat p.len.toNat → e = s.ep0size.toNat → 1 ≤ e → wLength ≠ 0 →
    p.ptr + n ≤ 2 ^ s.params.ptrW → s.trace = [] →
    ∃ t, dataInSteps (max 1 ((n + e - 1) / e) - 1) (firstChunkSent wLength p s) = .next t ∧
      sentBytes t.trace = s.mem.readBytes p.ptr n ∧
      t.trace.length = max 1 ((n + e - 1) / e) ∧
      t.data_ptr = p.ptr + n ∧ t.data_count = 0 ∧
      ((0 < n ∧ n % e = 0 ∧ p.len.toNat < wLength.toNat) →
        t.control_state = .ztxdata ∧
        exec .ep0ZtxdataEptx t = .next { t with
          trace := t.trace ++ [.epWrite ep0In t.data_ptr 0 []]
          hab := { t.hab with tx_pending := some [] }
          control_state := .lastdata }) ∧
      (¬ (0 < n ∧ n % e = 0 ∧ p.len.toNat < wLength.toNat) → t.control_state = .lastdata)

/-! ### The STATUS stage -/

/-- R125, R127, R128, R129: the end of a transfer on EP0 IN: the pending address, the completion callback, `idle` (the
order is the spec's decision D33, address 0 D34). What the event says of the shadow `hab` is the model's (log 10). -/
def Obligations.TheStatusInStageCompletesTheTransfer : Prop :=
  ∀ s : State, s.complete_cb = none ∨ s.data_buf + 8 ≤ 2 ^ s.params.ptrW →
    exec .ep0StatusinEptx s = .next (completedState { s with hab := { s.hab with tx_pending := none } })

/-- R126, R127: the end of a transfer on EP0 OUT: the empty packet is consumed and the transfer completes; a result other
than 0 stalls instead. That the status packet is read, and the order address, callback, `idle`, are the spec's decisions
(D32, D33). -/
def Obligations.TheStatusOutStageCompletesOrStalls : Prop :=
  ∀ s : State,
    (s.answers.rx.result.toInt = 0 → s.complete_cb = none ∨ s.data_buf + 8 ≤ 2 ^ s.params.ptrW →
      exec .ep0StatusoutEprx s = .next (completedState { s with
        trace := s.trace ++ [.epRead ep0Out s.data_ptr 0 0]
        hab := { s.hab with rx_waiting := false } })) ∧
    (s.answers.rx.result.toInt ≠ 0 →
      exec .ep0StatusoutEprx s = .next (stalledState .badStatusOut { s with
        trace := s.trace ++ [.epRead ep0Out s.data_ptr 0 s.answers.rx.result]
        hab := { s.hab with rx_waiting := false } }))

/-! ### The built-in handler -/

/-- R132, R140, R76: requests the built-in handler does not recognise, by their type, their code or a recipient from 4 to
31, fail, and the engine stalls; no state is written besides the stall's and nothing else is called. Which codes these are
is the spec's decision D5 (log 19); that the row ends the step is log 17; that the recipient is checked is log 23. -/
def Obligations.UnrecognisedRequestsStall : Prop :=
  ∀ (s : State) (r : Request) (i : Instr),
    i ∈ [.stdReserved2 r, .stdReserved4 r, .stdSetDescriptor r, .stdGetInterface r, .stdSetInterface r,
      .stdSynchFrame r, .stdOther r, .nonstdClass r, .nonstdVendor r, Instr.nonstdTypeReserved r] ∨
    4 ≤ r.recipient.toNat ∧
      i ∈ [.stdGetStatus r, .stdClearFeature r, .stdSetFeature r, .stdSetAddress r, .stdGetDescriptor r,
        .stdGetConfiguration r, Instr.stdSetConfiguration r] →
    exec i s = .next (stalledState .requestFailed s)

/-- R133, R141: GET_STATUS builds its two bytes in the payload area and acks them. The table of GET_STATUS_WORD overrides
the default, without a call of `ep_is_stalled` (log 24); the default, and where the answer is built, are the spec's
decisions D38, D39. What follows an ack on a request of the class OUT is log 17; the recipients 4 to 31 are log 23
(`UnrecognisedRequestsStall`). -/
def Obligations.GetStatusAnswersTheStatusWord : Prop :=
  ∀ (s u : State) (r : Request) (w : BitVec 16), r.recipient.toNat < 4 →
    (s.params.getStatusWord.lookup (r.recipient, r.wIndex) = some w ∧ u = s ∨
      s.params.getStatusWord.lookup (r.recipient, r.wIndex) = none ∧
        ((r.recipient = 0 ∨ r.recipient = 1) ∧ w = 0 ∧ u = s ∨
          r.recipient = 2 ∧ w = (if s.answers.stalled then 1 else 0) ∧
            u = s.call (.epIsStalled (r.wIndex.extractLsb' 0 8) s.answers.stalled))) →
    (s.data_maxsize.toNat < 2 → exec (.stdGetStatus r) s = .next (stalledState .requestFailed u)) ∧
    (2 ≤ s.data_maxsize.toNat → s.data_buf + 10 ≤ 2 ^ s.params.ptrW →
      exec (.stdGetStatus r) s = .next (accepted r ⟨s.data_buf + 8, 2⟩
        { u with mem := s.mem.writeBytes (s.data_buf + 8) [w.extractLsb' 0 8, w.extractLsb' 8 8] }))

/-- R133: GET_STATUS for a recipient that is neither device, interface nor endpoint fails under the default of
GET_STATUS_WORD (the spec's decision D38). -/
def Obligations.GetStatusFailsForOtherRecipients : Prop :=
  ∀ (s : State) (r : Request), s.params.getStatusWord.lookup (r.recipient, r.wIndex) = none →
    3 ≤ r.recipient.toNat → exec (.stdGetStatus r) s = .next (stalledState .requestFailed s)

/-- R134, R135: CLEAR_FEATURE and SET_FEATURE act on the halt feature of the endpoint named by `wIndex`, and fail for
anything else; the selectors are the spec's decision D5. The response pointer is a free value (log 12): the statement holds
whatever it is. What follows an ack on a request of the class OUT is log 17. -/
def Obligations.FeatureRequestsSetTheEndpointHalt : Prop :=
  ∀ (s : State) (r : Request) (i : Instr) (b : Bool),
    (i, b) ∈ [(.stdClearFeature r, false), (Instr.stdSetFeature r, true)] →
    (r.recipient = 2 → r.wValue = 0 → ∃ ptr, exec i s = .next (accepted r ⟨ptr, 0⟩
      { s with
        trace := s.trace ++ [.epSetStall (r.wIndex.extractLsb' 0 8) b]
        hab := s.hab.setStall (r.wIndex.extractLsb' 0 8) b
        draws := s.draws + 1 })) ∧
    (¬ (r.recipient = 2 ∧ r.wValue = 0) → exec i s = .next (stalledState .requestFailed s))

/-- R136: SET_ADDRESS stores the address; nothing is applied and the device state is unchanged (where it is stored is the
spec's decision D34). The response pointer is a free value (log 12): the statement holds whatever it is. What follows an
ack on a request of the class OUT is log 17; the recipients 4 to 31 are log 23 (`UnrecognisedRequestsStall`). -/
def Obligations.SetAddressOnlyStoresTheAddress : Prop :=
  ∀ (s : State) (r : Request), r.recipient.toNat < 4 → ∃ ptr, exec (.stdSetAddress r) s = .next (accepted r ⟨ptr, 0⟩
    { s with pend_addr := r.wValue.extractLsb' 0 7, pend_addr_v := true, draws := s.draws + 1 })

/-- R128, R136, R182: within a transfer the stored address reaches the hardware in the step of the status completion, as
that step's first call, and the device state changes there and not before (the spec's decisions D33, D34). The recipients
4 to 31 are log 23 (`UnrecognisedRequestsStall`). -/
def Obligations.TheAddressIsAppliedAfterTheStatusStage : Prop :=
  ∀ (s : State) (r : Request), r.recipient.toNat < 4 → r.wLength = 0 → s.complete_cb = none → s.trace = [] →
    ∃ t u, exec (.stdSetAddress r) s = .next t ∧
      t.control_state = .statusin ∧ t.device_state = s.device_state ∧ t.hab.address = s.hab.address ∧
      t.trace = [.epWrite ep0In s.data_ptr 0 []] ∧
      exec .ep0StatusinEptx { t with trace := [] } = .next u ∧
      u.trace = [.setAddress ((r.wValue.extractLsb' 0 7).setWidth 8)] ∧
      u.hab.address = (r.wValue.extractLsb' 0 7).setWidth 8 ∧
      u.control_state = .idle ∧ u.pend_addr_v = false ∧
      u.device_state = if r.wValue.extractLsb' 0 7 ≠ 0#7 then .addressed else .default

/-- R137: GET_DESCRIPTOR asks the descriptor callback, whose result and response decide; without one it fails (the spec's
decision D23). What follows an ack on a request of the class OUT is log 17; the recipients 4 to 31 are log 23
(`UnrecognisedRequestsStall`). -/
def Obligations.GetDescriptorAsksTheDescriptorCallback : Prop :=
  ∀ (s : State) (r : Request), r.recipient.toNat < 4 →
    (s.dsc_cb = none → exec (.stdGetDescriptor r) s = .next (stalledState .requestFailed s)) ∧
    ∀ cb, s.dsc_cb = some cb →
      let u := { s with trace := s.trace ++ [.dscCb cb r s.answers.dsc.res] }
      (s.answers.dsc.res = 1 → firstChunkFits r.wLength s.dscResponse s →
        exec (.stdGetDescriptor r) s = .next (accepted r s.dscResponse u)) ∧
      (s.answers.dsc.res = 2 → exec (.stdGetDescriptor r) s = .next u) ∧
      (s.answers.dsc.res ≠ 1 → s.answers.dsc.res ≠ 2 →
        exec (.stdGetDescriptor r) s = .next (stalledState .requestFailed u))

/-- R138, R141: GET_CONFIGURATION answers one byte, the current configuration (the spec's decisions D5, D39). What follows
an ack on a request of the class OUT is log 17; the recipients 4 to 31 are log 23 (`UnrecognisedRequestsStall`). -/
def Obligations.GetConfigurationAnswersTheConfiguration : Prop :=
  ∀ (s : State) (r : Request), r.recipient.toNat < 4 →
    (s.data_maxsize = 0 → exec (.stdGetConfiguration r) s = .next (stalledState .requestFailed s)) ∧
    (s.data_maxsize ≠ 0 → s.data_buf + 9 ≤ 2 ^ s.params.ptrW →
      exec (.stdGetConfiguration r) s = .next (accepted r ⟨s.data_buf + 8, 1⟩
        { s with mem := s.mem.write (s.data_buf + 8) s.device_cfg }) ∧
      (s.mem.wf → r.wLength ≠ 0 → r.dir = true → s.ep0size ≠ 0 →
        ∀ t, exec (.stdGetConfiguration r) s = .next t →
          t.trace = s.trace ++ [.epWrite ep0In (s.data_buf + 8) 1 [s.device_cfg]]))

/-- R139: SET_CONFIGURATION asks the configuration callback; on ack the configuration and the device state change in this
step, on any other result, or without a callback, neither does and the request fails (the spec's decision D23). The
response pointer is a free value (log 12): the statement holds whatever it is. What follows an ack on a request of the class
OUT is log 17; the recipients 4 to 31 are log 23 (`UnrecognisedRequestsStall`). -/
def Obligations.SetConfigurationAsksTheConfigurationCallback : Prop :=
  ∀ (s : State) (r : Request) (c : BitVec 8), r.recipient.toNat < 4 → c = r.wValue.extractLsb' 0 8 →
    (s.cfg_cb = none → exec (.stdSetConfiguration r) s = .next (stalledState .requestFailed s)) ∧
    ∀ cb, s.cfg_cb = some cb →
      (s.answers.cfg = 1 → ∃ ptr, exec (.stdSetConfiguration r) s = .next (accepted r ⟨ptr, 0⟩
        { s with
          trace := s.trace ++ [.cfgCb cb c 1]
          device_cfg := c
          device_state := if c ≠ 0 then .configured else .addressed
          draws := s.draws + 1 })) ∧
      (s.answers.cfg ≠ 1 → exec (.stdSetConfiguration r) s = .next (stalledState .requestFailed
        { s with trace := s.trace ++ [.cfgCb cb c s.answers.cfg] }))

/-! ### Result codes -/

/-- R68, R103, R157, R101, R104, R114: the three result codes. That a bare ack takes its stage from the control state and
the buffered request, and its response from `resp`, is the model's choice (log 13). -/
def Obligations.ResultCodesDecideTheTransfer : Prop :=
  ∀ s : State,
    exec .resFail s = .next (stalledState .requestFailed s) ∧
    exec .resNak s = .next s ∧
    (s.control_state = .rxdata → exec .resAck s = .next (statusQueued s)) ∧
    (s.control_state ≠ .rxdata → s.data_buf + 8 ≤ 2 ^ s.params.ptrW →
      (s.header.wLength = 0 ∨ s.header.dir = false → exec .resAck s = .next (statusQueued s)) ∧
      (s.header.wLength ≠ 0 → s.header.dir = true → firstChunkFits s.header.wLength s.resp s →
        exec .resAck s = .next (firstChunkSent s.header.wLength s.resp s)))

/-! ### Invariants and whole-machine rules -/

/-- R89, R90, R91, R97 to R131: in a state of the invariant every event of endpoint 0 completes, whatever its result and
whatever the host and the callbacks answer, as long as the responses lie in memory (R43). -/
def Obligations.EndpointZeroEventsComplete : Prop :=
  ∀ (s : State) (ep : Byte) (i : Instr), ep.extractLsb' 0 3 = 0 →
    i ∈ [.evtEptx ep, .evtEprx ep, Instr.evtEpsetup ep] → Inv s →
    Response.fits s.params s.ctlResponse → Response.fits s.params s.dscResponse →
    (s.control_state = .txdata → Response.fits s.params s.resp) →
    ∃ t, exec i s = .next t

/-- The invariant of R23 holds after power-on (the parameter values are the model's choice, log 1). -/
def Obligations.PowerOnMeetsTheInvariant : Prop := Inv State.reset

/-- R168: the state after power-on. The values of `data_ptr`, `data_count`, `pend_addr` and of memory are the model's choice
(log 2, log 3). -/
def Obligations.PowerOnState : Prop :=
  ∀ p : Params, p.valid = true →
    let s := State.init p
    s.data_buf = p.dataBuf ∧ s.data_maxsize.toNat = p.bufSize - 8 ∧ s.ep0size = p.ep0Size ∧
    s.device_state = .disabled ∧ s.control_state = .idle ∧ s.device_cfg = 0 ∧
    s.ctl_cb = none ∧ s.complete_cb = none ∧ s.cfg_cb = none ∧ s.dsc_cb = none ∧
    (∀ k, s.evtSlot k = none) ∧ s.epSlot 0 = .engine ∧ (∀ n, n ≠ 0 → s.epSlot n = .empty) ∧
    s.pend_addr_v = false ∧ s.tx_short = false ∧ s.trace = [] ∧ Inv s

/-- R23 (I1, I2, I3), R119, R27: every step of the block keeps the invariant. (I3) speaks of the model's field `resp`
(log 13); the list of stalled endpoints is the model's (log 10). -/
def Obligations.EveryStepKeepsTheInvariant : Prop :=
  ∀ s t : State, Inv s → step s = .next t → Inv t

/-- R43, R58, R162: while the environment does what it owes, no step of the block stops, in any control state and any
device state, and the duties still owed stay met. -/
def Obligations.WithADutifulEnvironmentNoStepStops : Prop :=
  ∀ s : State, Inv s → Dutiful s → ∃ t, step s = .next t ∧ Dutiful t

/-- R96, R27: the control states one event of endpoint 0 may lead to, from any control state. -/
def Obligations.ControlStateMovesOnlyAsTheTransferAllows : Prop :=
  ∀ (s t : State) (ep : Byte) (i : Instr) (k : EventKind), ep.extractLsb' 0 3 = 0 →
    (i, k) ∈ [(.evtReset ep, .reset), (.evtSof ep, .sof), (.evtSuspend ep, .suspend), (.evtWakeup ep, .wakeup),
      (.evtEptx ep, .eptx), (.evtEprx ep, .eprx), (.evtEpsetup ep, .epsetup), (.evtError ep, .error),
      (Instr.evtEsof ep, EventKind.esof)] →
    exec i s = .next t → controlStep s.params.statusAfterIn k s.control_state t.control_state = true

/-- R161, R25: what may change `device_state`, and to what. -/
def Obligations.DeviceStateMovesOnlyForItsTriggers : Prop :=
  ∀ (s t : State) (i : Instr), exec i s = .next t →
    t.device_state = s.device_state ∨
    (i = .cmdEnable ∧ t.device_state = .disconnected) ∨
    (i = .cmdDisable ∧ t.device_state = .disabled) ∨
    (i = .cmdReset ∧ t.device_state = .default) ∨
    (∃ ep, i = .evtReset ep ∧ t.device_state = .default) ∨
    (s.pend_addr_v = true ∧ t.device_state = (if s.pend_addr ≠ 0 then .addressed else .default) ∧
      ∃ l, t.trace = s.trace ++ l ∧ .setAddress (s.pend_addr.setWidth 8) ∈ l) ∨
    (∃ cb c l, s.cfg_cb = some cb ∧ t.trace = s.trace ++ l ∧ .cfgCb cb c 1 ∈ l ∧ t.device_cfg = c ∧
      t.device_state = if c ≠ 0 then .configured else .addressed)

/-- R162, R25: no rule reads `device_state`: in another device state every instruction stops alike or leads to a state that
differs in `device_state` at most, and there only where the instruction leaves the field as it was: what it writes does not
depend on the device state either. None is ever refused. -/
def Obligations.DeviceStateGatesNothing : Prop :=
  ∀ (s : State) (d : DeviceState) (i : Instr),
    (∀ t, exec i s = .next t → ∃ e, exec i { s with device_state := d } = .next { t with device_state := e } ∧
      (e = t.device_state ∨ t.device_state = s.device_state ∧ e = d)) ∧
    (∀ f, exec i s = .fault f → exec i { s with device_state := d } = .fault f) ∧
    (∀ f, exec i s ≠ .refused f)

/-- R97, R180: a Setup that is read whole leads to a state determined by that Setup alone: nothing of the transfer in
flight shows in it. That the completion slot, the pending address and `tx_short` are forgotten with it is the spec's
decision D21. -/
def Obligations.ASetupForgetsTheTransferInFlight : Prop :=
  ∀ (s : State) (ep : Byte) (c : ControlState) (ptr : Nat) (n : BitVec 16) (cb : Option Nat) (v short : Bool),
    ep.extractLsb' 0 3 = 0 → s.answers.rx.result.toInt = 8 →
    exec (.evtEpsetup ep) { s with
      control_state := c, data_ptr := ptr, data_count := n, complete_cb := cb, pend_addr_v := v, tx_short := short } =
    exec (.evtEpsetup ep) s

/-- R14, R164, R177, R129: the calls of one step: they are added at the end of the trace; the HAB operations the block has
no use for are never among them; each kind of call whose answer the environment gives, `ep_write`, `set_address` and
the completion callback occur at most once. -/
def Obligations.AStepCallsEachOperationAtMostOnce : Prop :=
  ∀ (s t : State) (i : Instr), exec i s = .next t →
    ∃ l, t.trace = s.trace ++ l ∧ (∀ c ∈ l, c.unused = false) ∧
      ∀ k, k ≠ 0 → (l.filter fun c => decide (c.kind = k)).length ≤ 1

/-- R134, R155: the block calls `ep_set_stall(ep, false)` only where a CLEAR_FEATURE of the halt feature names that endpoint:
it never clears a stall of its own (R155: that is the HAB's doing on a Setup; in the shadow `hab`, log 10). -/
def Obligations.EpSetStallFalseIsCalledOnlyForClearFeature : Prop :=
  ∀ (s t : State) (i : Instr) (l : List Call) (ep : Byte), s.mem.wf → exec i s = .next t →
    t.trace = s.trace ++ l → .epSetStall ep false ∈ l →
    ∃ r : Request, r.recipient = 2 ∧ r.wValue = 0 ∧ r.wIndex.extractLsb' 0 8 = ep ∧
      (i = .stdClearFeature r ∨ r.typ = 0 ∧ r.bRequest = 1 ∧ (i = .setupNodata r ∨ i = .setupIn r ∨
        (i ∈ setupRows ∨ ∃ e, i = .evtEpsetup e) ∧ t.header = r))

/-- R182, R127, R128: the hardware address is set only at the end of a status stage, to the pending address; before it,
nothing is called in that step but the read of an OUT status packet. -/
def Obligations.SetAddressIsCalledOnlyAtTheStatusCompletion : Prop :=
  ∀ (s t : State) (i : Instr) (l : List Call) (a : BitVec 8), exec i s = .next t →
    t.trace = s.trace ++ l → .setAddress a ∈ l →
    s.pend_addr_v = true ∧ a = s.pend_addr.setWidth 8 ∧ t.pend_addr_v = false ∧ t.control_state = .idle ∧
    ((∃ l', l = .setAddress a :: l') ∧
      (i = .ep0StatusinEptx ∨ s.control_state = .statusin ∧ ∃ ep, i = .evtEptx ep) ∨
     (∃ l', l = .epRead ep0Out s.data_ptr 0 0 :: .setAddress a :: l') ∧
      (i = .ep0StatusoutEprx ∨ s.control_state = .statusout ∧ ∃ ep, i = .evtEprx ep))

/-- R129, R97: the completion callback is invoked only from its slot, which is empty afterwards, and only where a status
stage ends. -/
def Obligations.TheCompletionCallbackIsOneShot : Prop :=
  ∀ (s t : State) (i : Instr) (l : List Call) (cb : Nat) (q : Request), exec i s = .next t →
    t.trace = s.trace ++ l → .completeCb cb q ∈ l →
    s.complete_cb = some cb ∧ t.complete_cb = none ∧ t.control_state = .idle ∧ q = s.header ∧
    (i = .ep0StatusinEptx ∨ i = .ep0StatusoutEprx ∨
      s.control_state = .statusin ∧ (∃ ep, i = .evtEptx ep) ∨
      s.control_state = .statusout ∧ ∃ ep, i = .evtEprx ep)

/-- R177: a packet is handed over only to EP0 IN, and only by a Setup, on a transmit completion of the IN data stage, or for
a completed OUT payload; afterwards the control state is one that awaits its completion. -/
def Obligations.PacketsAreHandedOverOnlyInTurn : Prop :=
  ∀ (s t : State) (i : Instr) (l : List Call) (ep : Byte) (buf len : Nat) (bs : List Byte),
    (∃ w, decode (.evt w) = .ok i) ∨ (∃ w, decode (.cmd w) = .ok i) → exec i s = .next t →
    t.trace = s.trace ++ l → .epWrite ep buf len bs ∈ l →
    ep = ep0In ∧
    (t.control_state = .txdata ∨ t.control_state = .ztxdata ∨ t.control_state = .lastdata ∨
      t.control_state = .statusin) ∧
    ((∃ e, i = .evtEpsetup e ∧ e.extractLsb' 0 3 = 0) ∨
      (∃ e, i = .evtEptx e ∧ e.extractLsb' 0 3 = 0 ∧
        (s.control_state = .txdata ∨ s.control_state = .ztxdata ∨ s.control_state = .lastdata)) ∨
      (∃ e, i = .evtEprx e ∧ e.extractLsb' 0 3 = 0 ∧ s.control_state = .rxdata ∧ t.control_state = .statusin))

/-- R169, R171, R28, R30 to R34, R39: the fields no instruction writes. That no callback slot but `complete_cb` changes in a
step is the model's choice for a callback that would register another (log 14); `inputs` and `answers` are the model's
fields (log 8, log 6). -/
def Obligations.NoInstructionChangesParametersOrSlots : Prop :=
  ∀ (s t : State) (i : Instr), exec i s = .next t →
    t.params = s.params ∧ t.data_buf = s.data_buf ∧ t.data_maxsize = s.data_maxsize ∧ t.ep0size = s.ep0size ∧
    t.ctl_cb = s.ctl_cb ∧ t.cfg_cb = s.cfg_cb ∧ t.dsc_cb = s.dsc_cb ∧ t.evt_cb = s.evt_cb ∧ t.ep_cb = s.ep_cb ∧
    t.inputs = s.inputs ∧ t.answers = s.answers

/-- R42, R45, R58, R141: the frame of memory. A form that reads no packet, does not ask the control callback and builds no
answer leaves all of memory. Outside the payload area a byte changes only where a packet is read: the 8 bytes of the header
in the forms that read a Setup packet, and the bytes asked for at the cursor in those that read a data packet. -/
def Obligations.MemoryFrameOfEveryInstruction : Prop :=
  ∀ (s t : State) (i : Instr), s.mem.wf → exec i s = .next t →
    t.mem.wf ∧
    (¬ mayStore s i → t.mem = s.mem) ∧
    ∀ a, (a < s.data_buf + 8 ∨ s.data_buf + 8 + s.data_maxsize.toNat ≤ a) →
      (readsSetup i → a < s.data_buf ∨ s.data_buf + 8 ≤ a) →
      (readsData s i → a < s.data_ptr ∨ s.data_ptr + min s.data_count.toNat s.ep0size.toNat ≤ a) →
      t.mem.read a = s.mem.read a

/-- R97 to R142: the frame of the Setup stage and of the built-in handler. The configuration and the device state change
only where a SET_CONFIGURATION asked the configuration callback in this step and was acked, and to what was asked; the
pending address changes only in a SET_ADDRESS, to its address, and its flag only there or where a Setup forgets it; of the
environment's state the address, the power and the pull-up are unchanged. The registers no instruction writes are in
`NoInstructionChangesParametersOrSlots`, memory in `MemoryFrameOfEveryInstruction`. The pending flag's clearing is the
spec's decision D21. -/
def Obligations.FrameOfTheSetupStage : Prop :=
  ∀ (s t : State) (r : Request) (i : Instr), s.mem.wf →
    (i ∈ [.setupNodata r, .setupIn r, .setupOut r, .stdGetStatus r, .stdClearFeature r, .stdReserved2 r, .stdSetFeature r,
      .stdReserved4 r, .stdSetAddress r, .stdGetDescriptor r, .stdSetDescriptor r, .stdGetConfiguration r,
      .stdSetConfiguration r, .stdGetInterface r, .stdSetInterface r, .stdSynchFrame r, .stdOther r, .nonstdClass r,
      .nonstdVendor r, Instr.nonstdTypeReserved r] ∨ readsSetup i) →
    exec i s = .next t →
    (t.device_cfg = s.device_cfg ∧ t.device_state = s.device_state ∨
      ∃ cb q l, s.cfg_cb = some cb ∧ t.trace = s.trace ++ l ∧ .cfgCb cb t.device_cfg 1 ∈ l ∧
        t.device_cfg = q.wValue.extractLsb' 0 8 ∧
        t.device_state = (if t.device_cfg ≠ 0 then .configured else .addressed) ∧
        fromRequest (.stdSetConfiguration q) 9 q i t) ∧
    (t.pend_addr = s.pend_addr ∧ t.pend_addr_v = s.pend_addr_v ∨
      t.pend_addr = s.pend_addr ∧ t.pend_addr_v = false ∧ readsSetup i ∨
      t.pend_addr_v = true ∧ ∃ q, t.pend_addr = q.wValue.extractLsb' 0 7 ∧ fromRequest (.stdSetAddress q) 5 q i t) ∧
    t.hab.address = s.hab.address ∧ t.hab.powered = s.hab.powered ∧ t.hab.pullup = s.hab.pullup
end

