-- ==== Sys2Proof/Laws/Decode.lean ====
section
/-! SUPPORT. The packet of R60 and its fields determine each other. -/

namespace Sys2Proof

/-- R60: no field of a packet is dropped. -/
theorem ofPacket_packet (r : Request) : Request.ofPacket r.packet = r := by
  obtain ⟨dir, typ, recipient, bRequest, wValue, wIndex, wLength⟩ := r
  unfold Request.ofPacket Request.packet
  simp only [Request.mk.injEq]
  refine ⟨?_, ?_, ?_, ?_, ?_, ?_, ?_⟩
  · cases dir <;> simp only [BitVec.getLsbD_append] <;> rfl
  all_goals
    apply BitVec.eq_of_getLsbD_eq
    intro i hi
    simp only [BitVec.getLsbD_extractLsb', BitVec.getLsbD_append, hi, decide_true, Bool.true_and]
    interval_cases i <;> simp

/-- R60: no bit of a packet is dropped. -/
theorem packet_ofPacket (p : BitVec 64) : (Request.ofPacket p).packet = p := by
  apply BitVec.eq_of_getLsbD_eq
  intro i hi
  simp only [Request.packet, Request.ofPacket, BitVec.getLsbD_append, BitVec.getLsbD_extractLsb', BitVec.getLsbD_ofBool]
  interval_cases i <;> simp

/-- R60: the bytes of a packet, in wire order, make it up again. -/
theorem packetOfBytes_bytesOfPacket (p : BitVec 64) : packetOfBytes (bytesOfPacket p) = p := by
  apply BitVec.eq_of_getLsbD_eq
  intro i hi
  simp only [packetOfBytes, bytesOfPacket, List.getD_cons_zero, List.getD_cons_succ, BitVec.getLsbD_append,
    BitVec.getLsbD_extractLsb']
  interval_cases i <;> simp

theorem extract_high {n m : Nat} (a : BitVec n) (b : BitVec m) : (a ++ b).extractLsb' m n = a := by
  apply BitVec.eq_of_getLsbD_eq
  intro i hi
  simp only [BitVec.getLsbD_extractLsb', BitVec.getLsbD_append, hi, decide_true, Bool.true_and]
  rw [if_neg (by omega)]
  congr 1
  omega

theorem extract_low {n m : Nat} (a : BitVec n) (b : BitVec m) : (a ++ b).extractLsb' 0 m = b := by
  apply BitVec.eq_of_getLsbD_eq
  intro i hi
  simp only [BitVec.getLsbD_extractLsb', BitVec.getLsbD_append, hi, decide_true, Bool.true_and, Nat.zero_add]
  rw [if_pos trivial]

/-- R64: the kind of a token. -/
theorem evt_kind (k ep : BitVec 8) : (k ++ ep : BitVec 16).extractLsb' 8 8 = k := extract_high k ep

/-- R64: the endpoint address of a token. -/
theorem evt_ep (k ep : BitVec 8) : (k ++ ep : BitVec 16).extractLsb' 0 8 = ep := extract_low k ep

/-- R82: the control state of a key. -/
theorem key_state (c : BitVec 3) (k : BitVec 8) : (c ++ k : BitVec 11).extractLsb' 8 3 = c := extract_high c k

/-- R82: the kind of a key. -/
theorem key_kind (c : BitVec 3) (k : BitVec 8) : (c ++ k : BitVec 11).extractLsb' 0 8 = k := extract_low c k

/-- R26: the code of a control state stands for it. -/
theorem ofCode_code (c : ControlState) : ControlState.ofCode c.code = c := by cases c <;> rfl

end Sys2Proof
end

