-- ==== Sys2Proof/Laws/Memory.lean ====
section
/-! SUPPORT. The laws of memory: every operation keeps the canonical form; a byte written reads back; every other byte
reads as before. -/

namespace Sys2Proof.Machine

/-! ### The canonical form -/

/-- A canonical memory without its first entry is canonical, and every address left is higher. -/
theorem Memory.wf_cons {c : Host.Cell} {m : Memory} (h : Memory.wf (c :: m)) :
    (∀ d ∈ m, c.1 < d.1) ∧ c.2 ≠ Memory.unlisted ∧ Memory.wf m := by
  obtain ⟨hp, hv⟩ := h
  rw [List.pairwise_cons] at hp
  exact ⟨hp.1, hv c (by simp), hp.2, fun d hd => hv d (by simp [hd])⟩

/-- An entry in front of higher addresses keeps the canonical form. -/
theorem Memory.wf_entry {a : Nat} {v : Byte} {m : Memory} (hm : Memory.wf m) (ha : ∀ d ∈ m, a < d.1) :
    Memory.wf (Memory.entry a v m) := by
  unfold Memory.entry
  split
  · exact hm
  · exact ⟨List.pairwise_cons.2 ⟨ha, hm.1⟩, by simpa using ⟨‹_›, fun x y h => hm.2 _ h⟩⟩

/-- The addresses of an entry in front of a list. -/
theorem Memory.mem_entry {a : Nat} {v : Byte} {m : Memory} {d : Host.Cell} (h : d ∈ Memory.entry a v m) :
    d.1 = a ∨ d ∈ m := by
  unfold Memory.entry at h
  split at h
  · exact .inr h
  · rcases List.mem_cons.1 h with rfl | h
    · exact .inl rfl
    · exact .inr h

/-- A write adds no address but its own. -/
theorem Memory.mem_write {m : Memory} {a : Nat} {v : Byte} {d : Host.Cell} (h : d ∈ m.write a v) :
    d.1 = a ∨ d ∈ m := by
  induction m with
  | nil => simpa [Memory.write] using Memory.mem_entry h
  | cons c m ih =>
    unfold Memory.write at h
    split at h
    · exact Memory.mem_entry h
    · split at h
      · rcases Memory.mem_entry h with h | h
        · exact .inl h
        · exact .inr (List.mem_cons_of_mem _ h)
      · rcases List.mem_cons.1 h with rfl | h
        · exact .inr (by simp)
        · rcases ih h with h | h
          · exact .inl h
          · exact .inr (List.mem_cons_of_mem _ h)

/-- A write keeps the canonical form. -/
theorem Memory.wf_write {m : Memory} (a : Nat) (v : Byte) (hm : Memory.wf m) : Memory.wf (m.write a v) := by
  induction m with
  | nil => exact Memory.wf_entry hm (by simp)
  | cons c m ih =>
    obtain ⟨hlt, hne, hm'⟩ := Memory.wf_cons hm
    unfold Memory.write
    split
    · rename_i h
      refine Memory.wf_entry hm fun d hd => ?_
      rcases List.mem_cons.1 hd with rfl | hd
      · exact h
      · exact h.trans (hlt d hd)
    · split
      · rename_i h
        exact Memory.wf_entry hm' (by rw [h]; exact hlt)
      · rename_i h₁ h₂
        refine ⟨List.pairwise_cons.2 ⟨fun d hd => ?_, (ih hm').1⟩, fun d hd => ?_⟩
        · rcases Memory.mem_write hd with h | h
          · omega
          · exact hlt d h
        · rcases List.mem_cons.1 hd with rfl | hd
          · exact hne
          · exact (ih hm').2 d hd

/-- Writing a run of bytes keeps the canonical form. -/
theorem Memory.wf_writeBytes {m : Memory} (a : Nat) (bs : List Byte) (hm : Memory.wf m) :
    Memory.wf (m.writeBytes a bs) := by
  induction bs generalizing m a with
  | nil => exact hm
  | cons b bs ih => exact ih (a + 1) (Memory.wf_write a b hm)

/-- Writing bytes at offsets keeps the canonical form. -/
theorem Memory.wf_writeAt {m : Memory} (base : Nat) (ws : List (Nat × Byte)) (hm : Memory.wf m) :
    Memory.wf (m.writeAt base ws) := by
  induction ws generalizing m with
  | nil => exact hm
  | cons w ws ih => exact ih (Memory.wf_write _ _ hm)

/-- The memory after power-on has the canonical form. -/
theorem Memory.wf_reset : State.reset.mem.wf := by
  constructor <;> simp [State.reset, State.init]

/-! ### Reading what was written -/

/-- An address below every listed one reads as unlisted. -/
theorem Memory.read_below {m : Memory} {a : Nat} (h : ∀ d ∈ m, a < d.1) : m.read a = Memory.unlisted := by
  cases m with
  | nil => rfl
  | cons c m =>
    have := h c (by simp)
    unfold Memory.read
    rw [if_neg (by omega), if_pos this]

/-- Reading past an entry: its own address gives its byte, a higher one is looked up behind it. -/
theorem Memory.read_entry {a b : Nat} {v : Byte} {m : Memory} (h : ∀ d ∈ m, a < d.1) :
    (Memory.entry a v m).read b = if b = a then v else m.read b := by
  unfold Memory.entry
  split
  · rename_i hv
    split
    · rename_i hb
      rw [hb, Memory.read_below h, hv]
    · rfl
  · simp only [Memory.read]
    split
    · rfl
    · split
      · exact (Memory.read_below fun d hd => (by have := h d hd; omega)).symm
      · rfl

/-- Reading one byte after writing one. -/
theorem Memory.read_write {m : Memory} (a b : Nat) (v : Byte) (hm : Memory.wf m) :
    (m.write a v).read b = if b = a then v else m.read b := by
  induction m with
  | nil => exact Memory.read_entry (by simp)
  | cons c m ih =>
    obtain ⟨hlt, -, hm'⟩ := Memory.wf_cons hm
    simp only [Memory.write]
    split
    · rename_i h
      refine Memory.read_entry fun d hd => ?_
      rcases List.mem_cons.1 hd with rfl | hd
      · exact h
      · exact h.trans (hlt d hd)
    · split
      · rename_i h₁ h₂
        rw [Memory.read_entry (by rw [h₂]; exact hlt)]
        by_cases hb : b = a
        · simp [hb]
        · simp only [hb, if_false, Memory.read]
          rw [if_neg (by omega)]
          split
          · exact Memory.read_below fun d hd => by have := hlt d hd; omega
          · rfl
      · rename_i h₁ h₂
        simp only [Memory.read]
        rw [ih hm']
        split
        · rename_i hb
          rw [if_neg (by omega)]
        · split
          · rw [if_neg (by omega)]
          · rfl

/-- A byte written reads back. -/
theorem Memory.read_write_same {m : Memory} (a : Nat) (v : Byte) (hm : Memory.wf m) : (m.write a v).read a = v := by
  rw [Memory.read_write a a v hm, if_pos rfl]

/-- A write leaves every other byte alone. -/
theorem Memory.read_write_other {m : Memory} {a b : Nat} (v : Byte) (hm : Memory.wf m) (h : b ≠ a) :
    (m.write a v).read b = m.read b := by
  rw [Memory.read_write a b v hm, if_neg h]

/-- Reading one byte after writing a run of bytes. -/
theorem Memory.read_writeBytes {m : Memory} (a b : Nat) (bs : List Byte) (hm : Memory.wf m) :
    (m.writeBytes a bs).read b = if a ≤ b ∧ b < a + bs.length then bs.getD (b - a) 0 else m.read b := by
  induction bs generalizing m a with
  | nil => simp [Memory.writeBytes, show ¬ (a ≤ b ∧ b < a) by omega]
  | cons v bs ih =>
    simp only [Memory.writeBytes, ih (a + 1) (Memory.wf_write a v hm), Memory.read_write a b v hm, List.length_cons]
    by_cases h : b = a
    · subst h
      simp
    · by_cases h' : a ≤ b ∧ b < a + (bs.length + 1)
      · rw [if_pos (by omega), if_pos h']
        obtain ⟨k, rfl⟩ : ∃ k, b = a + 1 + k := ⟨b - (a + 1), by omega⟩
        rw [show a + 1 + k - (a + 1) = k by omega, show a + 1 + k - a = k + 1 by omega, List.getD_cons_succ]
      · rw [if_neg (by omega), if_neg h', if_neg h]

/-- A run of bytes written leaves every byte outside it alone. -/
theorem Memory.read_writeBytes_outside {m : Memory} {a b : Nat} {bs : List Byte} (hm : Memory.wf m)
    (h : b < a ∨ a + bs.length ≤ b) : (m.writeBytes a bs).read b = m.read b := by
  rw [Memory.read_writeBytes a b bs hm, if_neg (by omega)]

/-- Bytes written at offsets leave every address that is no offset's alone. -/
theorem Memory.read_writeAt_outside {m : Memory} {base b : Nat} {ws : List (Nat × Byte)} (hm : Memory.wf m)
    (h : ∀ w ∈ ws, b ≠ base + w.1) : (m.writeAt base ws).read b = m.read b := by
  induction ws generalizing m with
  | nil => rfl
  | cons w ws ih =>
    rw [Memory.writeAt, ih (Memory.wf_write _ _ hm) (fun w' hw' => h w' (by simp [hw'])),
      Memory.read_write_other _ hm (h w (by simp))]

/-- The number of bytes read. -/
@[simp] theorem Memory.length_readBytes (m : Memory) (a : Nat) (n : Nat) : (m.readBytes a n).length = n := by
  induction n generalizing a with
  | zero => rfl
  | succ n ih => simp [Memory.readBytes, ih]

/-- Two memories that agree on a range read alike there. -/
theorem Memory.readBytes_congr {m m' : Memory} {a : Nat} {n : Nat} (h : ∀ b, a ≤ b → b < a + n → m.read b = m'.read b) :
    m.readBytes a n = m'.readBytes a n := by
  induction n generalizing a with
  | zero => rfl
  | succ n ih =>
    simp only [Memory.readBytes]
    rw [h a (by omega) (by omega), ih fun b h₁ h₂ => h b (by omega) (by omega)]

/-- Reading a range in two parts. -/
theorem Memory.readBytes_add (m : Memory) (a : Nat) (n k : Nat) :
    m.readBytes a (n + k) = m.readBytes a n ++ m.readBytes (a + n) k := by
  induction n generalizing a with
  | zero => simp [Memory.readBytes]
  | succ n ih =>
    rw [show n + 1 + k = (n + k) + 1 by omega]
    simp only [Memory.readBytes, ih, List.cons_append]
    rw [show a + 1 + n = a + (n + 1) by omega]

/-- A run of bytes written reads back. -/
theorem Memory.readBytes_writeBytes {m : Memory} (a : Nat) (bs : List Byte) (hm : Memory.wf m) :
    (m.writeBytes a bs).readBytes a bs.length = bs := by
  induction bs generalizing m a with
  | nil => rfl
  | cons v bs ih =>
    simp only [Memory.writeBytes, List.length_cons, Memory.readBytes]
    rw [Memory.read_writeBytes_outside (Memory.wf_write a v hm) (.inl (by omega)), Memory.read_write_same a v hm,
      ih (a + 1) (Memory.wf_write a v hm)]

/-- The number of bytes an `ep_read` writes. -/
@[simp] theorem length_firstBytes (bs : List Byte) (n : Nat) : (firstBytes bs n).length = n := by
  induction n generalizing bs with
  | zero => rfl
  | succ n ih => simp [firstBytes, ih]

/-- R45: an `ep_read` writes at most the length asked. -/
theorem rxCount_le (a : RxAnswer) (len : Nat) : rxCount a len ≤ len := by
  unfold rxCount
  split <;> exact Nat.min_le_left _ _

end Sys2Proof.Machine
end

