-- ==== Sys2Proof/Laws/State.lean ====
section
/-! SUPPORT. One lemma per field per update of State: what each shared operation that always answers does to each field. -/

namespace Sys2Proof.Machine

/-! ### call -/

@[simp] theorem call_params (s : State) (c : Call) : (s.call c).params = s.params := rfl
@[simp] theorem call_data_buf (s : State) (c : Call) : (s.call c).data_buf = s.data_buf := rfl
@[simp] theorem call_data_ptr (s : State) (c : Call) : (s.call c).data_ptr = s.data_ptr := rfl
@[simp] theorem call_data_count (s : State) (c : Call) : (s.call c).data_count = s.data_count := rfl
@[simp] theorem call_data_maxsize (s : State) (c : Call) : (s.call c).data_maxsize = s.data_maxsize := rfl
@[simp] theorem call_ep0size (s : State) (c : Call) : (s.call c).ep0size = s.ep0size := rfl
@[simp] theorem call_device_cfg (s : State) (c : Call) : (s.call c).device_cfg = s.device_cfg := rfl
@[simp] theorem call_device_state (s : State) (c : Call) : (s.call c).device_state = s.device_state := rfl
@[simp] theorem call_control_state (s : State) (c : Call) : (s.call c).control_state = s.control_state := rfl
@[simp] theorem call_ctl_cb (s : State) (c : Call) : (s.call c).ctl_cb = s.ctl_cb := rfl
@[simp] theorem call_complete_cb (s : State) (c : Call) : (s.call c).complete_cb = s.complete_cb := rfl
@[simp] theorem call_cfg_cb (s : State) (c : Call) : (s.call c).cfg_cb = s.cfg_cb := rfl
@[simp] theorem call_dsc_cb (s : State) (c : Call) : (s.call c).dsc_cb = s.dsc_cb := rfl
@[simp] theorem call_evt_cb (s : State) (c : Call) : (s.call c).evt_cb = s.evt_cb := rfl
@[simp] theorem call_ep_cb (s : State) (c : Call) : (s.call c).ep_cb = s.ep_cb := rfl
@[simp] theorem call_pend_addr_v (s : State) (c : Call) : (s.call c).pend_addr_v = s.pend_addr_v := rfl
@[simp] theorem call_pend_addr (s : State) (c : Call) : (s.call c).pend_addr = s.pend_addr := rfl
@[simp] theorem call_tx_short (s : State) (c : Call) : (s.call c).tx_short = s.tx_short := rfl
@[simp] theorem call_mem (s : State) (c : Call) : (s.call c).mem = s.mem := rfl
@[simp] theorem call_hab (s : State) (c : Call) : (s.call c).hab = s.hab := rfl
@[simp] theorem call_inputs (s : State) (c : Call) : (s.call c).inputs = s.inputs := rfl
@[simp] theorem call_answers (s : State) (c : Call) : (s.call c).answers = s.answers := rfl
@[simp] theorem call_trace (s : State) (c : Call) : (s.call c).trace = s.trace ++ [c] := rfl
@[simp] theorem call_cause (s : State) (c : Call) : (s.call c).cause = s.cause := rfl
@[simp] theorem call_resp (s : State) (c : Call) : (s.call c).resp = s.resp := rfl
@[simp] theorem call_draws (s : State) (c : Call) : (s.call c).draws = s.draws := rfl

/-! ### habEnable -/

@[simp] theorem habEnable_params (s : State) (b : Bool) : (habEnable b s).params = s.params := rfl
@[simp] theorem habEnable_data_buf (s : State) (b : Bool) : (habEnable b s).data_buf = s.data_buf := rfl
@[simp] theorem habEnable_data_ptr (s : State) (b : Bool) : (habEnable b s).data_ptr = s.data_ptr := rfl
@[simp] theorem habEnable_data_count (s : State) (b : Bool) : (habEnable b s).data_count = s.data_count := rfl
@[simp] theorem habEnable_data_maxsize (s : State) (b : Bool) : (habEnable b s).data_maxsize = s.data_maxsize := rfl
@[simp] theorem habEnable_ep0size (s : State) (b : Bool) : (habEnable b s).ep0size = s.ep0size := rfl
@[simp] theorem habEnable_device_cfg (s : State) (b : Bool) : (habEnable b s).device_cfg = s.device_cfg := rfl
@[simp] theorem habEnable_device_state (s : State) (b : Bool) : (habEnable b s).device_state = s.device_state := rfl
@[simp] theorem habEnable_control_state (s : State) (b : Bool) : (habEnable b s).control_state = s.control_state := rfl
@[simp] theorem habEnable_ctl_cb (s : State) (b : Bool) : (habEnable b s).ctl_cb = s.ctl_cb := rfl
@[simp] theorem habEnable_complete_cb (s : State) (b : Bool) : (habEnable b s).complete_cb = s.complete_cb := rfl
@[simp] theorem habEnable_cfg_cb (s : State) (b : Bool) : (habEnable b s).cfg_cb = s.cfg_cb := rfl
@[simp] theorem habEnable_dsc_cb (s : State) (b : Bool) : (habEnable b s).dsc_cb = s.dsc_cb := rfl
@[simp] theorem habEnable_evt_cb (s : State) (b : Bool) : (habEnable b s).evt_cb = s.evt_cb := rfl
@[simp] theorem habEnable_ep_cb (s : State) (b : Bool) : (habEnable b s).ep_cb = s.ep_cb := rfl
@[simp] theorem habEnable_pend_addr_v (s : State) (b : Bool) : (habEnable b s).pend_addr_v = s.pend_addr_v := rfl
@[simp] theorem habEnable_pend_addr (s : State) (b : Bool) : (habEnable b s).pend_addr = s.pend_addr := rfl
@[simp] theorem habEnable_tx_short (s : State) (b : Bool) : (habEnable b s).tx_short = s.tx_short := rfl
@[simp] theorem habEnable_mem (s : State) (b : Bool) : (habEnable b s).mem = s.mem := rfl
@[simp] theorem habEnable_hab (s : State) (b : Bool) : (habEnable b s).hab = { s.hab with powered := b } := rfl
@[simp] theorem habEnable_inputs (s : State) (b : Bool) : (habEnable b s).inputs = s.inputs := rfl
@[simp] theorem habEnable_answers (s : State) (b : Bool) : (habEnable b s).answers = s.answers := rfl
@[simp] theorem habEnable_trace (s : State) (b : Bool) : (habEnable b s).trace = s.trace ++ [.enable b] := rfl
@[simp] theorem habEnable_cause (s : State) (b : Bool) : (habEnable b s).cause = s.cause := rfl
@[simp] theorem habEnable_resp (s : State) (b : Bool) : (habEnable b s).resp = s.resp := rfl
@[simp] theorem habEnable_draws (s : State) (b : Bool) : (habEnable b s).draws = s.draws := rfl

/-! ### habConnect -/

@[simp] theorem habConnect_params (s : State) (b : Bool) : (habConnect b s).params = s.params := rfl
@[simp] theorem habConnect_data_buf (s : State) (b : Bool) : (habConnect b s).data_buf = s.data_buf := rfl
@[simp] theorem habConnect_data_ptr (s : State) (b : Bool) : (habConnect b s).data_ptr = s.data_ptr := rfl
@[simp] theorem habConnect_data_count (s : State) (b : Bool) : (habConnect b s).data_count = s.data_count := rfl
@[simp] theorem habConnect_data_maxsize (s : State) (b : Bool) : (habConnect b s).data_maxsize = s.data_maxsize := rfl
@[simp] theorem habConnect_ep0size (s : State) (b : Bool) : (habConnect b s).ep0size = s.ep0size := rfl
@[simp] theorem habConnect_device_cfg (s : State) (b : Bool) : (habConnect b s).device_cfg = s.device_cfg := rfl
@[simp] theorem habConnect_device_state (s : State) (b : Bool) : (habConnect b s).device_state = s.device_state := rfl
@[simp] theorem habConnect_control_state (s : State) (b : Bool) : (habConnect b s).control_state = s.control_state := rfl
@[simp] theorem habConnect_ctl_cb (s : State) (b : Bool) : (habConnect b s).ctl_cb = s.ctl_cb := rfl
@[simp] theorem habConnect_complete_cb (s : State) (b : Bool) : (habConnect b s).complete_cb = s.complete_cb := rfl
@[simp] theorem habConnect_cfg_cb (s : State) (b : Bool) : (habConnect b s).cfg_cb = s.cfg_cb := rfl
@[simp] theorem habConnect_dsc_cb (s : State) (b : Bool) : (habConnect b s).dsc_cb = s.dsc_cb := rfl
@[simp] theorem habConnect_evt_cb (s : State) (b : Bool) : (habConnect b s).evt_cb = s.evt_cb := rfl
@[simp] theorem habConnect_ep_cb (s : State) (b : Bool) : (habConnect b s).ep_cb = s.ep_cb := rfl
@[simp] theorem habConnect_pend_addr_v (s : State) (b : Bool) : (habConnect b s).pend_addr_v = s.pend_addr_v := rfl
@[simp] theorem habConnect_pend_addr (s : State) (b : Bool) : (habConnect b s).pend_addr = s.pend_addr := rfl
@[simp] theorem habConnect_tx_short (s : State) (b : Bool) : (habConnect b s).tx_short = s.tx_short := rfl
@[simp] theorem habConnect_mem (s : State) (b : Bool) : (habConnect b s).mem = s.mem := rfl
@[simp] theorem habConnect_hab (s : State) (b : Bool) : (habConnect b s).hab = { s.hab with pullup := b } := rfl
@[simp] theorem habConnect_inputs (s : State) (b : Bool) : (habConnect b s).inputs = s.inputs := rfl
@[simp] theorem habConnect_answers (s : State) (b : Bool) : (habConnect b s).answers = s.answers := rfl
@[simp] theorem habConnect_trace (s : State) (b : Bool) : (habConnect b s).trace = s.trace ++ [.connect b] := rfl
@[simp] theorem habConnect_cause (s : State) (b : Bool) : (habConnect b s).cause = s.cause := rfl
@[simp] theorem habConnect_resp (s : State) (b : Bool) : (habConnect b s).resp = s.resp := rfl
@[simp] theorem habConnect_draws (s : State) (b : Bool) : (habConnect b s).draws = s.draws := rfl

/-! ### setAddress -/

@[simp] theorem setAddress_params (s : State) (a : BitVec 8) : (setAddress a s).params = s.params := rfl
@[simp] theorem setAddress_data_buf (s : State) (a : BitVec 8) : (setAddress a s).data_buf = s.data_buf := rfl
@[simp] theorem setAddress_data_ptr (s : State) (a : BitVec 8) : (setAddress a s).data_ptr = s.data_ptr := rfl
@[simp] theorem setAddress_data_count (s : State) (a : BitVec 8) : (setAddress a s).data_count = s.data_count := rfl
@[simp] theorem setAddress_data_maxsize (s : State) (a : BitVec 8) : (setAddress a s).data_maxsize = s.data_maxsize := rfl
@[simp] theorem setAddress_ep0size (s : State) (a : BitVec 8) : (setAddress a s).ep0size = s.ep0size := rfl
@[simp] theorem setAddress_device_cfg (s : State) (a : BitVec 8) : (setAddress a s).device_cfg = s.device_cfg := rfl
@[simp] theorem setAddress_device_state (s : State) (a : BitVec 8) : (setAddress a s).device_state = s.device_state := rfl
@[simp] theorem setAddress_control_state (s : State) (a : BitVec 8) : (setAddress a s).control_state = s.control_state := rfl
@[simp] theorem setAddress_ctl_cb (s : State) (a : BitVec 8) : (setAddress a s).ctl_cb = s.ctl_cb := rfl
@[simp] theorem setAddress_complete_cb (s : State) (a : BitVec 8) : (setAddress a s).complete_cb = s.complete_cb := rfl
@[simp] theorem setAddress_cfg_cb (s : State) (a : BitVec 8) : (setAddress a s).cfg_cb = s.cfg_cb := rfl
@[simp] theorem setAddress_dsc_cb (s : State) (a : BitVec 8) : (setAddress a s).dsc_cb = s.dsc_cb := rfl
@[simp] theorem setAddress_evt_cb (s : State) (a : BitVec 8) : (setAddress a s).evt_cb = s.evt_cb := rfl
@[simp] theorem setAddress_ep_cb (s : State) (a : BitVec 8) : (setAddress a s).ep_cb = s.ep_cb := rfl
@[simp] theorem setAddress_pend_addr_v (s : State) (a : BitVec 8) : (setAddress a s).pend_addr_v = s.pend_addr_v := rfl
@[simp] theorem setAddress_pend_addr (s : State) (a : BitVec 8) : (setAddress a s).pend_addr = s.pend_addr := rfl
@[simp] theorem setAddress_tx_short (s : State) (a : BitVec 8) : (setAddress a s).tx_short = s.tx_short := rfl
@[simp] theorem setAddress_mem (s : State) (a : BitVec 8) : (setAddress a s).mem = s.mem := rfl
@[simp] theorem setAddress_hab (s : State) (a : BitVec 8) : (setAddress a s).hab = { s.hab with address := a } := rfl
@[simp] theorem setAddress_inputs (s : State) (a : BitVec 8) : (setAddress a s).inputs = s.inputs := rfl
@[simp] theorem setAddress_answers (s : State) (a : BitVec 8) : (setAddress a s).answers = s.answers := rfl
@[simp] theorem setAddress_trace (s : State) (a : BitVec 8) : (setAddress a s).trace = s.trace ++ [.setAddress a] := rfl
@[simp] theorem setAddress_cause (s : State) (a : BitVec 8) : (setAddress a s).cause = s.cause := rfl
@[simp] theorem setAddress_resp (s : State) (a : BitVec 8) : (setAddress a s).resp = s.resp := rfl
@[simp] theorem setAddress_draws (s : State) (a : BitVec 8) : (setAddress a s).draws = s.draws := rfl

/-! ### epSetStall -/

@[simp] theorem epSetStall_params (s : State) (ep : Byte) (b : Bool) : (epSetStall ep b s).params = s.params := rfl
@[simp] theorem epSetStall_data_buf (s : State) (ep : Byte) (b : Bool) : (epSetStall ep b s).data_buf = s.data_buf := rfl
@[simp] theorem epSetStall_data_ptr (s : State) (ep : Byte) (b : Bool) : (epSetStall ep b s).data_ptr = s.data_ptr := rfl
@[simp] theorem epSetStall_data_count (s : State) (ep : Byte) (b : Bool) : (epSetStall ep b s).data_count = s.data_count := rfl
@[simp] theorem epSetStall_data_maxsize (s : State) (ep : Byte) (b : Bool) : (epSetStall ep b s).data_maxsize = s.data_maxsize := rfl
@[simp] theorem epSetStall_ep0size (s : State) (ep : Byte) (b : Bool) : (epSetStall ep b s).ep0size = s.ep0size := rfl
@[simp] theorem epSetStall_device_cfg (s : State) (ep : Byte) (b : Bool) : (epSetStall ep b s).device_cfg = s.device_cfg := rfl
@[simp] theorem epSetStall_device_state (s : State) (ep : Byte) (b : Bool) : (epSetStall ep b s).device_state = s.device_state := rfl
@[simp] theorem epSetStall_control_state (s : State) (ep : Byte) (b : Bool) : (epSetStall ep b s).control_state = s.control_state := rfl
@[simp] theorem epSetStall_ctl_cb (s : State) (ep : Byte) (b : Bool) : (epSetStall ep b s).ctl_cb = s.ctl_cb := rfl
@[simp] theorem epSetStall_complete_cb (s : State) (ep : Byte) (b : Bool) : (epSetStall ep b s).complete_cb = s.complete_cb := rfl
@[simp] theorem epSetStall_cfg_cb (s : State) (ep : Byte) (b : Bool) : (epSetStall ep b s).cfg_cb = s.cfg_cb := rfl
@[simp] theorem epSetStall_dsc_cb (s : State) (ep : Byte) (b : Bool) : (epSetStall ep b s).dsc_cb = s.dsc_cb := rfl
@[simp] theorem epSetStall_evt_cb (s : State) (ep : Byte) (b : Bool) : (epSetStall ep b s).evt_cb = s.evt_cb := rfl
@[simp] theorem epSetStall_ep_cb (s : State) (ep : Byte) (b : Bool) : (epSetStall ep b s).ep_cb = s.ep_cb := rfl
@[simp] theorem epSetStall_pend_addr_v (s : State) (ep : Byte) (b : Bool) : (epSetStall ep b s).pend_addr_v = s.pend_addr_v := rfl
@[simp] theorem epSetStall_pend_addr (s : State) (ep : Byte) (b : Bool) : (epSetStall ep b s).pend_addr = s.pend_addr := rfl
@[simp] theorem epSetStall_tx_short (s : State) (ep : Byte) (b : Bool) : (epSetStall ep b s).tx_short = s.tx_short := rfl
@[simp] theorem epSetStall_mem (s : State) (ep : Byte) (b : Bool) : (epSetStall ep b s).mem = s.mem := rfl
@[simp] theorem epSetStall_hab (s : State) (ep : Byte) (b : Bool) : (epSetStall ep b s).hab = s.hab.setStall ep b := rfl
@[simp] theorem epSetStall_inputs (s : State) (ep : Byte) (b : Bool) : (epSetStall ep b s).inputs = s.inputs := rfl
@[simp] theorem epSetStall_answers (s : State) (ep : Byte) (b : Bool) : (epSetStall ep b s).answers = s.answers := rfl
@[simp] theorem epSetStall_trace (s : State) (ep : Byte) (b : Bool) : (epSetStall ep b s).trace = s.trace ++ [.epSetStall ep b] := rfl
@[simp] theorem epSetStall_cause (s : State) (ep : Byte) (b : Bool) : (epSetStall ep b s).cause = s.cause := rfl
@[simp] theorem epSetStall_resp (s : State) (ep : Byte) (b : Bool) : (epSetStall ep b s).resp = s.resp := rfl
@[simp] theorem epSetStall_draws (s : State) (ep : Byte) (b : Bool) : (epSetStall ep b s).draws = s.draws := rfl

/-! ### arrives -/

@[simp] theorem arrives_params (s : State) (k : EventKind) : (s.arrives k).params = s.params := rfl
@[simp] theorem arrives_data_buf (s : State) (k : EventKind) : (s.arrives k).data_buf = s.data_buf := rfl
@[simp] theorem arrives_data_ptr (s : State) (k : EventKind) : (s.arrives k).data_ptr = s.data_ptr := rfl
@[simp] theorem arrives_data_count (s : State) (k : EventKind) : (s.arrives k).data_count = s.data_count := rfl
@[simp] theorem arrives_data_maxsize (s : State) (k : EventKind) : (s.arrives k).data_maxsize = s.data_maxsize := rfl
@[simp] theorem arrives_ep0size (s : State) (k : EventKind) : (s.arrives k).ep0size = s.ep0size := rfl
@[simp] theorem arrives_device_cfg (s : State) (k : EventKind) : (s.arrives k).device_cfg = s.device_cfg := rfl
@[simp] theorem arrives_device_state (s : State) (k : EventKind) : (s.arrives k).device_state = s.device_state := rfl
@[simp] theorem arrives_control_state (s : State) (k : EventKind) : (s.arrives k).control_state = s.control_state := rfl
@[simp] theorem arrives_ctl_cb (s : State) (k : EventKind) : (s.arrives k).ctl_cb = s.ctl_cb := rfl
@[simp] theorem arrives_complete_cb (s : State) (k : EventKind) : (s.arrives k).complete_cb = s.complete_cb := rfl
@[simp] theorem arrives_cfg_cb (s : State) (k : EventKind) : (s.arrives k).cfg_cb = s.cfg_cb := rfl
@[simp] theorem arrives_dsc_cb (s : State) (k : EventKind) : (s.arrives k).dsc_cb = s.dsc_cb := rfl
@[simp] theorem arrives_evt_cb (s : State) (k : EventKind) : (s.arrives k).evt_cb = s.evt_cb := rfl
@[simp] theorem arrives_ep_cb (s : State) (k : EventKind) : (s.arrives k).ep_cb = s.ep_cb := rfl
@[simp] theorem arrives_pend_addr_v (s : State) (k : EventKind) : (s.arrives k).pend_addr_v = s.pend_addr_v := rfl
@[simp] theorem arrives_pend_addr (s : State) (k : EventKind) : (s.arrives k).pend_addr = s.pend_addr := rfl
@[simp] theorem arrives_tx_short (s : State) (k : EventKind) : (s.arrives k).tx_short = s.tx_short := rfl
@[simp] theorem arrives_mem (s : State) (k : EventKind) : (s.arrives k).mem = s.mem := rfl
@[simp] theorem arrives_hab (s : State) (k : EventKind) : (s.arrives k).hab = s.hab.onEvent k := rfl
@[simp] theorem arrives_inputs (s : State) (k : EventKind) : (s.arrives k).inputs = s.inputs := rfl
@[simp] theorem arrives_answers (s : State) (k : EventKind) : (s.arrives k).answers = s.answers := rfl
@[simp] theorem arrives_trace (s : State) (k : EventKind) : (s.arrives k).trace = s.trace := rfl
@[simp] theorem arrives_cause (s : State) (k : EventKind) : (s.arrives k).cause = s.cause := rfl
@[simp] theorem arrives_resp (s : State) (k : EventKind) : (s.arrives k).resp = s.resp := rfl
@[simp] theorem arrives_draws (s : State) (k : EventKind) : (s.arrives k).draws = s.draws := rfl

/-! ### stall -/

@[simp] theorem stall_params (s : State) (c : StallCause) : (stall c s).params = s.params := rfl
@[simp] theorem stall_data_buf (s : State) (c : StallCause) : (stall c s).data_buf = s.data_buf := rfl
@[simp] theorem stall_data_ptr (s : State) (c : StallCause) : (stall c s).data_ptr = s.data_ptr := rfl
@[simp] theorem stall_data_count (s : State) (c : StallCause) : (stall c s).data_count = s.data_count := rfl
@[simp] theorem stall_data_maxsize (s : State) (c : StallCause) : (stall c s).data_maxsize = s.data_maxsize := rfl
@[simp] theorem stall_ep0size (s : State) (c : StallCause) : (stall c s).ep0size = s.ep0size := rfl
@[simp] theorem stall_device_cfg (s : State) (c : StallCause) : (stall c s).device_cfg = s.device_cfg := rfl
@[simp] theorem stall_device_state (s : State) (c : StallCause) : (stall c s).device_state = s.device_state := rfl
@[simp] theorem stall_control_state (s : State) (c : StallCause) : (stall c s).control_state = .idle := rfl
@[simp] theorem stall_ctl_cb (s : State) (c : StallCause) : (stall c s).ctl_cb = s.ctl_cb := rfl
@[simp] theorem stall_complete_cb (s : State) (c : StallCause) : (stall c s).complete_cb = s.complete_cb := rfl
@[simp] theorem stall_cfg_cb (s : State) (c : StallCause) : (stall c s).cfg_cb = s.cfg_cb := rfl
@[simp] theorem stall_dsc_cb (s : State) (c : StallCause) : (stall c s).dsc_cb = s.dsc_cb := rfl
@[simp] theorem stall_evt_cb (s : State) (c : StallCause) : (stall c s).evt_cb = s.evt_cb := rfl
@[simp] theorem stall_ep_cb (s : State) (c : StallCause) : (stall c s).ep_cb = s.ep_cb := rfl
@[simp] theorem stall_pend_addr_v (s : State) (c : StallCause) : (stall c s).pend_addr_v = s.pend_addr_v := rfl
@[simp] theorem stall_pend_addr (s : State) (c : StallCause) : (stall c s).pend_addr = s.pend_addr := rfl
@[simp] theorem stall_tx_short (s : State) (c : StallCause) : (stall c s).tx_short = s.tx_short := rfl
@[simp] theorem stall_mem (s : State) (c : StallCause) : (stall c s).mem = s.mem := rfl
@[simp] theorem stall_hab (s : State) (c : StallCause) : (stall c s).hab = (s.hab.setStall ep0Out true).setStall ep0In true := rfl
@[simp] theorem stall_inputs (s : State) (c : StallCause) : (stall c s).inputs = s.inputs := rfl
@[simp] theorem stall_answers (s : State) (c : StallCause) : (stall c s).answers = s.answers := rfl
@[simp] theorem stall_trace (s : State) (c : StallCause) : (stall c s).trace = s.trace ++ [.epSetStall ep0Out true, .epSetStall ep0In true] := rfl
@[simp] theorem stall_cause (s : State) (c : StallCause) : (stall c s).cause = some c := rfl
@[simp] theorem stall_resp (s : State) (c : StallCause) : (stall c s).resp = s.resp := rfl
@[simp] theorem stall_draws (s : State) (c : StallCause) : (stall c s).draws = s.draws := rfl

/-! ### restart -/

@[simp] theorem restart_params (s : State) : (restart s).params = s.params := rfl
@[simp] theorem restart_data_buf (s : State) : (restart s).data_buf = s.data_buf := rfl
@[simp] theorem restart_data_ptr (s : State) : (restart s).data_ptr = s.data_ptr := rfl
@[simp] theorem restart_data_count (s : State) : (restart s).data_count = s.data_count := rfl
@[simp] theorem restart_data_maxsize (s : State) : (restart s).data_maxsize = s.data_maxsize := rfl
@[simp] theorem restart_ep0size (s : State) : (restart s).ep0size = s.ep0size := rfl
@[simp] theorem restart_device_cfg (s : State) : (restart s).device_cfg = s.device_cfg := rfl
@[simp] theorem restart_device_state (s : State) : (restart s).device_state = s.device_state := rfl
@[simp] theorem restart_control_state (s : State) : (restart s).control_state = .idle := rfl
@[simp] theorem restart_ctl_cb (s : State) : (restart s).ctl_cb = s.ctl_cb := rfl
@[simp] theorem restart_complete_cb (s : State) : (restart s).complete_cb = none := rfl
@[simp] theorem restart_cfg_cb (s : State) : (restart s).cfg_cb = s.cfg_cb := rfl
@[simp] theorem restart_dsc_cb (s : State) : (restart s).dsc_cb = s.dsc_cb := rfl
@[simp] theorem restart_evt_cb (s : State) : (restart s).evt_cb = s.evt_cb := rfl
@[simp] theorem restart_ep_cb (s : State) : (restart s).ep_cb = s.ep_cb := rfl
@[simp] theorem restart_pend_addr_v (s : State) : (restart s).pend_addr_v = false := rfl
@[simp] theorem restart_pend_addr (s : State) : (restart s).pend_addr = s.pend_addr := rfl
@[simp] theorem restart_tx_short (s : State) : (restart s).tx_short = false := rfl
@[simp] theorem restart_mem (s : State) : (restart s).mem = s.mem := rfl
@[simp] theorem restart_hab (s : State) : (restart s).hab = s.hab := rfl
@[simp] theorem restart_inputs (s : State) : (restart s).inputs = s.inputs := rfl
@[simp] theorem restart_answers (s : State) : (restart s).answers = s.answers := rfl
@[simp] theorem restart_trace (s : State) : (restart s).trace = s.trace := rfl
@[simp] theorem restart_cause (s : State) : (restart s).cause = s.cause := rfl
@[simp] theorem restart_resp (s : State) : (restart s).resp = s.resp := rfl
@[simp] theorem restart_draws (s : State) : (restart s).draws = s.draws := rfl

/-! ### resetStatus -/

@[simp] theorem resetStatus_params (s : State) : (resetStatus s).params = s.params := rfl
@[simp] theorem resetStatus_data_buf (s : State) : (resetStatus s).data_buf = s.data_buf := rfl
@[simp] theorem resetStatus_data_ptr (s : State) : (resetStatus s).data_ptr = s.data_ptr := rfl
@[simp] theorem resetStatus_data_count (s : State) : (resetStatus s).data_count = s.data_count := rfl
@[simp] theorem resetStatus_data_maxsize (s : State) : (resetStatus s).data_maxsize = s.data_maxsize := rfl
@[simp] theorem resetStatus_ep0size (s : State) : (resetStatus s).ep0size = s.ep0size := rfl
@[simp] theorem resetStatus_device_cfg (s : State) : (resetStatus s).device_cfg = 0 := rfl
@[simp] theorem resetStatus_device_state (s : State) : (resetStatus s).device_state = .default := rfl
@[simp] theorem resetStatus_control_state (s : State) : (resetStatus s).control_state = .idle := rfl
@[simp] theorem resetStatus_ctl_cb (s : State) : (resetStatus s).ctl_cb = s.ctl_cb := rfl
@[simp] theorem resetStatus_complete_cb (s : State) : (resetStatus s).complete_cb = none := rfl
@[simp] theorem resetStatus_cfg_cb (s : State) : (resetStatus s).cfg_cb = s.cfg_cb := rfl
@[simp] theorem resetStatus_dsc_cb (s : State) : (resetStatus s).dsc_cb = s.dsc_cb := rfl
@[simp] theorem resetStatus_evt_cb (s : State) : (resetStatus s).evt_cb = s.evt_cb := rfl
@[simp] theorem resetStatus_ep_cb (s : State) : (resetStatus s).ep_cb = s.ep_cb := rfl
@[simp] theorem resetStatus_pend_addr_v (s : State) : (resetStatus s).pend_addr_v = false := rfl
@[simp] theorem resetStatus_pend_addr (s : State) : (resetStatus s).pend_addr = s.pend_addr := rfl
@[simp] theorem resetStatus_tx_short (s : State) : (resetStatus s).tx_short = false := rfl
@[simp] theorem resetStatus_mem (s : State) : (resetStatus s).mem = s.mem := rfl
@[simp] theorem resetStatus_hab (s : State) : (resetStatus s).hab = s.hab := rfl
@[simp] theorem resetStatus_inputs (s : State) : (resetStatus s).inputs = s.inputs := rfl
@[simp] theorem resetStatus_answers (s : State) : (resetStatus s).answers = s.answers := rfl
@[simp] theorem resetStatus_trace (s : State) : (resetStatus s).trace = s.trace := rfl
@[simp] theorem resetStatus_cause (s : State) : (resetStatus s).cause = s.cause := rfl
@[simp] theorem resetStatus_resp (s : State) : (resetStatus s).resp = s.resp := rfl
@[simp] theorem resetStatus_draws (s : State) : (resetStatus s).draws = s.draws := rfl

/-! ### startCursor -/

@[simp] theorem startCursor_params (s : State) (r : Request) : (startCursor r s).params = s.params := rfl
@[simp] theorem startCursor_data_buf (s : State) (r : Request) : (startCursor r s).data_buf = s.data_buf := rfl
@[simp] theorem startCursor_data_ptr (s : State) (r : Request) : (startCursor r s).data_ptr = s.data_buf + 8 := rfl
@[simp] theorem startCursor_data_count (s : State) (r : Request) : (startCursor r s).data_count = r.wLength := rfl
@[simp] theorem startCursor_data_maxsize (s : State) (r : Request) : (startCursor r s).data_maxsize = s.data_maxsize := rfl
@[simp] theorem startCursor_ep0size (s : State) (r : Request) : (startCursor r s).ep0size = s.ep0size := rfl
@[simp] theorem startCursor_device_cfg (s : State) (r : Request) : (startCursor r s).device_cfg = s.device_cfg := rfl
@[simp] theorem startCursor_device_state (s : State) (r : Request) : (startCursor r s).device_state = s.device_state := rfl
@[simp] theorem startCursor_control_state (s : State) (r : Request) : (startCursor r s).control_state = s.control_state := rfl
@[simp] theorem startCursor_ctl_cb (s : State) (r : Request) : (startCursor r s).ctl_cb = s.ctl_cb := rfl
@[simp] theorem startCursor_complete_cb (s : State) (r : Request) : (startCursor r s).complete_cb = s.complete_cb := rfl
@[simp] theorem startCursor_cfg_cb (s : State) (r : Request) : (startCursor r s).cfg_cb = s.cfg_cb := rfl
@[simp] theorem startCursor_dsc_cb (s : State) (r : Request) : (startCursor r s).dsc_cb = s.dsc_cb := rfl
@[simp] theorem startCursor_evt_cb (s : State) (r : Request) : (startCursor r s).evt_cb = s.evt_cb := rfl
@[simp] theorem startCursor_ep_cb (s : State) (r : Request) : (startCursor r s).ep_cb = s.ep_cb := rfl
@[simp] theorem startCursor_pend_addr_v (s : State) (r : Request) : (startCursor r s).pend_addr_v = s.pend_addr_v := rfl
@[simp] theorem startCursor_pend_addr (s : State) (r : Request) : (startCursor r s).pend_addr = s.pend_addr := rfl
@[simp] theorem startCursor_tx_short (s : State) (r : Request) : (startCursor r s).tx_short = s.tx_short := rfl
@[simp] theorem startCursor_mem (s : State) (r : Request) : (startCursor r s).mem = s.mem := rfl
@[simp] theorem startCursor_hab (s : State) (r : Request) : (startCursor r s).hab = s.hab := rfl
@[simp] theorem startCursor_inputs (s : State) (r : Request) : (startCursor r s).inputs = s.inputs := rfl
@[simp] theorem startCursor_answers (s : State) (r : Request) : (startCursor r s).answers = s.answers := rfl
@[simp] theorem startCursor_trace (s : State) (r : Request) : (startCursor r s).trace = s.trace := rfl
@[simp] theorem startCursor_cause (s : State) (r : Request) : (startCursor r s).cause = s.cause := rfl
@[simp] theorem startCursor_resp (s : State) (r : Request) : (startCursor r s).resp = s.resp := rfl
@[simp] theorem startCursor_draws (s : State) (r : Request) : (startCursor r s).draws = s.draws := rfl

/-! ### ctlCallback -/

@[simp] theorem ctlCallback_params (s : State) (cb : Nat) (r : Request) (p : List Byte) : (ctlCallback cb r p s).params = s.params := by
  unfold ctlCallback; rfl
@[simp] theorem ctlCallback_data_buf (s : State) (cb : Nat) (r : Request) (p : List Byte) : (ctlCallback cb r p s).data_buf = s.data_buf := by
  unfold ctlCallback; rfl
@[simp] theorem ctlCallback_data_ptr (s : State) (cb : Nat) (r : Request) (p : List Byte) : (ctlCallback cb r p s).data_ptr = s.data_ptr := by
  unfold ctlCallback; rfl
@[simp] theorem ctlCallback_data_count (s : State) (cb : Nat) (r : Request) (p : List Byte) : (ctlCallback cb r p s).data_count = s.data_count := by
  unfold ctlCallback; rfl
@[simp] theorem ctlCallback_data_maxsize (s : State) (cb : Nat) (r : Request) (p : List Byte) : (ctlCallback cb r p s).data_maxsize = s.data_maxsize := by
  unfold ctlCallback; rfl
@[simp] theorem ctlCallback_ep0size (s : State) (cb : Nat) (r : Request) (p : List Byte) : (ctlCallback cb r p s).ep0size = s.ep0size := by
  unfold ctlCallback; rfl
@[simp] theorem ctlCallback_device_cfg (s : State) (cb : Nat) (r : Request) (p : List Byte) : (ctlCallback cb r p s).device_cfg = s.device_cfg := by
  unfold ctlCallback; rfl
@[simp] theorem ctlCallback_device_state (s : State) (cb : Nat) (r : Request) (p : List Byte) : (ctlCallback cb r p s).device_state = s.device_state := by
  unfold ctlCallback; rfl
@[simp] theorem ctlCallback_control_state (s : State) (cb : Nat) (r : Request) (p : List Byte) : (ctlCallback cb r p s).control_state = s.control_state := by
  unfold ctlCallback; rfl
@[simp] theorem ctlCallback_ctl_cb (s : State) (cb : Nat) (r : Request) (p : List Byte) : (ctlCallback cb r p s).ctl_cb = s.ctl_cb := by
  unfold ctlCallback; rfl
@[simp] theorem ctlCallback_cfg_cb (s : State) (cb : Nat) (r : Request) (p : List Byte) : (ctlCallback cb r p s).cfg_cb = s.cfg_cb := by
  unfold ctlCallback; rfl
@[simp] theorem ctlCallback_dsc_cb (s : State) (cb : Nat) (r : Request) (p : List Byte) : (ctlCallback cb r p s).dsc_cb = s.dsc_cb := by
  unfold ctlCallback; rfl
@[simp] theorem ctlCallback_evt_cb (s : State) (cb : Nat) (r : Request) (p : List Byte) : (ctlCallback cb r p s).evt_cb = s.evt_cb := by
  unfold ctlCallback; rfl
@[simp] theorem ctlCallback_ep_cb (s : State) (cb : Nat) (r : Request) (p : List Byte) : (ctlCallback cb r p s).ep_cb = s.ep_cb := by
  unfold ctlCallback; rfl
@[simp] theorem ctlCallback_pend_addr_v (s : State) (cb : Nat) (r : Request) (p : List Byte) : (ctlCallback cb r p s).pend_addr_v = s.pend_addr_v := by
  unfold ctlCallback; rfl
@[simp] theorem ctlCallback_pend_addr (s : State) (cb : Nat) (r : Request) (p : List Byte) : (ctlCallback cb r p s).pend_addr = s.pend_addr := by
  unfold ctlCallback; rfl
@[simp] theorem ctlCallback_tx_short (s : State) (cb : Nat) (r : Request) (p : List Byte) : (ctlCallback cb r p s).tx_short = s.tx_short := by
  unfold ctlCallback; rfl
@[simp] theorem ctlCallback_mem (s : State) (cb : Nat) (r : Request) (p : List Byte) : (ctlCallback cb r p s).mem = s.mem.writeAt (s.data_buf + 8) (s.payloadWrites s.answers.ctl.writes) := by
  unfold ctlCallback; rfl
@[simp] theorem ctlCallback_hab (s : State) (cb : Nat) (r : Request) (p : List Byte) : (ctlCallback cb r p s).hab = s.hab := by
  unfold ctlCallback; rfl
@[simp] theorem ctlCallback_inputs (s : State) (cb : Nat) (r : Request) (p : List Byte) : (ctlCallback cb r p s).inputs = s.inputs := by
  unfold ctlCallback; rfl
@[simp] theorem ctlCallback_answers (s : State) (cb : Nat) (r : Request) (p : List Byte) : (ctlCallback cb r p s).answers = s.answers := by
  unfold ctlCallback; rfl
@[simp] theorem ctlCallback_trace (s : State) (cb : Nat) (r : Request) (p : List Byte) : (ctlCallback cb r p s).trace = s.trace ++ [.ctlCb cb r p s.answers.ctl.res] := by
  unfold ctlCallback; rfl
@[simp] theorem ctlCallback_cause (s : State) (cb : Nat) (r : Request) (p : List Byte) : (ctlCallback cb r p s).cause = s.cause := by
  unfold ctlCallback; rfl
@[simp] theorem ctlCallback_resp (s : State) (cb : Nat) (r : Request) (p : List Byte) : (ctlCallback cb r p s).resp = s.resp := by
  unfold ctlCallback; rfl
@[simp] theorem ctlCallback_draws (s : State) (cb : Nat) (r : Request) (p : List Byte) : (ctlCallback cb r p s).draws = s.draws := by
  unfold ctlCallback; rfl
theorem ctlCallback_complete_cb (s : State) (cb : Nat) (r : Request) (p : List Byte) :
    (ctlCallback cb r p s).complete_cb = (s.answers.ctl.ccb.orElse fun _ => s.complete_cb) := by
  unfold ctlCallback
  cases s.answers.ctl.ccb <;> rfl

/-! ### dscCallback -/

@[simp] theorem dscCallback_params (s : State) (cb : Nat) (r : Request) : (dscCallback cb r s).params = s.params := rfl
@[simp] theorem dscCallback_data_buf (s : State) (cb : Nat) (r : Request) : (dscCallback cb r s).data_buf = s.data_buf := rfl
@[simp] theorem dscCallback_data_ptr (s : State) (cb : Nat) (r : Request) : (dscCallback cb r s).data_ptr = s.data_ptr := rfl
@[simp] theorem dscCallback_data_count (s : State) (cb : Nat) (r : Request) : (dscCallback cb r s).data_count = s.data_count := rfl
@[simp] theorem dscCallback_data_maxsize (s : State) (cb : Nat) (r : Request) : (dscCallback cb r s).data_maxsize = s.data_maxsize := rfl
@[simp] theorem dscCallback_ep0size (s : State) (cb : Nat) (r : Request) : (dscCallback cb r s).ep0size = s.ep0size := rfl
@[simp] theorem dscCallback_device_cfg (s : State) (cb : Nat) (r : Request) : (dscCallback cb r s).device_cfg = s.device_cfg := rfl
@[simp] theorem dscCallback_device_state (s : State) (cb : Nat) (r : Request) : (dscCallback cb r s).device_state = s.device_state := rfl
@[simp] theorem dscCallback_control_state (s : State) (cb : Nat) (r : Request) : (dscCallback cb r s).control_state = s.control_state := rfl
@[simp] theorem dscCallback_ctl_cb (s : State) (cb : Nat) (r : Request) : (dscCallback cb r s).ctl_cb = s.ctl_cb := rfl
@[simp] theorem dscCallback_complete_cb (s : State) (cb : Nat) (r : Request) : (dscCallback cb r s).complete_cb = s.complete_cb := rfl
@[simp] theorem dscCallback_cfg_cb (s : State) (cb : Nat) (r : Request) : (dscCallback cb r s).cfg_cb = s.cfg_cb := rfl
@[simp] theorem dscCallback_dsc_cb (s : State) (cb : Nat) (r : Request) : (dscCallback cb r s).dsc_cb = s.dsc_cb := rfl
@[simp] theorem dscCallback_evt_cb (s : State) (cb : Nat) (r : Request) : (dscCallback cb r s).evt_cb = s.evt_cb := rfl
@[simp] theorem dscCallback_ep_cb (s : State) (cb : Nat) (r : Request) : (dscCallback cb r s).ep_cb = s.ep_cb := rfl
@[simp] theorem dscCallback_pend_addr_v (s : State) (cb : Nat) (r : Request) : (dscCallback cb r s).pend_addr_v = s.pend_addr_v := rfl
@[simp] theorem dscCallback_pend_addr (s : State) (cb : Nat) (r : Request) : (dscCallback cb r s).pend_addr = s.pend_addr := rfl
@[simp] theorem dscCallback_tx_short (s : State) (cb : Nat) (r : Request) : (dscCallback cb r s).tx_short = s.tx_short := rfl
@[simp] theorem dscCallback_mem (s : State) (cb : Nat) (r : Request) : (dscCallback cb r s).mem = s.mem := rfl
@[simp] theorem dscCallback_hab (s : State) (cb : Nat) (r : Request) : (dscCallback cb r s).hab = s.hab := rfl
@[simp] theorem dscCallback_inputs (s : State) (cb : Nat) (r : Request) : (dscCallback cb r s).inputs = s.inputs := rfl
@[simp] theorem dscCallback_answers (s : State) (cb : Nat) (r : Request) : (dscCallback cb r s).answers = s.answers := rfl
@[simp] theorem dscCallback_trace (s : State) (cb : Nat) (r : Request) : (dscCallback cb r s).trace = s.trace ++ [.dscCb cb r s.answers.dsc.res] := rfl
@[simp] theorem dscCallback_cause (s : State) (cb : Nat) (r : Request) : (dscCallback cb r s).cause = s.cause := rfl
@[simp] theorem dscCallback_resp (s : State) (cb : Nat) (r : Request) : (dscCallback cb r s).resp = s.resp := rfl
@[simp] theorem dscCallback_draws (s : State) (cb : Nat) (r : Request) : (dscCallback cb r s).draws = s.draws := rfl

/-! ### cfgCallback -/

@[simp] theorem cfgCallback_params (s : State) (cb : Nat) (c : BitVec 8) : (cfgCallback cb c s).params = s.params := rfl
@[simp] theorem cfgCallback_data_buf (s : State) (cb : Nat) (c : BitVec 8) : (cfgCallback cb c s).data_buf = s.data_buf := rfl
@[simp] theorem cfgCallback_data_ptr (s : State) (cb : Nat) (c : BitVec 8) : (cfgCallback cb c s).data_ptr = s.data_ptr := rfl
@[simp] theorem cfgCallback_data_count (s : State) (cb : Nat) (c : BitVec 8) : (cfgCallback cb c s).data_count = s.data_count := rfl
@[simp] theorem cfgCallback_data_maxsize (s : State) (cb : Nat) (c : BitVec 8) : (cfgCallback cb c s).data_maxsize = s.data_maxsize := rfl
@[simp] theorem cfgCallback_ep0size (s : State) (cb : Nat) (c : BitVec 8) : (cfgCallback cb c s).ep0size = s.ep0size := rfl
@[simp] theorem cfgCallback_device_cfg (s : State) (cb : Nat) (c : BitVec 8) : (cfgCallback cb c s).device_cfg = s.device_cfg := rfl
@[simp] theorem cfgCallback_device_state (s : State) (cb : Nat) (c : BitVec 8) : (cfgCallback cb c s).device_state = s.device_state := rfl
@[simp] theorem cfgCallback_control_state (s : State) (cb : Nat) (c : BitVec 8) : (cfgCallback cb c s).control_state = s.control_state := rfl
@[simp] theorem cfgCallback_ctl_cb (s : State) (cb : Nat) (c : BitVec 8) : (cfgCallback cb c s).ctl_cb = s.ctl_cb := rfl
@[simp] theorem cfgCallback_complete_cb (s : State) (cb : Nat) (c : BitVec 8) : (cfgCallback cb c s).complete_cb = s.complete_cb := rfl
@[simp] theorem cfgCallback_cfg_cb (s : State) (cb : Nat) (c : BitVec 8) : (cfgCallback cb c s).cfg_cb = s.cfg_cb := rfl
@[simp] theorem cfgCallback_dsc_cb (s : State) (cb : Nat) (c : BitVec 8) : (cfgCallback cb c s).dsc_cb = s.dsc_cb := rfl
@[simp] theorem cfgCallback_evt_cb (s : State) (cb : Nat) (c : BitVec 8) : (cfgCallback cb c s).evt_cb = s.evt_cb := rfl
@[simp] theorem cfgCallback_ep_cb (s : State) (cb : Nat) (c : BitVec 8) : (cfgCallback cb c s).ep_cb = s.ep_cb := rfl
@[simp] theorem cfgCallback_pend_addr_v (s : State) (cb : Nat) (c : BitVec 8) : (cfgCallback cb c s).pend_addr_v = s.pend_addr_v := rfl
@[simp] theorem cfgCallback_pend_addr (s : State) (cb : Nat) (c : BitVec 8) : (cfgCallback cb c s).pend_addr = s.pend_addr := rfl
@[simp] theorem cfgCallback_tx_short (s : State) (cb : Nat) (c : BitVec 8) : (cfgCallback cb c s).tx_short = s.tx_short := rfl
@[simp] theorem cfgCallback_mem (s : State) (cb : Nat) (c : BitVec 8) : (cfgCallback cb c s).mem = s.mem := rfl
@[simp] theorem cfgCallback_hab (s : State) (cb : Nat) (c : BitVec 8) : (cfgCallback cb c s).hab = s.hab := rfl
@[simp] theorem cfgCallback_inputs (s : State) (cb : Nat) (c : BitVec 8) : (cfgCallback cb c s).inputs = s.inputs := rfl
@[simp] theorem cfgCallback_answers (s : State) (cb : Nat) (c : BitVec 8) : (cfgCallback cb c s).answers = s.answers := rfl
@[simp] theorem cfgCallback_trace (s : State) (cb : Nat) (c : BitVec 8) : (cfgCallback cb c s).trace = s.trace ++ [.cfgCb cb c s.answers.cfg] := rfl
@[simp] theorem cfgCallback_cause (s : State) (cb : Nat) (c : BitVec 8) : (cfgCallback cb c s).cause = s.cause := rfl
@[simp] theorem cfgCallback_resp (s : State) (cb : Nat) (c : BitVec 8) : (cfgCallback cb c s).resp = s.resp := rfl
@[simp] theorem cfgCallback_draws (s : State) (cb : Nat) (c : BitVec 8) : (cfgCallback cb c s).draws = s.draws := rfl

/-! ### isStalledCall -/

@[simp] theorem isStalledCall_params (s : State) (ep : Byte) : (isStalledCall ep s).params = s.params := rfl
@[simp] theorem isStalledCall_data_buf (s : State) (ep : Byte) : (isStalledCall ep s).data_buf = s.data_buf := rfl
@[simp] theorem isStalledCall_data_ptr (s : State) (ep : Byte) : (isStalledCall ep s).data_ptr = s.data_ptr := rfl
@[simp] theorem isStalledCall_data_count (s : State) (ep : Byte) : (isStalledCall ep s).data_count = s.data_count := rfl
@[simp] theorem isStalledCall_data_maxsize (s : State) (ep : Byte) : (isStalledCall ep s).data_maxsize = s.data_maxsize := rfl
@[simp] theorem isStalledCall_ep0size (s : State) (ep : Byte) : (isStalledCall ep s).ep0size = s.ep0size := rfl
@[simp] theorem isStalledCall_device_cfg (s : State) (ep : Byte) : (isStalledCall ep s).device_cfg = s.device_cfg := rfl
@[simp] theorem isStalledCall_device_state (s : State) (ep : Byte) : (isStalledCall ep s).device_state = s.device_state := rfl
@[simp] theorem isStalledCall_control_state (s : State) (ep : Byte) : (isStalledCall ep s).control_state = s.control_state := rfl
@[simp] theorem isStalledCall_ctl_cb (s : State) (ep : Byte) : (isStalledCall ep s).ctl_cb = s.ctl_cb := rfl
@[simp] theorem isStalledCall_complete_cb (s : State) (ep : Byte) : (isStalledCall ep s).complete_cb = s.complete_cb := rfl
@[simp] theorem isStalledCall_cfg_cb (s : State) (ep : Byte) : (isStalledCall ep s).cfg_cb = s.cfg_cb := rfl
@[simp] theorem isStalledCall_dsc_cb (s : State) (ep : Byte) : (isStalledCall ep s).dsc_cb = s.dsc_cb := rfl
@[simp] theorem isStalledCall_evt_cb (s : State) (ep : Byte) : (isStalledCall ep s).evt_cb = s.evt_cb := rfl
@[simp] theorem isStalledCall_ep_cb (s : State) (ep : Byte) : (isStalledCall ep s).ep_cb = s.ep_cb := rfl
@[simp] theorem isStalledCall_pend_addr_v (s : State) (ep : Byte) : (isStalledCall ep s).pend_addr_v = s.pend_addr_v := rfl
@[simp] theorem isStalledCall_pend_addr (s : State) (ep : Byte) : (isStalledCall ep s).pend_addr = s.pend_addr := rfl
@[simp] theorem isStalledCall_tx_short (s : State) (ep : Byte) : (isStalledCall ep s).tx_short = s.tx_short := rfl
@[simp] theorem isStalledCall_mem (s : State) (ep : Byte) : (isStalledCall ep s).mem = s.mem := rfl
@[simp] theorem isStalledCall_hab (s : State) (ep : Byte) : (isStalledCall ep s).hab = s.hab := rfl
@[simp] theorem isStalledCall_inputs (s : State) (ep : Byte) : (isStalledCall ep s).inputs = s.inputs := rfl
@[simp] theorem isStalledCall_answers (s : State) (ep : Byte) : (isStalledCall ep s).answers = s.answers := rfl
@[simp] theorem isStalledCall_trace (s : State) (ep : Byte) : (isStalledCall ep s).trace = s.trace ++ [.epIsStalled ep s.answers.stalled] := rfl
@[simp] theorem isStalledCall_cause (s : State) (ep : Byte) : (isStalledCall ep s).cause = s.cause := rfl
@[simp] theorem isStalledCall_resp (s : State) (ep : Byte) : (isStalledCall ep s).resp = s.resp := rfl
@[simp] theorem isStalledCall_draws (s : State) (ep : Byte) : (isStalledCall ep s).draws = s.draws := rfl

/-! ### statusQueued -/

@[simp] theorem statusQueued_params (s : State) : (statusQueued s).params = s.params := rfl
@[simp] theorem statusQueued_data_buf (s : State) : (statusQueued s).data_buf = s.data_buf := rfl
@[simp] theorem statusQueued_data_ptr (s : State) : (statusQueued s).data_ptr = s.data_ptr := rfl
@[simp] theorem statusQueued_data_count (s : State) : (statusQueued s).data_count = s.data_count := rfl
@[simp] theorem statusQueued_data_maxsize (s : State) : (statusQueued s).data_maxsize = s.data_maxsize := rfl
@[simp] theorem statusQueued_ep0size (s : State) : (statusQueued s).ep0size = s.ep0size := rfl
@[simp] theorem statusQueued_device_cfg (s : State) : (statusQueued s).device_cfg = s.device_cfg := rfl
@[simp] theorem statusQueued_device_state (s : State) : (statusQueued s).device_state = s.device_state := rfl
@[simp] theorem statusQueued_control_state (s : State) : (statusQueued s).control_state = .statusin := rfl
@[simp] theorem statusQueued_ctl_cb (s : State) : (statusQueued s).ctl_cb = s.ctl_cb := rfl
@[simp] theorem statusQueued_complete_cb (s : State) : (statusQueued s).complete_cb = s.complete_cb := rfl
@[simp] theorem statusQueued_cfg_cb (s : State) : (statusQueued s).cfg_cb = s.cfg_cb := rfl
@[simp] theorem statusQueued_dsc_cb (s : State) : (statusQueued s).dsc_cb = s.dsc_cb := rfl
@[simp] theorem statusQueued_evt_cb (s : State) : (statusQueued s).evt_cb = s.evt_cb := rfl
@[simp] theorem statusQueued_ep_cb (s : State) : (statusQueued s).ep_cb = s.ep_cb := rfl
@[simp] theorem statusQueued_pend_addr_v (s : State) : (statusQueued s).pend_addr_v = s.pend_addr_v := rfl
@[simp] theorem statusQueued_pend_addr (s : State) : (statusQueued s).pend_addr = s.pend_addr := rfl
@[simp] theorem statusQueued_tx_short (s : State) : (statusQueued s).tx_short = s.tx_short := rfl
@[simp] theorem statusQueued_mem (s : State) : (statusQueued s).mem = s.mem := rfl
@[simp] theorem statusQueued_hab (s : State) : (statusQueued s).hab = { s.hab with tx_pending := some [] } := rfl
@[simp] theorem statusQueued_inputs (s : State) : (statusQueued s).inputs = s.inputs := rfl
@[simp] theorem statusQueued_answers (s : State) : (statusQueued s).answers = s.answers := rfl
@[simp] theorem statusQueued_trace (s : State) : (statusQueued s).trace = s.trace ++ [.epWrite ep0In s.data_ptr 0 []] := rfl
@[simp] theorem statusQueued_cause (s : State) : (statusQueued s).cause = s.cause := rfl
@[simp] theorem statusQueued_resp (s : State) : (statusQueued s).resp = s.resp := rfl
@[simp] theorem statusQueued_draws (s : State) : (statusQueued s).draws = s.draws := rfl

/-! ### firstChunkSent -/

@[simp] theorem firstChunkSent_params (s : State) (w : BitVec 16) (p : Response) : (firstChunkSent w p s).params = s.params := rfl
@[simp] theorem firstChunkSent_data_buf (s : State) (w : BitVec 16) (p : Response) : (firstChunkSent w p s).data_buf = s.data_buf := rfl
@[simp] theorem firstChunkSent_data_ptr (s : State) (w : BitVec 16) (p : Response) : (firstChunkSent w p s).data_ptr = p.ptr + min (min w.toNat p.len.toNat) s.ep0size.toNat := rfl
@[simp] theorem firstChunkSent_data_count (s : State) (w : BitVec 16) (p : Response) : (firstChunkSent w p s).data_count = BitVec.ofNat 16 (min w.toNat p.len.toNat - min (min w.toNat p.len.toNat) s.ep0size.toNat) := rfl
@[simp] theorem firstChunkSent_data_maxsize (s : State) (w : BitVec 16) (p : Response) : (firstChunkSent w p s).data_maxsize = s.data_maxsize := rfl
@[simp] theorem firstChunkSent_ep0size (s : State) (w : BitVec 16) (p : Response) : (firstChunkSent w p s).ep0size = s.ep0size := rfl
@[simp] theorem firstChunkSent_device_cfg (s : State) (w : BitVec 16) (p : Response) : (firstChunkSent w p s).device_cfg = s.device_cfg := rfl
@[simp] theorem firstChunkSent_device_state (s : State) (w : BitVec 16) (p : Response) : (firstChunkSent w p s).device_state = s.device_state := rfl
@[simp] theorem firstChunkSent_ctl_cb (s : State) (w : BitVec 16) (p : Response) : (firstChunkSent w p s).ctl_cb = s.ctl_cb := rfl
@[simp] theorem firstChunkSent_complete_cb (s : State) (w : BitVec 16) (p : Response) : (firstChunkSent w p s).complete_cb = s.complete_cb := rfl
@[simp] theorem firstChunkSent_cfg_cb (s : State) (w : BitVec 16) (p : Response) : (firstChunkSent w p s).cfg_cb = s.cfg_cb := rfl
@[simp] theorem firstChunkSent_dsc_cb (s : State) (w : BitVec 16) (p : Response) : (firstChunkSent w p s).dsc_cb = s.dsc_cb := rfl
@[simp] theorem firstChunkSent_evt_cb (s : State) (w : BitVec 16) (p : Response) : (firstChunkSent w p s).evt_cb = s.evt_cb := rfl
@[simp] theorem firstChunkSent_ep_cb (s : State) (w : BitVec 16) (p : Response) : (firstChunkSent w p s).ep_cb = s.ep_cb := rfl
@[simp] theorem firstChunkSent_pend_addr_v (s : State) (w : BitVec 16) (p : Response) : (firstChunkSent w p s).pend_addr_v = s.pend_addr_v := rfl
@[simp] theorem firstChunkSent_pend_addr (s : State) (w : BitVec 16) (p : Response) : (firstChunkSent w p s).pend_addr = s.pend_addr := rfl
@[simp] theorem firstChunkSent_tx_short (s : State) (w : BitVec 16) (p : Response) : (firstChunkSent w p s).tx_short = decide (p.len.toNat < w.toNat) := rfl
@[simp] theorem firstChunkSent_mem (s : State) (w : BitVec 16) (p : Response) : (firstChunkSent w p s).mem = s.mem := rfl
@[simp] theorem firstChunkSent_inputs (s : State) (w : BitVec 16) (p : Response) : (firstChunkSent w p s).inputs = s.inputs := rfl
@[simp] theorem firstChunkSent_answers (s : State) (w : BitVec 16) (p : Response) : (firstChunkSent w p s).answers = s.answers := rfl
@[simp] theorem firstChunkSent_cause (s : State) (w : BitVec 16) (p : Response) : (firstChunkSent w p s).cause = s.cause := rfl
@[simp] theorem firstChunkSent_resp (s : State) (w : BitVec 16) (p : Response) : (firstChunkSent w p s).resp = p := rfl
@[simp] theorem firstChunkSent_draws (s : State) (w : BitVec 16) (p : Response) : (firstChunkSent w p s).draws = s.draws := rfl

/-! ### stalledState -/

@[simp] theorem stalledState_params (s : State) (c : StallCause) : (stalledState c s).params = s.params := rfl
@[simp] theorem stalledState_data_buf (s : State) (c : StallCause) : (stalledState c s).data_buf = s.data_buf := rfl
@[simp] theorem stalledState_data_ptr (s : State) (c : StallCause) : (stalledState c s).data_ptr = s.data_ptr := rfl
@[simp] theorem stalledState_data_count (s : State) (c : StallCause) : (stalledState c s).data_count = s.data_count := rfl
@[simp] theorem stalledState_data_maxsize (s : State) (c : StallCause) : (stalledState c s).data_maxsize = s.data_maxsize := rfl
@[simp] theorem stalledState_ep0size (s : State) (c : StallCause) : (stalledState c s).ep0size = s.ep0size := rfl
@[simp] theorem stalledState_device_cfg (s : State) (c : StallCause) : (stalledState c s).device_cfg = s.device_cfg := rfl
@[simp] theorem stalledState_device_state (s : State) (c : StallCause) : (stalledState c s).device_state = s.device_state := rfl
@[simp] theorem stalledState_control_state (s : State) (c : StallCause) : (stalledState c s).control_state = .idle := rfl
@[simp] theorem stalledState_ctl_cb (s : State) (c : StallCause) : (stalledState c s).ctl_cb = s.ctl_cb := rfl
@[simp] theorem stalledState_complete_cb (s : State) (c : StallCause) : (stalledState c s).complete_cb = s.complete_cb := rfl
@[simp] theorem stalledState_cfg_cb (s : State) (c : StallCause) : (stalledState c s).cfg_cb = s.cfg_cb := rfl
@[simp] theorem stalledState_dsc_cb (s : State) (c : StallCause) : (stalledState c s).dsc_cb = s.dsc_cb := rfl
@[simp] theorem stalledState_evt_cb (s : State) (c : StallCause) : (stalledState c s).evt_cb = s.evt_cb := rfl
@[simp] theorem stalledState_ep_cb (s : State) (c : StallCause) : (stalledState c s).ep_cb = s.ep_cb := rfl
@[simp] theorem stalledState_pend_addr_v (s : State) (c : StallCause) : (stalledState c s).pend_addr_v = s.pend_addr_v := rfl
@[simp] theorem stalledState_pend_addr (s : State) (c : StallCause) : (stalledState c s).pend_addr = s.pend_addr := rfl
@[simp] theorem stalledState_tx_short (s : State) (c : StallCause) : (stalledState c s).tx_short = s.tx_short := rfl
@[simp] theorem stalledState_mem (s : State) (c : StallCause) : (stalledState c s).mem = s.mem := rfl
@[simp] theorem stalledState_hab (s : State) (c : StallCause) : (stalledState c s).hab = (s.hab.setStall ep0Out true).setStall ep0In true := rfl
@[simp] theorem stalledState_inputs (s : State) (c : StallCause) : (stalledState c s).inputs = s.inputs := rfl
@[simp] theorem stalledState_answers (s : State) (c : StallCause) : (stalledState c s).answers = s.answers := rfl
@[simp] theorem stalledState_trace (s : State) (c : StallCause) : (stalledState c s).trace = s.trace ++ [.epSetStall ep0Out true, .epSetStall ep0In true] := rfl
@[simp] theorem stalledState_cause (s : State) (c : StallCause) : (stalledState c s).cause = some c := rfl
@[simp] theorem stalledState_resp (s : State) (c : StallCause) : (stalledState c s).resp = s.resp := rfl
@[simp] theorem stalledState_draws (s : State) (c : StallCause) : (stalledState c s).draws = s.draws := rfl

/-! ### completedState -/

@[simp] theorem completedState_params (s : State) : (completedState s).params = s.params := rfl
@[simp] theorem completedState_data_buf (s : State) : (completedState s).data_buf = s.data_buf := rfl
@[simp] theorem completedState_data_ptr (s : State) : (completedState s).data_ptr = s.data_ptr := rfl
@[simp] theorem completedState_data_count (s : State) : (completedState s).data_count = s.data_count := rfl
@[simp] theorem completedState_data_maxsize (s : State) : (completedState s).data_maxsize = s.data_maxsize := rfl
@[simp] theorem completedState_ep0size (s : State) : (completedState s).ep0size = s.ep0size := rfl
@[simp] theorem completedState_device_cfg (s : State) : (completedState s).device_cfg = s.device_cfg := rfl
@[simp] theorem completedState_control_state (s : State) : (completedState s).control_state = .idle := rfl
@[simp] theorem completedState_ctl_cb (s : State) : (completedState s).ctl_cb = s.ctl_cb := rfl
@[simp] theorem completedState_complete_cb (s : State) : (completedState s).complete_cb = none := rfl
@[simp] theorem completedState_cfg_cb (s : State) : (completedState s).cfg_cb = s.cfg_cb := rfl
@[simp] theorem completedState_dsc_cb (s : State) : (completedState s).dsc_cb = s.dsc_cb := rfl
@[simp] theorem completedState_evt_cb (s : State) : (completedState s).evt_cb = s.evt_cb := rfl
@[simp] theorem completedState_ep_cb (s : State) : (completedState s).ep_cb = s.ep_cb := rfl
@[simp] theorem completedState_pend_addr_v (s : State) : (completedState s).pend_addr_v = false := rfl
@[simp] theorem completedState_pend_addr (s : State) : (completedState s).pend_addr = s.pend_addr := rfl
@[simp] theorem completedState_tx_short (s : State) : (completedState s).tx_short = s.tx_short := rfl
@[simp] theorem completedState_mem (s : State) : (completedState s).mem = s.mem := rfl
@[simp] theorem completedState_inputs (s : State) : (completedState s).inputs = s.inputs := rfl
@[simp] theorem completedState_answers (s : State) : (completedState s).answers = s.answers := rfl
@[simp] theorem completedState_cause (s : State) : (completedState s).cause = s.cause := rfl
@[simp] theorem completedState_resp (s : State) : (completedState s).resp = s.resp := rfl
@[simp] theorem completedState_draws (s : State) : (completedState s).draws = s.draws := rfl

/-! ### packetRead -/

@[simp] theorem packetRead_params (s : State) (buf len : Nat) : (packetRead buf len s).params = s.params := rfl
@[simp] theorem packetRead_data_buf (s : State) (buf len : Nat) : (packetRead buf len s).data_buf = s.data_buf := rfl
@[simp] theorem packetRead_data_ptr (s : State) (buf len : Nat) : (packetRead buf len s).data_ptr = s.data_ptr := rfl
@[simp] theorem packetRead_data_count (s : State) (buf len : Nat) : (packetRead buf len s).data_count = s.data_count := rfl
@[simp] theorem packetRead_data_maxsize (s : State) (buf len : Nat) : (packetRead buf len s).data_maxsize = s.data_maxsize := rfl
@[simp] theorem packetRead_ep0size (s : State) (buf len : Nat) : (packetRead buf len s).ep0size = s.ep0size := rfl
@[simp] theorem packetRead_device_cfg (s : State) (buf len : Nat) : (packetRead buf len s).device_cfg = s.device_cfg := rfl
@[simp] theorem packetRead_device_state (s : State) (buf len : Nat) : (packetRead buf len s).device_state = s.device_state := rfl
@[simp] theorem packetRead_control_state (s : State) (buf len : Nat) : (packetRead buf len s).control_state = s.control_state := rfl
@[simp] theorem packetRead_ctl_cb (s : State) (buf len : Nat) : (packetRead buf len s).ctl_cb = s.ctl_cb := rfl
@[simp] theorem packetRead_complete_cb (s : State) (buf len : Nat) : (packetRead buf len s).complete_cb = s.complete_cb := rfl
@[simp] theorem packetRead_cfg_cb (s : State) (buf len : Nat) : (packetRead buf len s).cfg_cb = s.cfg_cb := rfl
@[simp] theorem packetRead_dsc_cb (s : State) (buf len : Nat) : (packetRead buf len s).dsc_cb = s.dsc_cb := rfl
@[simp] theorem packetRead_evt_cb (s : State) (buf len : Nat) : (packetRead buf len s).evt_cb = s.evt_cb := rfl
@[simp] theorem packetRead_ep_cb (s : State) (buf len : Nat) : (packetRead buf len s).ep_cb = s.ep_cb := rfl
@[simp] theorem packetRead_pend_addr_v (s : State) (buf len : Nat) : (packetRead buf len s).pend_addr_v = s.pend_addr_v := rfl
@[simp] theorem packetRead_pend_addr (s : State) (buf len : Nat) : (packetRead buf len s).pend_addr = s.pend_addr := rfl
@[simp] theorem packetRead_tx_short (s : State) (buf len : Nat) : (packetRead buf len s).tx_short = s.tx_short := rfl
@[simp] theorem packetRead_mem (s : State) (buf len : Nat) : (packetRead buf len s).mem = s.mem.writeBytes buf (rxBytes s.answers.rx len) := rfl
@[simp] theorem packetRead_hab (s : State) (buf len : Nat) : (packetRead buf len s).hab = { s.hab with rx_waiting := false } := rfl
@[simp] theorem packetRead_inputs (s : State) (buf len : Nat) : (packetRead buf len s).inputs = s.inputs := rfl
@[simp] theorem packetRead_answers (s : State) (buf len : Nat) : (packetRead buf len s).answers = s.answers := rfl
@[simp] theorem packetRead_trace (s : State) (buf len : Nat) : (packetRead buf len s).trace = s.trace ++ [.epRead ep0Out buf len s.answers.rx.result] := rfl
@[simp] theorem packetRead_cause (s : State) (buf len : Nat) : (packetRead buf len s).cause = s.cause := rfl
@[simp] theorem packetRead_resp (s : State) (buf len : Nat) : (packetRead buf len s).resp = s.resp := rfl
@[simp] theorem packetRead_draws (s : State) (buf len : Nat) : (packetRead buf len s).draws = s.draws := rfl

/-! ### cursorSet -/

@[simp] theorem cursorSet_params (s : State) (r : Request) : (cursorSet r s).params = s.params := rfl
@[simp] theorem cursorSet_data_buf (s : State) (r : Request) : (cursorSet r s).data_buf = s.data_buf := rfl
@[simp] theorem cursorSet_data_ptr (s : State) (r : Request) : (cursorSet r s).data_ptr = s.data_buf + 8 := rfl
@[simp] theorem cursorSet_data_count (s : State) (r : Request) : (cursorSet r s).data_count = r.wLength := rfl
@[simp] theorem cursorSet_data_maxsize (s : State) (r : Request) : (cursorSet r s).data_maxsize = s.data_maxsize := rfl
@[simp] theorem cursorSet_ep0size (s : State) (r : Request) : (cursorSet r s).ep0size = s.ep0size := rfl
@[simp] theorem cursorSet_device_cfg (s : State) (r : Request) : (cursorSet r s).device_cfg = s.device_cfg := rfl
@[simp] theorem cursorSet_device_state (s : State) (r : Request) : (cursorSet r s).device_state = s.device_state := rfl
@[simp] theorem cursorSet_control_state (s : State) (r : Request) : (cursorSet r s).control_state = s.control_state := rfl
@[simp] theorem cursorSet_ctl_cb (s : State) (r : Request) : (cursorSet r s).ctl_cb = s.ctl_cb := rfl
@[simp] theorem cursorSet_complete_cb (s : State) (r : Request) : (cursorSet r s).complete_cb = s.complete_cb := rfl
@[simp] theorem cursorSet_cfg_cb (s : State) (r : Request) : (cursorSet r s).cfg_cb = s.cfg_cb := rfl
@[simp] theorem cursorSet_dsc_cb (s : State) (r : Request) : (cursorSet r s).dsc_cb = s.dsc_cb := rfl
@[simp] theorem cursorSet_evt_cb (s : State) (r : Request) : (cursorSet r s).evt_cb = s.evt_cb := rfl
@[simp] theorem cursorSet_ep_cb (s : State) (r : Request) : (cursorSet r s).ep_cb = s.ep_cb := rfl
@[simp] theorem cursorSet_pend_addr_v (s : State) (r : Request) : (cursorSet r s).pend_addr_v = s.pend_addr_v := rfl
@[simp] theorem cursorSet_pend_addr (s : State) (r : Request) : (cursorSet r s).pend_addr = s.pend_addr := rfl
@[simp] theorem cursorSet_tx_short (s : State) (r : Request) : (cursorSet r s).tx_short = s.tx_short := rfl
@[simp] theorem cursorSet_mem (s : State) (r : Request) : (cursorSet r s).mem = s.mem := rfl
@[simp] theorem cursorSet_hab (s : State) (r : Request) : (cursorSet r s).hab = s.hab := rfl
@[simp] theorem cursorSet_inputs (s : State) (r : Request) : (cursorSet r s).inputs = s.inputs := rfl
@[simp] theorem cursorSet_answers (s : State) (r : Request) : (cursorSet r s).answers = s.answers := rfl
@[simp] theorem cursorSet_trace (s : State) (r : Request) : (cursorSet r s).trace = s.trace := rfl
@[simp] theorem cursorSet_cause (s : State) (r : Request) : (cursorSet r s).cause = s.cause := rfl
@[simp] theorem cursorSet_resp (s : State) (r : Request) : (cursorSet r s).resp = s.resp := rfl
@[simp] theorem cursorSet_draws (s : State) (r : Request) : (cursorSet r s).draws = s.draws := rfl

/-! ### take -/

@[simp] theorem take_params (s : State) (d : Delivery) (rest : List Delivery) : (s.take d rest).params = s.params := rfl
@[simp] theorem take_data_buf (s : State) (d : Delivery) (rest : List Delivery) : (s.take d rest).data_buf = s.data_buf := rfl
@[simp] theorem take_data_ptr (s : State) (d : Delivery) (rest : List Delivery) : (s.take d rest).data_ptr = s.data_ptr := rfl
@[simp] theorem take_data_count (s : State) (d : Delivery) (rest : List Delivery) : (s.take d rest).data_count = s.data_count := rfl
@[simp] theorem take_data_maxsize (s : State) (d : Delivery) (rest : List Delivery) : (s.take d rest).data_maxsize = s.data_maxsize := rfl
@[simp] theorem take_ep0size (s : State) (d : Delivery) (rest : List Delivery) : (s.take d rest).ep0size = s.ep0size := rfl
@[simp] theorem take_device_cfg (s : State) (d : Delivery) (rest : List Delivery) : (s.take d rest).device_cfg = s.device_cfg := rfl
@[simp] theorem take_device_state (s : State) (d : Delivery) (rest : List Delivery) : (s.take d rest).device_state = s.device_state := rfl
@[simp] theorem take_control_state (s : State) (d : Delivery) (rest : List Delivery) : (s.take d rest).control_state = s.control_state := rfl
@[simp] theorem take_ctl_cb (s : State) (d : Delivery) (rest : List Delivery) : (s.take d rest).ctl_cb = s.ctl_cb := rfl
@[simp] theorem take_complete_cb (s : State) (d : Delivery) (rest : List Delivery) : (s.take d rest).complete_cb = s.complete_cb := rfl
@[simp] theorem take_cfg_cb (s : State) (d : Delivery) (rest : List Delivery) : (s.take d rest).cfg_cb = s.cfg_cb := rfl
@[simp] theorem take_dsc_cb (s : State) (d : Delivery) (rest : List Delivery) : (s.take d rest).dsc_cb = s.dsc_cb := rfl
@[simp] theorem take_evt_cb (s : State) (d : Delivery) (rest : List Delivery) : (s.take d rest).evt_cb = s.evt_cb := rfl
@[simp] theorem take_ep_cb (s : State) (d : Delivery) (rest : List Delivery) : (s.take d rest).ep_cb = s.ep_cb := rfl
@[simp] theorem take_pend_addr_v (s : State) (d : Delivery) (rest : List Delivery) : (s.take d rest).pend_addr_v = s.pend_addr_v := rfl
@[simp] theorem take_pend_addr (s : State) (d : Delivery) (rest : List Delivery) : (s.take d rest).pend_addr = s.pend_addr := rfl
@[simp] theorem take_tx_short (s : State) (d : Delivery) (rest : List Delivery) : (s.take d rest).tx_short = s.tx_short := rfl
@[simp] theorem take_mem (s : State) (d : Delivery) (rest : List Delivery) : (s.take d rest).mem = s.mem := rfl
@[simp] theorem take_hab (s : State) (d : Delivery) (rest : List Delivery) : (s.take d rest).hab = s.hab := rfl
@[simp] theorem take_inputs (s : State) (d : Delivery) (rest : List Delivery) : (s.take d rest).inputs = rest := rfl
@[simp] theorem take_answers (s : State) (d : Delivery) (rest : List Delivery) : (s.take d rest).answers = d.answers := rfl
@[simp] theorem take_trace (s : State) (d : Delivery) (rest : List Delivery) : (s.take d rest).trace = [] := rfl
@[simp] theorem take_cause (s : State) (d : Delivery) (rest : List Delivery) : (s.take d rest).cause = none := rfl
@[simp] theorem take_resp (s : State) (d : Delivery) (rest : List Delivery) : (s.take d rest).resp = s.resp := rfl
@[simp] theorem take_draws (s : State) (d : Delivery) (rest : List Delivery) : (s.take d rest).draws = s.draws := rfl

/-! ### Operations that look at a slot or a flag -/

@[simp] theorem eventCallback_params (s : State) (k : EventKind) (ep : Byte) : (eventCallback k ep s).params = s.params := by
  unfold eventCallback; split <;> rfl
@[simp] theorem eventCallback_data_buf (s : State) (k : EventKind) (ep : Byte) : (eventCallback k ep s).data_buf = s.data_buf := by
  unfold eventCallback; split <;> rfl
@[simp] theorem eventCallback_data_ptr (s : State) (k : EventKind) (ep : Byte) : (eventCallback k ep s).data_ptr = s.data_ptr := by
  unfold eventCallback; split <;> rfl
@[simp] theorem eventCallback_data_count (s : State) (k : EventKind) (ep : Byte) : (eventCallback k ep s).data_count = s.data_count := by
  unfold eventCallback; split <;> rfl
@[simp] theorem eventCallback_data_maxsize (s : State) (k : EventKind) (ep : Byte) : (eventCallback k ep s).data_maxsize = s.data_maxsize := by
  unfold eventCallback; split <;> rfl
@[simp] theorem eventCallback_ep0size (s : State) (k : EventKind) (ep : Byte) : (eventCallback k ep s).ep0size = s.ep0size := by
  unfold eventCallback; split <;> rfl
@[simp] theorem eventCallback_device_cfg (s : State) (k : EventKind) (ep : Byte) : (eventCallback k ep s).device_cfg = s.device_cfg := by
  unfold eventCallback; split <;> rfl
@[simp] theorem eventCallback_device_state (s : State) (k : EventKind) (ep : Byte) : (eventCallback k ep s).device_state = s.device_state := by
  unfold eventCallback; split <;> rfl
@[simp] theorem eventCallback_control_state (s : State) (k : EventKind) (ep : Byte) : (eventCallback k ep s).control_state = s.control_state := by
  unfold eventCallback; split <;> rfl
@[simp] theorem eventCallback_ctl_cb (s : State) (k : EventKind) (ep : Byte) : (eventCallback k ep s).ctl_cb = s.ctl_cb := by
  unfold eventCallback; split <;> rfl
@[simp] theorem eventCallback_complete_cb (s : State) (k : EventKind) (ep : Byte) : (eventCallback k ep s).complete_cb = s.complete_cb := by
  unfold eventCallback; split <;> rfl
@[simp] theorem eventCallback_cfg_cb (s : State) (k : EventKind) (ep : Byte) : (eventCallback k ep s).cfg_cb = s.cfg_cb := by
  unfold eventCallback; split <;> rfl
@[simp] theorem eventCallback_dsc_cb (s : State) (k : EventKind) (ep : Byte) : (eventCallback k ep s).dsc_cb = s.dsc_cb := by
  unfold eventCallback; split <;> rfl
@[simp] theorem eventCallback_evt_cb (s : State) (k : EventKind) (ep : Byte) : (eventCallback k ep s).evt_cb = s.evt_cb := by
  unfold eventCallback; split <;> rfl
@[simp] theorem eventCallback_ep_cb (s : State) (k : EventKind) (ep : Byte) : (eventCallback k ep s).ep_cb = s.ep_cb := by
  unfold eventCallback; split <;> rfl
@[simp] theorem eventCallback_pend_addr_v (s : State) (k : EventKind) (ep : Byte) : (eventCallback k ep s).pend_addr_v = s.pend_addr_v := by
  unfold eventCallback; split <;> rfl
@[simp] theorem eventCallback_pend_addr (s : State) (k : EventKind) (ep : Byte) : (eventCallback k ep s).pend_addr = s.pend_addr := by
  unfold eventCallback; split <;> rfl
@[simp] theorem eventCallback_tx_short (s : State) (k : EventKind) (ep : Byte) : (eventCallback k ep s).tx_short = s.tx_short := by
  unfold eventCallback; split <;> rfl
@[simp] theorem eventCallback_mem (s : State) (k : EventKind) (ep : Byte) : (eventCallback k ep s).mem = s.mem := by
  unfold eventCallback; split <;> rfl
@[simp] theorem eventCallback_hab (s : State) (k : EventKind) (ep : Byte) : (eventCallback k ep s).hab = s.hab := by
  unfold eventCallback; split <;> rfl
@[simp] theorem eventCallback_inputs (s : State) (k : EventKind) (ep : Byte) : (eventCallback k ep s).inputs = s.inputs := by
  unfold eventCallback; split <;> rfl
@[simp] theorem eventCallback_answers (s : State) (k : EventKind) (ep : Byte) : (eventCallback k ep s).answers = s.answers := by
  unfold eventCallback; split <;> rfl
@[simp] theorem eventCallback_cause (s : State) (k : EventKind) (ep : Byte) : (eventCallback k ep s).cause = s.cause := by
  unfold eventCallback; split <;> rfl
@[simp] theorem eventCallback_resp (s : State) (k : EventKind) (ep : Byte) : (eventCallback k ep s).resp = s.resp := by
  unfold eventCallback; split <;> rfl
@[simp] theorem eventCallback_draws (s : State) (k : EventKind) (ep : Byte) : (eventCallback k ep s).draws = s.draws := by
  unfold eventCallback; split <;> rfl

@[simp] theorem applyPendingAddress_params (s : State) : (applyPendingAddress s).params = s.params := by
  unfold applyPendingAddress; split <;> rfl
@[simp] theorem applyPendingAddress_data_buf (s : State) : (applyPendingAddress s).data_buf = s.data_buf := by
  unfold applyPendingAddress; split <;> rfl
@[simp] theorem applyPendingAddress_data_ptr (s : State) : (applyPendingAddress s).data_ptr = s.data_ptr := by
  unfold applyPendingAddress; split <;> rfl
@[simp] theorem applyPendingAddress_data_count (s : State) : (applyPendingAddress s).data_count = s.data_count := by
  unfold applyPendingAddress; split <;> rfl
@[simp] theorem applyPendingAddress_data_maxsize (s : State) : (applyPendingAddress s).data_maxsize = s.data_maxsize := by
  unfold applyPendingAddress; split <;> rfl
@[simp] theorem applyPendingAddress_ep0size (s : State) : (applyPendingAddress s).ep0size = s.ep0size := by
  unfold applyPendingAddress; split <;> rfl
@[simp] theorem applyPendingAddress_device_cfg (s : State) : (applyPendingAddress s).device_cfg = s.device_cfg := by
  unfold applyPendingAddress; split <;> rfl
@[simp] theorem applyPendingAddress_control_state (s : State) : (applyPendingAddress s).control_state = s.control_state := by
  unfold applyPendingAddress; split <;> rfl
@[simp] theorem applyPendingAddress_ctl_cb (s : State) : (applyPendingAddress s).ctl_cb = s.ctl_cb := by
  unfold applyPendingAddress; split <;> rfl
@[simp] theorem applyPendingAddress_complete_cb (s : State) : (applyPendingAddress s).complete_cb = s.complete_cb := by
  unfold applyPendingAddress; split <;> rfl
@[simp] theorem applyPendingAddress_cfg_cb (s : State) : (applyPendingAddress s).cfg_cb = s.cfg_cb := by
  unfold applyPendingAddress; split <;> rfl
@[simp] theorem applyPendingAddress_dsc_cb (s : State) : (applyPendingAddress s).dsc_cb = s.dsc_cb := by
  unfold applyPendingAddress; split <;> rfl
@[simp] theorem applyPendingAddress_evt_cb (s : State) : (applyPendingAddress s).evt_cb = s.evt_cb := by
  unfold applyPendingAddress; split <;> rfl
@[simp] theorem applyPendingAddress_ep_cb (s : State) : (applyPendingAddress s).ep_cb = s.ep_cb := by
  unfold applyPendingAddress; split <;> rfl
@[simp] theorem applyPendingAddress_pend_addr (s : State) : (applyPendingAddress s).pend_addr = s.pend_addr := by
  unfold applyPendingAddress; split <;> rfl
@[simp] theorem applyPendingAddress_tx_short (s : State) : (applyPendingAddress s).tx_short = s.tx_short := by
  unfold applyPendingAddress; split <;> rfl
@[simp] theorem applyPendingAddress_mem (s : State) : (applyPendingAddress s).mem = s.mem := by
  unfold applyPendingAddress; split <;> rfl
@[simp] theorem applyPendingAddress_inputs (s : State) : (applyPendingAddress s).inputs = s.inputs := by
  unfold applyPendingAddress; split <;> rfl
@[simp] theorem applyPendingAddress_answers (s : State) : (applyPendingAddress s).answers = s.answers := by
  unfold applyPendingAddress; split <;> rfl
@[simp] theorem applyPendingAddress_cause (s : State) : (applyPendingAddress s).cause = s.cause := by
  unfold applyPendingAddress; split <;> rfl
@[simp] theorem applyPendingAddress_resp (s : State) : (applyPendingAddress s).resp = s.resp := by
  unfold applyPendingAddress; split <;> rfl
@[simp] theorem applyPendingAddress_draws (s : State) : (applyPendingAddress s).draws = s.draws := by
  unfold applyPendingAddress; split <;> rfl

/-- R127: after the pending address is applied none is pending. -/
@[simp] theorem applyPendingAddress_pend_addr_v (s : State) : (applyPendingAddress s).pend_addr_v = false := by
  unfold applyPendingAddress
  split
  · rfl
  · simp_all

end Sys2Proof.Machine
end

