-- ==== Sys2Proof/Laws/Ops.lean ====
section
/-! SUPPORT. What each shared operation can do, said once: a memory access answers what follows it where it lies in
memory and stops elsewhere; a HAB operation leads to the state its name in Sys2Proof/Safety.lean says; a result ends in
one of three ways. -/

namespace Sys2Proof.Machine

/-! ### Lying in memory -/

theorem inMemory_iff (s : State) (a n : Nat) : s.inMemory a n = true ↔ n = 0 ∨ a + n ≤ 2 ^ s.params.ptrW := by
  simp [State.inMemory]

@[simp] theorem inMemory_zero (s : State) (a : Nat) : s.inMemory a 0 = true := by simp [State.inMemory]

theorem inMemory_of_le {s : State} {a n : Nat} (h : a + n ≤ 2 ^ s.params.ptrW) : s.inMemory a n = true :=
  (inMemory_iff s a n).2 (Or.inr h)

/-- Fewer bytes of what lies in memory lie in memory. -/
theorem inMemory_mono {s : State} {a n m : Nat} (h : s.inMemory a n = true) (hm : m ≤ n) : s.inMemory a m = true := by
  rw [inMemory_iff] at *; omega

/-! ### Accesses -/

theorem readMem_next {a n : Nat} {s t : State} {k : List Byte → Result} :
    readMem a n s k = .next t ↔ s.inMemory a n = true ∧ k (s.mem.readBytes a n) = .next t := by
  unfold readMem; split <;> simp_all

theorem readMem_eq {a n : Nat} {s : State} (h : s.inMemory a n = true) (k : List Byte → Result) :
    readMem a n s k = k (s.mem.readBytes a n) := if_pos h

theorem writeMem_next {a : Nat} {bs : List Byte} {s t : State} {k : State → Result} :
    writeMem a bs s k = .next t ↔
      s.inMemory a bs.length = true ∧ k { s with mem := s.mem.writeBytes a bs } = .next t := by
  unfold writeMem; split <;> simp_all

theorem writeMem_eq {a : Nat} {bs : List Byte} {s : State} (h : s.inMemory a bs.length = true) (k : State → Result) :
    writeMem a bs s k = k { s with mem := s.mem.writeBytes a bs } := if_pos h

theorem withRequest_next {s t : State} {k : Request → Result} :
    withRequest s k = .next t ↔ s.inMemory s.data_buf 8 = true ∧ k s.header = .next t := readMem_next

theorem withRequest_eq {s : State} (h : s.inMemory s.data_buf 8 = true) (k : Request → Result) :
    withRequest s k = k s.header := readMem_eq h _

/-! ### HAB operations -/

/-- R45: an `ep_read` that completes goes on from the state with the packet read. -/
theorem epRead_next {buf len : Nat} {s t : State} {k : BitVec 32 → State → Result} :
    epRead ep0Out buf len s k = .next t ↔
      s.inMemory buf (rxCount s.answers.rx len) = true ∧ k s.answers.rx.result (packetRead buf len s) = .next t := by
  unfold epRead
  rw [writeMem_next, rxBytes, length_firstBytes]
  rfl

theorem epRead_eq {buf len : Nat} {s : State} (h : s.inMemory buf len = true) (k : BitVec 32 → State → Result) :
    epRead ep0Out buf len s k = k s.answers.rx.result (packetRead buf len s) := by
  unfold epRead
  rw [writeMem_eq (by rw [rxBytes, length_firstBytes]; exact inMemory_mono h (rxCount_le _ _))]
  rfl

/-- R45: an `ep_read` of no bytes writes nothing, whatever the address. -/
@[simp] theorem packetRead_zero_mem (buf : Nat) (s : State) : (packetRead buf 0 s).mem = s.mem := by
  have h : rxCount s.answers.rx 0 = 0 := Nat.le_zero.1 (rxCount_le _ _)
  simp [rxBytes, h, firstBytes, Memory.writeBytes]

/-- R109: the status stage begins in the state with the zero-length packet queued. -/
theorem enterStatusIn_eq (s : State) : enterStatusIn s = .next (statusQueued s) := by
  unfold enterStatusIn epWrite
  rw [readMem_eq (inMemory_zero _ _)]
  rfl

/-- R152: the stall is the state its name says. -/
theorem stall_eq (c : StallCause) (s : State) : stall c s = stalledState c s := by
  unfold stall stalledState; rfl

/-- The arithmetic of R118: the count left after a chunk. -/
theorem count_sub (n : BitVec 16) (c : Nat) (h : c ≤ n.toNat) :
    n - BitVec.ofNat 16 c = BitVec.ofNat 16 (n.toNat - c) := by
  apply BitVec.eq_of_toNat_eq
  have := n.isLt
  rw [BitVec.toNat_sub, BitVec.toNat_ofNat, BitVec.toNat_ofNat]
  omega

/-- R118: what handing over a chunk does. -/
theorem sendChunk_eq {s : State} (h : s.inMemory s.data_ptr s.chunkLen = true) :
    sendChunk s = .next { s with
      trace := s.trace ++ [.epWrite ep0In s.data_ptr s.chunkLen (s.mem.readBytes s.data_ptr s.chunkLen)]
      hab := { s.hab with tx_pending := some (s.mem.readBytes s.data_ptr s.chunkLen) }
      data_ptr := s.data_ptr + s.chunkLen
      data_count := BitVec.ofNat 16 (s.data_count.toNat - s.chunkLen)
      control_state := afterChunk s s.chunkLen } := by
  unfold sendChunk epWrite
  rw [readMem_eq h, count_sub s.data_count s.chunkLen (Nat.min_le_left _ _)]
  rfl

theorem sendChunk_next {s t : State} (h : sendChunk s = .next t) : s.inMemory s.data_ptr s.chunkLen = true := by
  unfold sendChunk epWrite at h
  exact (readMem_next.1 h).1

theorem clampLen_toNat (w l : BitVec 16) : (clampLen w l).toNat = min w.toNat l.toNat := by
  unfold clampLen; split <;> omega

/-- R104: an IN data stage begins in the state with its first chunk sent. -/
theorem beginDataIn_eq {w : BitVec 16} {p : Response} {s : State}
    (h : s.inMemory p.ptr (min (min w.toNat p.len.toNat) s.ep0size.toNat) = true) :
    beginDataIn w { s with resp := p } = .next (firstChunkSent w p s) := by
  unfold beginDataIn
  rw [sendChunk_eq (by simpa [State.chunkLen, clampLen_toNat, State.inMemory] using h)]
  simp only [State.chunkLen, clampLen_toNat, firstChunkSent, afterChunk, txShort]
  congr 1
  congr 1
  congr 1
  exact propext ⟨by omega, by omega⟩

theorem beginDataIn_next {w : BitVec 16} {p : Response} {s t : State} (h : beginDataIn w { s with resp := p } = .next t) :
    s.inMemory p.ptr (min (min w.toNat p.len.toNat) s.ep0size.toNat) = true ∧ t = firstChunkSent w p s := by
  have hm : s.inMemory p.ptr (min (min w.toNat p.len.toNat) s.ep0size.toNat) = true := by
    have := sendChunk_next h
    simpa [State.chunkLen, clampLen_toNat, State.inMemory] using this
  rw [beginDataIn_eq hm] at h
  exact ⟨hm, by simpa using h.symm⟩

/-! ### Results -/

theorem firstChunkFits_inMemory {w : BitVec 16} {p : Response} {s : State} (h : firstChunkFits w p s) :
    s.inMemory p.ptr (min (min w.toNat p.len.toNat) s.ep0size.toNat) = true := inMemory_of_le h

theorem stageOf_noData {r : Request} (h : r.wLength = 0) : stageOf r = .noData := if_pos h

theorem stageOf_in {r : Request} (h : r.wLength ≠ 0) (hd : r.dir = true) : stageOf r = .inData r.wLength := by
  unfold stageOf; rw [if_neg h, if_pos hd]

theorem stageOf_out {r : Request} (h : r.wLength ≠ 0) (hd : ¬ r.dir = true) : stageOf r = .outData := by
  unfold stageOf; rw [if_neg h, if_neg hd]

theorem accepted_in {r : Request} (h : r.wLength ≠ 0) (hd : r.dir = true) (p : Response) (s : State) :
    accepted r p s = firstChunkSent r.wLength p s := if_pos ⟨h, hd⟩

theorem accepted_other {r : Request} (h : ¬ (r.wLength ≠ 0 ∧ r.dir = true)) (p : Response) (s : State) :
    accepted r p s = statusQueued { s with resp := p } := if_neg h

/-- R101, R104: an acked request goes on as its class says. -/
theorem finish_ack {r : Request} {p : Response} {s : State}
    (h : r.wLength ≠ 0 → r.dir = true → firstChunkFits r.wLength p s) :
    finish (stageOf r) .ack p s = .next (accepted r p s) := by
  unfold finish
  by_cases hw : r.wLength = 0
  · rw [stageOf_noData hw, accepted_other (by simp [hw])]; exact enterStatusIn_eq _
  · by_cases hd : r.dir = true
    · rw [stageOf_in hw hd, accepted_in hw hd]; exact beginDataIn_eq (firstChunkFits_inMemory (h hw hd))
    · rw [stageOf_out hw hd, accepted_other (by simp [hd])]; exact enterStatusIn_eq _

theorem finish_ack_next {r : Request} {p : Response} {s t : State} (h : finish (stageOf r) .ack p s = .next t) :
    t = accepted r p s := by
  unfold finish at h
  by_cases hw : r.wLength = 0
  · rw [stageOf_noData hw] at h
    rw [accepted_other (by simp [hw])]
    exact (Host.Outcome.next.inj ((enterStatusIn_eq _).symm.trans h)).symm
  · by_cases hd : r.dir = true
    · rw [stageOf_in hw hd] at h
      rw [accepted_in hw hd]; exact (beginDataIn_next h).2
    · rw [stageOf_out hw hd] at h
      rw [accepted_other (by simp [hd])]
      exact (Host.Outcome.next.inj ((enterStatusIn_eq _).symm.trans h)).symm

/-- R102, R157. -/
theorem finish_nak (stage : Stage) (p : Response) (s : State) : finish stage .nak p s = .next s := rfl

/-- R103. -/
theorem finish_fail (stage : Stage) (p : Response) (s : State) :
    finish stage .fail p s = .next (stalledState .requestFailed s) := by
  unfold finish resultFail; rw [stall_eq]

/-- R132, R140. -/
theorem unserved_eq (r : Request) (s : State) : unserved r s = .next (stalledState .requestFailed s) :=
  finish_fail _ _ _

/-- R134 to R136, R139: an empty response lies in memory wherever its free pointer points. -/
theorem served_eq (r : Request) (s : State) :
    served r s = .next (accepted r s.emptyResponse { s with draws := s.draws + 1 }) := by
  unfold served
  apply finish_ack
  intro _ _
  have := Nat.mod_lt (Config.freePtr s.draws) (Nat.two_pow_pos s.params.ptrW)
  simp only [firstChunkFits, State.emptyResponse, State.addr]
  simp
  omega

/-- R127: the end of a transfer. -/
theorem complete_eq {s : State} (h : s.complete_cb = none ∨ s.inMemory s.data_buf 8 = true) :
    complete s = .next (completedState s) := by
  unfold complete finishTransfer
  cases hc : s.complete_cb with
  | none =>
    simp only [applyPendingAddress_complete_cb, hc]
    unfold applyPendingAddress completedState
    cases hp : s.pend_addr_v <;> (simp [hc, setAddress, State.call, stateForAddress]; try simp [← hp])
  | some cb =>
    have hm : s.inMemory s.data_buf 8 = true := by simpa [hc] using h
    simp only [applyPendingAddress_complete_cb, hc]
    rw [withRequest_eq (by simpa [State.inMemory] using hm)]
    unfold applyPendingAddress completedState
    cases hp : s.pend_addr_v <;>
      (simp [hc, setAddress, State.call, stateForAddress, State.header]; try simp [← hp])

theorem complete_next {s t : State} (h : complete s = .next t) :
    (s.complete_cb = none ∨ s.inMemory s.data_buf 8 = true) ∧ t = completedState s := by
  have hc : s.complete_cb = none ∨ s.inMemory s.data_buf 8 = true := by
    cases hc : s.complete_cb with
    | none => exact Or.inl rfl
    | some cb =>
      right
      unfold complete finishTransfer at h
      simp only [applyPendingAddress_complete_cb, hc] at h
      simpa [State.inMemory] using (withRequest_next.1 h).1
  rw [complete_eq hc] at h
  exact ⟨hc, by simpa using h.symm⟩

/-! ### Codes -/

@[simp] theorem ofCode_ack : Res.ofCode 1 = .ack := rfl
@[simp] theorem ofCode_nak : Res.ofCode 2 = .nak := rfl

/-- R75. -/
theorem ofCode_fail {c : BitVec 8} (h1 : c ≠ 1) (h2 : c ≠ 2) : Res.ofCode c = .fail := by
  unfold Res.ofCode
  split
  · exact absurd (BitVec.eq_of_toNat_eq ‹_›) h1
  · exact absurd (BitVec.eq_of_toNat_eq ‹_›) h2
  · rfl

theorem ofCode_eq_ack {c : BitVec 8} : Res.ofCode c = .ack ↔ c = 1 := by
  constructor
  · intro h
    by_cases h1 : c = 1
    · exact h1
    · by_cases h2 : c = 2
      · subst h2; exact absurd h (by decide)
      · rw [ofCode_fail h1 h2] at h; simp at h
  · rintro rfl; rfl

theorem ofCode_eq_nak {c : BitVec 8} : Res.ofCode c = .nak ↔ c = 2 := by
  constructor
  · intro h
    by_cases h2 : c = 2
    · exact h2
    · by_cases h1 : c = 1
      · subst h1; exact absurd h (by decide)
      · rw [ofCode_fail h1 h2] at h; simp at h
  · rintro rfl; rfl

end Sys2Proof.Machine
end

