-- ==== Sys2Proof/Laws/Handler.lean ====
section
/-! SUPPORT. Everything the built-in handler and request processing can do, said once: what a row of the handler has done
when its result is known (`Handled`), what a request has done when its result is known (`Processed`), and what the result
then makes of the step. -/

namespace Sys2Proof.Machine

/-- R132 to R142: the handler's rows: on the request `r` in the state `s` the handler may return this result with this
response and leave this state. `row n` is what is known where the case of request code `n` has run. -/
inductive Handled (row : Nat → Prop) (r : Request) (s : State) : Res → Response → State → Prop
  | unserved : Handled row r s .fail ⟨0, 0⟩ s
  | asked (from_row : row 0) : Handled row r s .fail ⟨0, 0⟩ (isStalledCall (endpointOf r) s)
  | status (u : State) (w : BitVec 16) (asked : u = s ∨ u = isStalledCall (endpointOf r) s)
      (room : 2 ≤ s.data_maxsize.toNat) (lies : s.inMemory (s.data_buf + 8) 2 = true) (from_row : row 0) :
      Handled row r s .ack ⟨s.data_buf + 8, 2⟩ { u with mem := s.mem.writeBytes (s.data_buf + 8) (statusBytes w) }
  | halt (b : Bool) (endpoint : r.recipient = 2) (feature : r.wValue = 0) (cleared : b = false → row 1)
      (set : b = true → row 3) :
      Handled row r s .ack s.emptyResponse { epSetStall (endpointOf r) b s with draws := s.draws + 1 }
  | address (from_row : row 5) : Handled row r s .ack s.emptyResponse
      { s with pend_addr := addressOf r, pend_addr_v := true, draws := s.draws + 1 }
  | descriptor (cb : Nat) (slot : s.dsc_cb = some cb) (from_row : row 6) :
      Handled row r s (Res.ofCode s.answers.dsc.res) s.dscResponse (dscCallback cb r s)
  | current (room : 1 ≤ s.data_maxsize.toNat) (lies : s.inMemory (s.data_buf + 8) 1 = true) (from_row : row 8) :
      Handled row r s .ack ⟨s.data_buf + 8, 1⟩
        { s with mem := s.mem.writeBytes (s.data_buf + 8) [s.device_cfg] }
  | configured (cb : Nat) (slot : s.cfg_cb = some cb) (acked : s.answers.cfg = 1) (from_row : row 9) :
      Handled row r s .ack s.emptyResponse
        { cfgCallback cb (configOf r) s with
          device_cfg := configOf r, device_state := stateForConfig (configOf r), draws := s.draws + 1 }
  | notConfigured (cb : Nat) (slot : s.cfg_cb = some cb) (from_row : row 9) :
      Handled row r s .fail ⟨0, 0⟩ (cfgCallback cb (configOf r) s)

/-- A row of the handler that completes does what one of the rows of `Handled` says, and then finishes. -/
def Served (row : Nat → Prop) (r : Request) (s t : State) : Prop :=
  ∃ res p u, Handled row r s res p u ∧ finish (stageOf r) res p u = .next t

theorem Handled.mono {c d : Nat → Prop} {r : Request} {s u : State} {res : Res} {p : Response} (h : ∀ n, c n → d n)
    (hu : Handled c r s res p u) : Handled d r s res p u := by
  cases hu with
  | unserved => exact .unserved
  | asked f => exact .asked (h _ f)
  | status u w a room lies f => exact .status u w a room lies (h _ f)
  | halt b e f cl st => exact .halt b e f (fun hb => h _ (cl hb)) (fun hb => h _ (st hb))
  | address f => exact .address (h _ f)
  | descriptor cb slot f => exact .descriptor cb slot (h _ f)
  | current room lies f => exact .current room lies (h _ f)
  | configured cb slot acked f => exact .configured cb slot acked (h _ f)
  | notConfigured cb slot f => exact .notConfigured cb slot (h _ f)

theorem Served.mono {c d : Nat → Prop} {r : Request} {s t : State} (h : ∀ n, c n → d n) (ht : Served c r s t) :
    Served d r s t := by
  obtain ⟨res, p, u, hu, hf⟩ := ht
  exact ⟨res, p, u, hu.mono h, hf⟩

theorem unserved_served {c : Nat → Prop} {r : Request} {s t : State} (h : unserved r s = .next t) : Served c r s t :=
  ⟨_, _, _, .unserved, h⟩

/-- R76: a request to a recipient the handler knows runs its case. -/
theorem recognised_eq {r : Request} (h : r.recipient.toNat < 4) (s : State) (k : Result) : recognised r s k = k :=
  if_pos (decide_eq_true h)

/-- R76: a request to another recipient fails. -/
theorem recognised_fail {r : Request} (h : 4 ≤ r.recipient.toNat) (s : State) (k : Result) :
    recognised r s k = .next (stalledState .requestFailed s) := by
  unfold recognised
  rw [if_neg (by simp [knownRecipient]; omega), unserved, finish_fail]

/-- R76: what a case of the handler can do, it can do once its recipient is checked. -/
theorem recognised_served {c : Nat → Prop} {r : Request} {s t : State} {k : Result}
    (hk : k = .next t → Served c r s t) (h : recognised r s k = .next t) : Served c r s t := by
  unfold recognised at h
  split at h
  · exact hk h
  · exact unserved_served h

theorem execStdGetStatus_served {c : Nat → Prop} {r : Request} {s t : State} (hc : c 0)
    (h : execStdGetStatus r s = .next t) : Served c r s t := by
  have key (u : State) (w : BitVec 16) (hu : u = s ∨ u = isStalledCall (endpointOf r) s)
      (hk : respondStatus r w u = .next t) : Served c r s t := by
    have hm : u.data_maxsize = s.data_maxsize ∧ u.data_buf = s.data_buf ∧ u.mem = s.mem ∧
        u.inMemory (s.data_buf + 8) 2 = s.inMemory (s.data_buf + 8) 2 := by
      rcases hu with rfl | rfl <;> exact ⟨rfl, rfl, rfl, rfl⟩
    unfold respondStatus at hk
    split at hk
    · rcases hu with rfl | rfl
      · exact ⟨_, _, _, .unserved, hk⟩
      · exact ⟨_, _, _, .asked hc, hk⟩
    · rw [hm.1] at *
      rw [hm.2.1, writeMem_next, hm.2.2.1] at hk
      exact ⟨_, _, _, .status u w hu (by omega) (hm.2.2.2 ▸ hk.1) hc, hk.2⟩
  refine recognised_served (fun h => ?_) h
  unfold statusSource at h
  split at h
  · exact key s _ (.inl rfl) h
  · next ep hep =>
    have : ep = endpointOf r := by
      split at hep <;> try cases hep
      split at hep <;> cases hep
      rfl
    subst this
    exact key _ _ (.inr rfl) h
  · exact unserved_served h

theorem setHalt_served {c : Nat → Prop} {b : Bool} {r : Request} {s t : State} (hc : b = false → c 1)
    (hs : b = true → c 3) (h : setHalt b r s = .next t) : Served c r s t := by
  unfold setHalt at h
  split at h
  · next hi =>
    simp only [isEndpointHalt, Bool.and_eq_true, decide_eq_true_eq] at hi
    exact ⟨_, _, _, .halt b hi.1 hi.2 hc hs, h⟩
  · exact unserved_served h

theorem execStdClearFeature_served {c : Nat → Prop} {r : Request} {s t : State} (hc : c 1)
    (h : execStdClearFeature r s = .next t) : Served c r s t :=
  setHalt_served (fun _ => hc) (fun hb => Bool.noConfusion hb) h

theorem execStdSetFeature_served {c : Nat → Prop} {r : Request} {s t : State} (hc : c 3)
    (h : execStdSetFeature r s = .next t) : Served c r s t :=
  setHalt_served (fun hb => Bool.noConfusion hb) (fun _ => hc) h

theorem execStdSetAddress_served {c : Nat → Prop} {r : Request} {s t : State} (hc : c 5)
    (h : execStdSetAddress r s = .next t) : Served c r s t :=
  recognised_served (fun h => ⟨_, _, _, .address hc, h⟩) h

theorem execStdGetDescriptor_served {c : Nat → Prop} {r : Request} {s t : State} (hc : c 6)
    (h : execStdGetDescriptor r s = .next t) : Served c r s t := by
  refine recognised_served (fun h => ?_) h
  split at h
  · exact ⟨_, _, _, .descriptor _ ‹_› hc, h⟩
  · exact unserved_served h

theorem execStdGetConfiguration_served {c : Nat → Prop} {r : Request} {s t : State} (hc : c 8)
    (h : execStdGetConfiguration r s = .next t) : Served c r s t := by
  refine recognised_served (fun h => ?_) h
  split at h
  · exact unserved_served h
  · rw [writeMem_next] at h
    exact ⟨_, _, _, .current (by omega) h.1 hc, h.2⟩

theorem execStdSetConfiguration_served {c : Nat → Prop} {r : Request} {s t : State} (hc : c 9)
    (h : execStdSetConfiguration r s = .next t) : Served c r s t := by
  refine recognised_served (fun h => ?_) h
  split at h
  · split at h
    · exact ⟨_, _, _, .configured _ ‹_› (ofCode_eq_ack.1 ‹_›) hc, h⟩
    · exact ⟨_, _, _, .notConfigured _ ‹_› hc, h⟩
    · exact ⟨_, _, _, .notConfigured _ ‹_› hc, h⟩
  · exact unserved_served h

/-- R132: the request `r` is a standard request of code `n`. -/
def StdRow (r : Request) (n : Nat) : Prop := r.typ = 0 ∧ r.bRequest = BitVec.ofNat 8 n

/-- R132: the handler as a whole: a case runs only for a standard request of its code. -/
theorem stdRequest_served {r : Request} {s t : State} (h : stdRequest r s = .next t) : Served (StdRow r) r s t := by
  have key (n : Nat) (h0 : r.typ.toNat = 0) (hn : r.bRequest.toNat = (BitVec.ofNat 8 n).toNat) : StdRow r n :=
    ⟨BitVec.eq_of_toNat_eq h0, BitVec.eq_of_toNat_eq hn⟩
  unfold stdRequest at h
  split at h
  · exact execStdGetStatus_served (key 0 ‹_› ‹_›) h
  · exact execStdClearFeature_served (key 1 ‹_› ‹_›) h
  · exact unserved_served h
  · exact execStdSetFeature_served (key 3 ‹_› ‹_›) h
  · exact unserved_served h
  · exact execStdSetAddress_served (key 5 ‹_› ‹_›) h
  · exact execStdGetDescriptor_served (key 6 ‹_› ‹_›) h
  · exact unserved_served h
  · exact execStdGetConfiguration_served (key 8 ‹_› ‹_›) h
  · exact execStdSetConfiguration_served (key 9 ‹_› ‹_›) h
  all_goals exact unserved_served h

/-- What a completed result makes of the step: it is accepted, deferred or stalled. -/
theorem finish_next {r : Request} {res : Res} {p : Response} {u t : State} (h : finish (stageOf r) res p u = .next t) :
    (res = .ack ∧ t = accepted r p u) ∨ (res = .nak ∧ t = u) ∨
      (res = .fail ∧ t = stalledState .requestFailed u) := by
  cases res with
  | ack => exact .inl ⟨rfl, finish_ack_next h⟩
  | nak => exact .inr (.inl ⟨rfl, (Host.Outcome.next.inj h).symm⟩)
  | fail =>
    rw [finish_fail] at h
    exact .inr (.inr ⟨rfl, (Host.Outcome.next.inj h).symm⟩)

/-- R100: what a request has done when the stage is known: the control callback's ack or nak, or a row of the handler in
the state the control callback, if there is one, has left. -/
inductive Processed (r : Request) (s : State) : Res → Response → State → Prop
  | control (cb : Nat) (slot : s.ctl_cb = some cb) (res : Res) (answer : Res.ofCode s.answers.ctl.res = res)
      (kept : res ≠ .fail) : Processed r s res s.ctlResponse (ctlCallback cb r [] s)
  | fallback (cb : Nat) (slot : s.ctl_cb = some cb) (res : Res) (p : Response) (u : State)
      (handled : Handled (StdRow r) r (ctlCallback cb r [] s) res p u) : Processed r s res p u
  | builtin (res : Res) (p : Response) (u : State)
      (handled : Handled (StdRow r) r s res p u) : Processed r s res p u

theorem processRequest_next {r : Request} {s t : State} (h : processRequest (stageOf r) r s = .next t) :
    ∃ res p u, Processed r s res p u ∧ finish (stageOf r) res p u = .next t := by
  unfold processRequest at h
  split at h
  · split at h
    · exact ⟨_, _, _, .control _ ‹_› _ ‹_› (by simp), h⟩
    · exact ⟨_, _, _, .control _ ‹_› _ ‹_› (by simp), h⟩
    · obtain ⟨res, p, u, hu, hf⟩ := stdRequest_served h
      exact ⟨res, p, u, .fallback _ ‹_› _ _ _ hu, hf⟩
  · obtain ⟨res, p, u, hu, hf⟩ := stdRequest_served h
    exact ⟨res, p, u, .builtin _ _ _ hu, hf⟩

/-- R99: what a decoded Setup packet can do. -/
theorem setupBranch_next {r : Request} {s t : State} (h : setupBranch r s = .next t) :
    (∃ res p u, Processed r (cursorSet r s) res p u ∧ finish (stageOf r) res p u = .next t) ∨
      (r.wLength ≠ 0 ∧ r.dir = false ∧ s.data_maxsize.toNat < r.wLength.toNat ∧
        t = stalledState .overflow (cursorSet r s)) ∨
      (r.wLength ≠ 0 ∧ r.dir = false ∧ r.wLength.toNat ≤ s.data_maxsize.toNat ∧
        t = { cursorSet r s with control_state := .rxdata }) := by
  unfold setupBranch at h
  split at h
  · next hw =>
    left
    unfold execSetupNodata at h
    rw [← stageOf_noData hw] at h
    exact processRequest_next h
  · next hw =>
    split at h
    · next hd =>
      left
      unfold execSetupIn at h
      rw [← stageOf_in hw hd] at h
      exact processRequest_next h
    · next hd =>
      right
      have hd' : r.dir = false := by simpa using hd
      unfold execSetupOut at h
      split at h
      · next ho =>
        left
        rw [stall_eq] at h
        exact ⟨hw, hd', by simpa [outOverflow] using ho, (Host.Outcome.next.inj h).symm⟩
      · next ho =>
        right
        exact ⟨hw, hd', by simpa [outOverflow] using ho, (Host.Outcome.next.inj h).symm⟩

/-- R97, R98: what the step of a Setup event can do. -/
theorem setupStage_next {s t : State} (h : setupStage (s.arrives .epsetup) = .next t) :
    s.inMemory s.data_buf (rxCount s.answers.rx 8) = true ∧
      ((badSetup s.answers.rx.result = true ∧ t = stalledState .badSetup (setupRead s)) ∨
        (badSetup s.answers.rx.result = false ∧ s.inMemory s.data_buf 8 = true ∧
          setupBranch (setupRead s).header (setupRead s) = .next t)) := by
  unfold setupStage readSetup at h
  rw [epRead_next] at h
  refine ⟨h.1, ?_⟩
  have h2 := h.2
  split at h2
  · next hb =>
    left
    rw [stall_eq] at h2
    exact ⟨hb, (Host.Outcome.next.inj h2).symm⟩
  · next hb =>
    right
    rw [withRequest_next] at h2
    exact ⟨by simpa using hb, h2.1, h2.2⟩

/-! ### The data stages and the status stages -/

/-- R113: what a completed payload can do, in the state `s` in which its last bytes have been accounted for. -/
theorem rxComplete_next {s t : State} (h : rxComplete s = .next t) :
    s.inMemory s.data_buf 8 = true ∧ s.inMemory (s.data_buf + 8) s.header.wLength.toNat = true ∧
      ((s.ctl_cb = none ∧ t = stalledState .requestFailed s) ∨
        ∃ cb u, s.ctl_cb = some cb ∧
          u = ctlCallback cb s.header (s.mem.readBytes (s.data_buf + 8) s.header.wLength.toNat) s ∧
          ((s.answers.ctl.res = 1 ∧ t = statusQueued u) ∨ (s.answers.ctl.res = 2 ∧ t = u) ∨
            (s.answers.ctl.res ≠ 1 ∧ s.answers.ctl.res ≠ 2 ∧ t = stalledState .requestFailed u))) := by
  unfold rxComplete at h
  rw [withRequest_next, readMem_next] at h
  refine ⟨h.1, h.2.1, ?_⟩
  have h2 := h.2.2
  split at h2
  · next cb hcb =>
    right
    refine ⟨cb, _, hcb, rfl, ?_⟩
    unfold payloadResult at h2
    split at h2
    · next ha =>
      left
      refine ⟨ofCode_eq_ack.1 ha, ?_⟩
      exact (Host.Outcome.next.inj ((enterStatusIn_eq _).symm.trans h2)).symm
    · next ha =>
      right; left
      exact ⟨ofCode_eq_nak.1 ha, (Host.Outcome.next.inj h2).symm⟩
    · next ha =>
      right; right
      refine ⟨fun h1 => absurd (h1 ▸ ha) (by decide), fun h1 => absurd (h1 ▸ ha) (by decide), ?_⟩
      unfold resultFail at h2
      rw [stall_eq] at h2
      exact (Host.Outcome.next.inj h2).symm
  · next hn =>
    left
    unfold resultFail at h2
    rw [stall_eq] at h2
    exact ⟨hn, (Host.Outcome.next.inj h2).symm⟩

/-- R112: the state `s` once `n` received bytes have been accounted for. -/
def advanced (n : Nat) (s : State) : State :=
  { s with data_ptr := s.data_ptr + n, data_count := s.data_count - BitVec.ofNat 16 n }

/-- R112: what accounting for `n` received bytes can do. -/
theorem accumulate_next {n : Nat} {s t : State} (h : accumulate n s = .next t) :
    (s.data_count.toNat - n ≠ 0 ∧ t = advanced n s) ∨
      (s.data_count.toNat - n = 0 ∧ rxComplete (advanced n s) = .next t) := by
  unfold accumulate at h
  by_cases hne : s.data_count.toNat - n ≠ 0
  · rw [if_pos hne] at h
    exact .inl ⟨hne, (Host.Outcome.next.inj h).symm⟩
  · rw [if_neg hne] at h
    exact .inr ⟨by omega, h⟩

/-- R110, R111: a data read is good when its result is a number of bytes, at most those asked. -/
theorem badDataOut_false {r : BitVec 32} {len : Nat} (h : badDataOut r len = false) :
    ∃ n : Nat, r.toInt = n ∧ n ≤ len := by
  simp only [badDataOut, Bool.or_eq_false_iff, decide_eq_false_iff_not] at h
  have h0 : 0 ≤ r.toInt := Int.not_lt.1 h.1
  have h1 : r.toInt ≤ len := Int.not_lt.1 h.2
  exact ⟨r.toInt.toNat, (Int.toNat_of_nonneg h0).symm, Int.toNat_le.2 h1⟩

/-- R110 to R116: what a data packet can do in `rxdata`. -/
theorem dataOut_next {s t : State} (h : dataOut s = .next t) :
    s.inMemory s.data_ptr (rxCount s.answers.rx s.chunkLen) = true ∧
      ((badDataOut s.answers.rx.result s.chunkLen = true ∧
          t = stalledState .badDataOut (packetRead s.data_ptr s.chunkLen s)) ∨
        ∃ n : Nat, s.answers.rx.result.toInt = n ∧ n ≤ s.chunkLen ∧
          ((s.data_count.toNat ≠ n ∧ t = advanced n (packetRead s.data_ptr s.chunkLen s)) ∨
            (s.data_count.toNat = n ∧
              rxComplete (advanced n (packetRead s.data_ptr s.chunkLen s)) = .next t))) := by
  unfold dataOut at h
  rw [epRead_next] at h
  refine ⟨h.1, ?_⟩
  have h2 := h.2
  cases hb : badDataOut s.answers.rx.result s.chunkLen with
  | true =>
    rw [if_pos hb, stall_eq] at h2
    exact .inl ⟨rfl, (Host.Outcome.next.inj h2).symm⟩
  | false =>
    right
    rw [if_neg (by simp [hb])] at h2
    obtain ⟨n, hn, hle⟩ := badDataOut_false hb
    have hc : s.chunkLen ≤ s.data_count.toNat := Nat.min_le_left _ _
    have hr : (rxResult s.answers.rx.result).toNat = n := by rw [rxResult, hn]; rfl
    rw [hr] at h2
    refine ⟨n, hn, hle, ?_⟩
    rcases accumulate_next h2 with ⟨hne, ht⟩ | ⟨he, ht⟩
    · exact .inl ⟨by rw [packetRead_data_count] at hne; omega, ht⟩
    · exact .inr ⟨by rw [packetRead_data_count] at he; omega, ht⟩

/-- R126, R127: what the end of an OUT status stage can do. -/
theorem statusOutDone_next {s t : State} (h : statusOutDone s = .next t) :
    (badStatusOut s.answers.rx.result = true ∧ t = stalledState .badStatusOut (packetRead s.data_ptr 0 s)) ∨
      (badStatusOut s.answers.rx.result = false ∧ complete (packetRead s.data_ptr 0 s) = .next t) := by
  unfold statusOutDone at h
  rw [epRead_next] at h
  have h2 := h.2
  split at h2
  · next hb =>
    left
    rw [stall_eq] at h2
    exact ⟨hb, (Host.Outcome.next.inj h2).symm⟩
  · next hb => exact .inr ⟨by simpa using hb, h2⟩

end Sys2Proof.Machine
end

