-- ==== Sys2Proof/Laws/Exec.lean ====
section
/-! SUPPORT. What `exec` can have done when it answers a next state: one inversion lemma for all instructions. -/

open Sys2Proof Sys2Proof.Machine

namespace Sys2Proof.Machine

/-- The stage of the engine a row of R81 runs. -/
inductive RowRan (s : State) : EventKind → State → Prop
  | setup (t : State) (h : setupStage (s.arrives .epsetup) = .next t) : RowRan s .epsetup t
  | out (t : State) (h : dataOut (s.arrives .eprx) = .next t) : RowRan s .eprx t
  | statusOut (t : State) (h : statusOutDone (s.arrives .eprx) = .next t) : RowRan s .eprx t
  | chunk (t : State) (h : sendChunk (s.arrives .eptx) = .next t) : RowRan s .eptx t
  | zlp : RowRan s .eptx { s with
      trace := s.trace ++ [.epWrite ep0In s.data_ptr 0 []]
      hab := { s.hab with tx_pending := some [] }
      control_state := .lastdata }
  | last (h : s.params.statusAfterIn = .statusin) : RowRan s .eptx (statusQueued (s.arrives .eptx))
  | lastOut (h : s.params.statusAfterIn = .statusout) :
      RowRan s .eptx { s.arrives .eptx with control_state := .statusout }
  | statusIn (t : State) (h : complete (s.arrives .eptx) = .next t) : RowRan s .eptx t
  | outOfSeq (k : EventKind) (hk : k = .eprx ∨ k = .eptx) : RowRan s k (stalledState .outOfSequence (s.arrives k))

/-- `sendZlp` always completes. -/
theorem sendZlp_eq (s : State) : sendZlp s = .next { s with
    trace := s.trace ++ [.epWrite ep0In s.data_ptr 0 []]
    hab := { s.hab with tx_pending := some [] }
    control_state := .lastdata } := by
  unfold sendZlp epWrite
  rw [readMem_eq (inMemory_zero _ _)]; rfl

/-- Inversion of a row of R81: the stage it ran, and what the rows of the two completion events ran in which control
state. -/
theorem row_ran {c : ControlState} {k : EventKind} {i : Instr} {s t : State} (hr : ep0Row c k = .ok i)
    (h : exec i s = .next t) :
    RowRan s k t ∧ (k = .eprx → c = .rxdata ∧ dataOut (s.arrives .eprx) = .next t ∨
        c = .statusout ∧ statusOutDone (s.arrives .eprx) = .next t ∨
        c ≠ .rxdata ∧ c ≠ .statusout ∧ t = stalledState .outOfSequence (s.arrives .eprx)) ∧
      (k = .eptx → c = .txdata ∧ sendChunk (s.arrives .eptx) = .next t ∨ c = .ztxdata ∧ t = { s with
          trace := s.trace ++ [.epWrite ep0In s.data_ptr 0 []]
          hab := { s.hab with tx_pending := some [] }
          control_state := .lastdata } ∨
        c = .lastdata ∧ (s.params.statusAfterIn = .statusin ∧ t = statusQueued (s.arrives .eptx) ∨
          s.params.statusAfterIn = .statusout ∧ t = { s.arrives .eptx with control_state := .statusout }) ∨
        c = .statusin ∧ complete (s.arrives .eptx) = .next t ∨
        (c = .idle ∨ c = .rxdata ∨ c = .statusout) ∧ t = stalledState .outOfSequence (s.arrives .eptx)) := by
  cases k <;> try (solve | cases hr)
  · cases c <;> injection hr with hr <;> subst hr
    case idle =>
      have h : Host.Outcome.next (stall .outOfSequence (s.arrives .eptx)) = .next t := h
      rw [stall_eq] at h; obtain rfl := Host.Outcome.next.inj h
      exact ⟨.outOfSeq _ (.inr rfl), by simp, by simp⟩
    case rxdata =>
      have h : Host.Outcome.next (stall .outOfSequence (s.arrives .eptx)) = .next t := h
      rw [stall_eq] at h; obtain rfl := Host.Outcome.next.inj h
      exact ⟨.outOfSeq _ (.inr rfl), by simp, by simp⟩
    case statusout =>
      have h : Host.Outcome.next (stall .outOfSequence (s.arrives .eptx)) = .next t := h
      rw [stall_eq] at h; obtain rfl := Host.Outcome.next.inj h
      exact ⟨.outOfSeq _ (.inr rfl), by simp, by simp⟩
    case txdata => exact ⟨.chunk t h, by simp, fun _ => .inl ⟨rfl, h⟩⟩
    case ztxdata =>
      have h : sendZlp (s.arrives .eptx) = .next t := h
      rw [sendZlp_eq] at h; obtain rfl := Host.Outcome.next.inj h
      exact ⟨.zlp, by simp, fun _ => .inr (.inl ⟨rfl, rfl⟩)⟩
    case lastdata =>
      have h : lastDataDone (s.arrives .eptx) = .next t := h
      unfold lastDataDone at h
      split at h
      · next hp =>
        rw [enterStatusIn_eq] at h; obtain rfl := Host.Outcome.next.inj h
        exact ⟨.last hp, by simp, fun _ => .inr (.inr (.inl ⟨rfl, .inl ⟨hp, rfl⟩⟩))⟩
      · next hp =>
        obtain rfl := Host.Outcome.next.inj h
        exact ⟨.lastOut hp, by simp, fun _ => .inr (.inr (.inl ⟨rfl, .inr ⟨hp, rfl⟩⟩))⟩
    case statusin => exact ⟨.statusIn t h, by simp, fun _ => .inr (.inr (.inr (.inl ⟨rfl, h⟩)))⟩
  · cases c <;> injection hr with hr <;> subst hr
    case rxdata => exact ⟨.out t h, fun _ => .inl ⟨rfl, h⟩, by simp⟩
    case statusout => exact ⟨.statusOut t h, fun _ => .inr (.inl ⟨rfl, h⟩), by simp⟩
    all_goals
      have h : Host.Outcome.next (stall .outOfSequence (s.arrives .eprx)) = .next t := h
      rw [stall_eq] at h; obtain rfl := Host.Outcome.next.inj h
      exact ⟨.outOfSeq _ (.inl rfl), by simp, by simp⟩
  · cases c <;> injection hr with hr <;> subst hr <;> exact ⟨.setup t h, by simp, by simp⟩

/-- R132: the row of the handler that `i` is, by request code. -/
def RowOf (r : Request) (i : Instr) (n : Nat) : Prop :=
  (n, i) ∈ [(0, .stdGetStatus r), (1, .stdClearFeature r), (3, .stdSetFeature r), (5, .stdSetAddress r),
    (6, .stdGetDescriptor r), (8, .stdGetConfiguration r), (9, Instr.stdSetConfiguration r)]

/-- Everything an instruction that completes can have done. -/
inductive Ran (s : State) : Instr → State → Prop
  | reset (ep : Byte) : Ran s (.evtReset ep) (eventCallback .reset ep (resetStatus s))
  | info (i : Instr) (k : EventKind) (ep : Byte)
      (hi : i = .evtSof ep ∧ k = .sof ∨ i = .evtSuspend ep ∧ k = .suspend ∨ i = .evtWakeup ep ∧ k = .wakeup ∨
        i = .evtError ep ∧ k = .error ∨ i = .evtEsof ep ∧ k = .esof) :
      Ran s i (eventCallback k ep s)
  | user (i : Instr) (k : EventKind) (ep : Byte) (cb : Nat)
      (hi : i = .evtEptx ep ∨ i = .evtEprx ep ∨ i = .evtEpsetup ep) (h0 : ep.extractLsb' 0 3 ≠ 0) :
      Ran s i (s.call (.epCb cb (epNumber ep) k ep))
  | empty (i : Instr) (ep : Byte)
      (hi : i = .evtEptx ep ∨ i = .evtEprx ep ∨ i = .evtEpsetup ep) (h0 : ep.extractLsb' 0 3 ≠ 0) :
      Ran s i (epSetStall ep true s)
  | engine (i j : Instr) (k : EventKind) (ep : Byte) (t : State)
      (hi : i = .evtEptx ep ∧ k = .eptx ∨ i = .evtEprx ep ∧ k = .eprx ∨ i = .evtEpsetup ep ∧ k = .epsetup)
      (h0 : ep.extractLsb' 0 3 = 0) (hj : ep0Row s.control_state k = .ok j) (h : exec j s = .next t) :
      Ran s i t
  | row (c : ControlState) (k : EventKind) (i : Instr) (t : State)
      (hr : ep0Row c k = .ok i) (h : exec i s = .next t) : Ran s i t
  | enable : Ran s .cmdEnable { habEnable true s with device_state := .disconnected }
  | disable : Ran s .cmdDisable { habEnable false s with device_state := .disabled }
  | connect : Ran s .cmdConnect (habConnect true s)
  | disconnect : Ran s .cmdDisconnect (habConnect false s)
  | resetCmd : Ran s .cmdReset (resetStatus s)
  | resFail : Ran s .resFail (stalledState .requestFailed s)
  | resNak : Ran s .resNak s
  | resAckOut : Ran s .resAck (statusQueued s)
  | resAckIn
      (h : s.inMemory s.resp.ptr (min (min s.header.wLength.toNat s.resp.len.toNat) s.ep0size.toNat) = true) :
      Ran s .resAck (firstChunkSent s.header.wLength s.resp s)
  | nodata (r : Request) (t : State) (h : processRequest .noData r (cursorSet r s) = .next t) :
      Ran s (.setupNodata r) t
  | in (r : Request) (t : State) (h : processRequest (.inData r.wLength) r (cursorSet r s) = .next t) :
      Ran s (.setupIn r) t
  | outBig (r : Request) : Ran s (.setupOut r) (stalledState .overflow (cursorSet r s))
  | outFits (r : Request) : Ran s (.setupOut r) { cursorSet r s with control_state := .rxdata }
  | std (i : Instr) (r : Request) (t : State) (h : Served (RowOf r i) r s t)
      (hi : i ∈ [.stdGetStatus r, .stdClearFeature r, .stdReserved2 r, .stdSetFeature r, .stdReserved4 r,
        .stdSetAddress r, .stdGetDescriptor r, .stdSetDescriptor r, .stdGetConfiguration r, .stdSetConfiguration r,
        .stdGetInterface r, .stdSetInterface r, .stdSynchFrame r, .stdOther r, .nonstdClass r, .nonstdVendor r,
        Instr.nonstdTypeReserved r]) :
      Ran s i t

/-- Only a slot other than 0 holds a user callback (R33). -/
theorem slot_user {s : State} {n : BitVec 3} {cb : Nat} (h : s.epSlot n = .user cb) : n ≠ 0 := by rintro rfl; cases h

/-- Only a slot other than 0 is empty (R33). -/
theorem slot_empty {s : State} {n : BitVec 3} (h : s.epSlot n = .empty) : n ≠ 0 := by rintro rfl; cases h

/-- Only slot 0 holds the engine (R33). -/
theorem slot_engine {s : State} {n : BitVec 3} (h : s.epSlot n = .engine) : n = 0 := by
  unfold State.epSlot at h
  split at h
  · exact BitVec.eq_of_toNat_eq ‹_›
  all_goals (unfold EpSlot.ofOption at h; split at h <;> cases h)

/-- The engine runs the row of its control state (R95). -/
theorem engineEptx_row {s t : State} (h : engineEptx s = .next t) :
    ∃ j, ep0Row s.control_state .eptx = .ok j ∧ exec j s = .next t := by
  unfold engineEptx at h
  split at h <;> rename_i hc <;> rw [hc] <;> exact ⟨_, rfl, h⟩

/-- The engine runs the row of its control state (R95). -/
theorem engineEprx_row {s t : State} (h : engineEprx s = .next t) :
    ∃ j, ep0Row s.control_state .eprx = .ok j ∧ exec j s = .next t := by
  unfold engineEprx at h
  split at h <;> rename_i hc <;> rw [hc] <;> exact ⟨_, rfl, h⟩

/-- The engine runs the row of its control state (R95). -/
theorem engineEpsetup_row {s t : State} (h : engineEpsetup s = .next t) :
    ∃ j, ep0Row s.control_state .epsetup = .ok j ∧ exec j s = .next t := by
  unfold engineEpsetup at h
  split at h <;> rename_i hc <;> rw [hc] <;> exact ⟨_, rfl, h⟩

/-- Inversion of `exec`: an instruction that completes did one of the things `Ran` lists. -/
theorem exec_ran {s t : State} {i : Instr} (h : exec i s = .next t) : Ran s i t := by
  have hroute : ∀ (k : EventKind) (ep : Byte) (e : State → Result),
      (i = .evtEptx ep ∧ k = .eptx ∨ i = .evtEprx ep ∧ k = .eprx ∨ i = .evtEpsetup ep ∧ k = .epsetup) →
      (∀ t, e s = .next t → ∃ j, ep0Row s.control_state k = .ok j ∧ exec j s = .next t) →
      route k e ep s = .next t → Ran s i t := by
    intro k ep e hi he hr
    have hi' : i = .evtEptx ep ∨ i = .evtEprx ep ∨ i = .evtEpsetup ep := by
      rcases hi with h | h | h <;> simp [h.1]
    unfold route at hr
    split at hr
    · next h0 => obtain ⟨j, hj, hx⟩ := he _ hr; exact .engine i j k ep t hi (slot_engine h0) hj hx
    · next cb h0 => obtain rfl := Host.Outcome.next.inj hr; exact .user _ _ _ _ hi' (slot_user h0)
    · next h0 => obtain rfl := Host.Outcome.next.inj hr; exact .empty _ _ hi' (slot_empty h0)
  cases i with
  | evtReset ep => obtain rfl := Host.Outcome.next.inj h; exact .reset ep
  | evtSof ep => obtain rfl := Host.Outcome.next.inj h; exact .info _ _ ep (by simp)
  | evtSuspend ep => obtain rfl := Host.Outcome.next.inj h; exact .info _ _ ep (by simp)
  | evtWakeup ep => obtain rfl := Host.Outcome.next.inj h; exact .info _ _ ep (by simp)
  | evtError ep => obtain rfl := Host.Outcome.next.inj h; exact .info _ _ ep (by simp)
  | evtEsof ep => obtain rfl := Host.Outcome.next.inj h; exact .info _ _ ep (by simp)
  | evtEptx ep => exact hroute .eptx ep engineEptx (by simp) (fun _ => engineEptx_row) h
  | evtEprx ep => exact hroute .eprx ep engineEprx (by simp) (fun _ => engineEprx_row) h
  | evtEpsetup ep => exact hroute .epsetup ep engineEpsetup (by simp) (fun _ => engineEpsetup_row) h
  | cmdEnable => obtain rfl := Host.Outcome.next.inj h; exact .enable
  | cmdDisable => obtain rfl := Host.Outcome.next.inj h; exact .disable
  | cmdConnect => obtain rfl := Host.Outcome.next.inj h; exact .connect
  | cmdDisconnect => obtain rfl := Host.Outcome.next.inj h; exact .disconnect
  | cmdReset => obtain rfl := Host.Outcome.next.inj h; exact .resetCmd
  | resFail =>
    have h : resultFail s = .next t := h
    unfold resultFail at h
    rw [stall_eq] at h; obtain rfl := Host.Outcome.next.inj h; exact .resFail
  | resNak => obtain rfl := Host.Outcome.next.inj h; exact .resNak
  | resAck =>
    have h : withStage s (fun stage => resultAck stage s) = .next t := h
    have hq : ∀ {t}, enterStatusIn s = .next t → Ran s .resAck t := by
      intro t h; rw [enterStatusIn_eq] at h; obtain rfl := Host.Outcome.next.inj h; exact .resAckOut
    have hw : withRequest s (fun r => resultAck (stageOf r) s) = .next t → Ran s .resAck t := by
      intro h
      rw [withRequest_next] at h
      have h := h.2
      by_cases hw : s.header.wLength = 0
      · rw [stageOf_noData hw] at h; exact hq h
      · by_cases hd : s.header.dir = true
        · rw [stageOf_in hw hd] at h
          obtain ⟨h1, h2⟩ := beginDataIn_next (p := s.resp) (s := s) h
          rw [h2]; exact .resAckIn h1
        · rw [stageOf_out hw hd] at h; exact hq h
    unfold withStage at h
    split at h
    · exact hq h
    all_goals exact hw h
  | setupNodata r => exact .nodata r t h
  | setupIn r => exact .in r t h
  | setupOut r =>
    have h : execSetupOut r s = .next t := h
    unfold execSetupOut at h
    split at h
    · rw [stall_eq] at h; obtain rfl := Host.Outcome.next.inj h; exact .outBig r
    · obtain rfl := Host.Outcome.next.inj h; exact .outFits r
  | stdGetStatus r => exact .std _ r t (execStdGetStatus_served (by simp [RowOf]) h) (by simp)
  | stdClearFeature r => exact .std _ r t (execStdClearFeature_served (by simp [RowOf]) h) (by simp)
  | stdSetFeature r => exact .std _ r t (execStdSetFeature_served (by simp [RowOf]) h) (by simp)
  | stdSetAddress r => exact .std _ r t (execStdSetAddress_served (by simp [RowOf]) h) (by simp)
  | stdGetDescriptor r => exact .std _ r t (execStdGetDescriptor_served (by simp [RowOf]) h) (by simp)
  | stdGetConfiguration r => exact .std _ r t (execStdGetConfiguration_served (by simp [RowOf]) h) (by simp)
  | stdSetConfiguration r => exact .std _ r t (execStdSetConfiguration_served (by simp [RowOf]) h) (by simp)
  | stdReserved2 r => exact .std _ r t (unserved_served h) (by simp)
  | stdReserved4 r => exact .std _ r t (unserved_served h) (by simp)
  | stdSetDescriptor r => exact .std _ r t (unserved_served h) (by simp)
  | stdGetInterface r => exact .std _ r t (unserved_served h) (by simp)
  | stdSetInterface r => exact .std _ r t (unserved_served h) (by simp)
  | stdSynchFrame r => exact .std _ r t (unserved_served h) (by simp)
  | stdOther r => exact .std _ r t (unserved_served h) (by simp)
  | nonstdClass r => exact .std _ r t (unserved_served h) (by simp)
  | nonstdVendor r => exact .std _ r t (unserved_served h) (by simp)
  | nonstdTypeReserved r => exact .std _ r t (unserved_served h) (by simp)
  | ep0IdleEpsetup => exact .row .idle .epsetup _ t rfl h
  | ep0IdleEprx => exact .row .idle .eprx _ t rfl h
  | ep0IdleEptx => exact .row .idle .eptx _ t rfl h
  | ep0RxdataEpsetup => exact .row .rxdata .epsetup _ t rfl h
  | ep0RxdataEprx => exact .row .rxdata .eprx _ t rfl h
  | ep0RxdataEptx => exact .row .rxdata .eptx _ t rfl h
  | ep0TxdataEpsetup => exact .row .txdata .epsetup _ t rfl h
  | ep0TxdataEprx => exact .row .txdata .eprx _ t rfl h
  | ep0TxdataEptx => exact .row .txdata .eptx _ t rfl h
  | ep0ZtxdataEpsetup => exact .row .ztxdata .epsetup _ t rfl h
  | ep0ZtxdataEprx => exact .row .ztxdata .eprx _ t rfl h
  | ep0ZtxdataEptx => exact .row .ztxdata .eptx _ t rfl h
  | ep0LastdataEpsetup => exact .row .lastdata .epsetup _ t rfl h
  | ep0LastdataEprx => exact .row .lastdata .eprx _ t rfl h
  | ep0LastdataEptx => exact .row .lastdata .eptx _ t rfl h
  | ep0StatusinEpsetup => exact .row .statusin .epsetup _ t rfl h
  | ep0StatusinEprx => exact .row .statusin .eprx _ t rfl h
  | ep0StatusinEptx => exact .row .statusin .eptx _ t rfl h
  | ep0StatusoutEpsetup => exact .row .statusout .epsetup _ t rfl h
  | ep0StatusoutEprx => exact .row .statusout .eprx _ t rfl h
  | ep0StatusoutEptx => exact .row .statusout .eptx _ t rfl h

end Sys2Proof.Machine
end

