-- ==== Sys2Proof/Laws/Frames.lean ====
section
/-! SUPPORT. What survives an operation, said once: `Base s t`: the fields no instruction writes, the canonical form of
memory and of the list of stalled endpoints, and memory's range; `Kept s t`: the bytes of the request header and below. -/

namespace Sys2Proof.Machine

/-- From `s` to `t` the fields no instruction writes are unchanged and what is in canonical form stays so. -/
structure Base (s t : State) : Prop where
  params : t.params = s.params
  buf : t.data_buf = s.data_buf
  packet : t.ep0size = s.ep0size
  maxsize : t.data_maxsize = s.data_maxsize
  inputs : t.inputs = s.inputs
  mem_wf : s.mem.wf → t.mem.wf
  mem_range : (∀ c ∈ s.mem, c.1 < 2 ^ s.params.ptrW) → ∀ c ∈ t.mem, c.1 < 2 ^ s.params.ptrW
  stalled : s.hab.stalled.Pairwise (fun a b => a.toNat < b.toNat) → t.hab.stalled.Pairwise (fun a b => a.toNat < b.toNat)

theorem Base.refl (s : State) : Base s s := ⟨rfl, rfl, rfl, rfl, rfl, id, id, id⟩

theorem Base.trans {s t u : State} (h : Base s t) (h' : Base t u) : Base s u :=
  ⟨h'.params.trans h.params, h'.buf.trans h.buf, h'.packet.trans h.packet, h'.maxsize.trans h.maxsize,
   h'.inputs.trans h.inputs, fun x => h'.mem_wf (h.mem_wf x),
   fun x => by have := h'.mem_range (by rw [h.params]; exact h.mem_range x); rwa [h.params] at this, fun x => h'.stalled (h.stalled x)⟩

/-- R38: adding an address keeps the list of stalled endpoints rising. -/
theorem rise_insert (ep : Byte) (l : List Byte) (h : l.Pairwise (fun a b => a.toNat < b.toNat)) :
    (stallInsert ep l).Pairwise (fun a b => a.toNat < b.toNat) ∧ ∀ x ∈ stallInsert ep l, x = ep ∨ x ∈ l := by
  induction l with
  | nil => simp [stallInsert]
  | cons e es ih =>
    have hp := List.pairwise_cons.1 h
    unfold stallInsert
    split
    · refine ⟨List.pairwise_cons.2 ⟨?_, h⟩, by simp⟩
      intro x hx
      rcases List.mem_cons.1 hx with rfl | hx
      · assumption
      · have := hp.1 x hx; omega
    · split
      · subst_vars; exact ⟨h, by simp⟩
      · next h1 h2 =>
        obtain ⟨ih1, ih2⟩ := ih hp.2
        refine ⟨List.pairwise_cons.2 ⟨?_, ih1⟩, ?_⟩
        · intro x hx
          rcases ih2 x hx with rfl | hx
          · have : e.toNat ≠ x.toNat := fun hh => h2 (BitVec.eq_of_toNat_eq hh.symm)
            omega
          · exact hp.1 x hx
        · intro x hx
          rcases List.mem_cons.1 hx with rfl | hx
          · simp
          · rcases ih2 x hx with h | h <;> simp [h]

/-- R38: setting a stall flag keeps the list rising. -/
theorem rise_set (h : Hab) (ep : Byte) (b : Bool) (hp : h.stalled.Pairwise (fun a b => a.toNat < b.toNat)) :
    (h.setStall ep b).stalled.Pairwise (fun a b => a.toNat < b.toNat) := by
  unfold Hab.setStall
  cases b
  · exact hp.filter _
  · exact (rise_insert ep _ hp).1

/-- R165: an event keeps the list rising. -/
theorem rise_event (h : Hab) (k : EventKind) (hp : h.stalled.Pairwise (fun a b => a.toNat < b.toNat)) :
    (h.onEvent k).stalled.Pairwise (fun a b => a.toNat < b.toNat) := by
  cases k <;> try exact hp
  exact rise_set (h.setStall ep0Out false) ep0In false (rise_set h ep0Out false hp)

/-- A write inside memory keeps memory's range. -/
theorem range_write {m : Memory} {a : Nat} {v : Byte} {n : Nat} (h : ∀ c ∈ m, c.1 < n) (ha : a < n) :
    ∀ c ∈ m.write a v, c.1 < n := by
  intro c hc
  have := Memory.mem_write hc
  rcases this with h1 | h1 
  · simp_all
  · exact h c h1

theorem range_writeBytes (bs : List Byte) (n : Nat) : ∀ (m : Memory) (a : Nat), (∀ c ∈ m, c.1 < n) → (bs.length = 0 ∨ a + bs.length ≤ n) →
    ∀ c ∈ m.writeBytes a bs, c.1 < n := by
  induction bs with
  | nil => intro m a h _; exact h
  | cons b bs ih =>
    intro m a h hl
    simp only [List.length_cons] at hl
    unfold Memory.writeBytes
    apply ih
    · exact range_write h (by omega)
    · omega

theorem range_writeAt (base : Nat) (n : Nat) (ws : List (Nat × Byte)) : ∀ (m : Memory), (∀ c ∈ m, c.1 < n) → (∀ w ∈ ws, base + w.1 < n) →
    ∀ c ∈ m.writeAt base ws, c.1 < n := by
  induction ws with
  | nil => intro m h _; exact h
  | cons b bs ih =>
    intro m h hl
    unfold Memory.writeAt
    apply ih
    · exact range_write h (hl b (by simp))
    · intro w hw; exact hl w (by simp [hw])

theorem Base.of_mem_hab {s t : State} (h1 : t.params = s.params) (h2 : t.data_buf = s.data_buf) (h3 : t.ep0size = s.ep0size)
    (h4 : t.data_maxsize = s.data_maxsize) (h5 : t.inputs = s.inputs) (h6 : t.mem = s.mem) (h7 : t.hab.stalled = s.hab.stalled) : Base s t :=
  ⟨h1, h2, h3, h4, h5, by rw [h6]; exact id, by rw [h6]; exact id, by rw [h7]; exact id⟩

theorem base_stalled (c : StallCause) (s : State) : Base s (stalledState c s) :=
  ⟨rfl, rfl, rfl, rfl, rfl, id, id, fun h => rise_set _ _ _ (rise_set _ _ _ h)⟩

theorem base_statusQueued (s : State) : Base s (statusQueued s) := .of_mem_hab rfl rfl rfl rfl rfl rfl rfl

theorem base_first (w : BitVec 16) (p : Response) (s : State) : Base s (firstChunkSent w p s) := .of_mem_hab rfl rfl rfl rfl rfl rfl rfl

theorem base_accepted (r : Request) (p : Response) (s : State) : Base s (accepted r p s) := by
  unfold accepted; split
  · exact base_first _ _ _
  · exact Base.trans (t := { s with resp := p }) (.of_mem_hab rfl rfl rfl rfl rfl rfl rfl) (base_statusQueued _)

theorem base_writeBytes {s t : State} {a : Nat} {bs : List Byte} (h1 : t.params = s.params) (h2 : t.data_buf = s.data_buf) (h3 : t.ep0size = s.ep0size)
    (h4 : t.data_maxsize = s.data_maxsize) (h5 : t.inputs = s.inputs) (h6 : t.mem = s.mem.writeBytes a bs) (h7 : t.hab.stalled = s.hab.stalled)
    (h : s.inMemory a bs.length = true) : Base s t :=
  ⟨h1, h2, h3, h4, h5, fun x => h6 ▸ Memory.wf_writeBytes _ _ x, fun x => h6 ▸ range_writeBytes _ _ _ _ x ((inMemory_iff _ _ _).1 h), by rw [h7]; exact id⟩

theorem base_packetRead {s : State} {buf len : Nat} (h : s.inMemory buf (rxCount s.answers.rx len) = true) : Base s (packetRead buf len s) :=
  base_writeBytes (a := buf) (bs := rxBytes s.answers.rx len) rfl rfl rfl rfl rfl rfl rfl (by rw [rxBytes, length_firstBytes]; exact h)

theorem base_ctl (cb : Nat) (r : Request) (p : List Byte) (s : State) : Base s (ctlCallback cb r p s) := by
  refine ⟨by simp, by simp, by simp, by simp, by simp, ?_, ?_, by simp⟩
  · intro x; simp; exact Memory.wf_writeAt _ _ x
  · intro x
    rw [ctlCallback_mem]
    apply range_writeAt _ _ _ _ x
    intro w hw
    simp [State.payloadWrites] at hw
    exact hw.2.2

theorem base_handled {c : Nat → Prop} {r : Request} {s u : State} {res : Res} {p : Response} (h : Handled c r s res p u) : Base s u := by
  cases h with
  | unserved => exact .refl s
  | asked => exact .of_mem_hab rfl rfl rfl rfl rfl rfl rfl
  | status u w a room lies =>
    rcases a with rfl | rfl <;> exact base_writeBytes rfl rfl rfl rfl rfl rfl rfl lies
  | halt b e f cl => exact ⟨rfl, rfl, rfl, rfl, rfl, id, id, fun h => rise_set _ _ _ h⟩
  | address => exact .of_mem_hab rfl rfl rfl rfl rfl rfl rfl
  | descriptor cb slot => exact .of_mem_hab rfl rfl rfl rfl rfl rfl rfl
  | current room lies => exact base_writeBytes rfl rfl rfl rfl rfl rfl rfl lies
  | configured cb slot acked => exact .of_mem_hab rfl rfl rfl rfl rfl rfl rfl
  | notConfigured cb slot => exact .of_mem_hab rfl rfl rfl rfl rfl rfl rfl

theorem base_processed {r : Request} {s u : State} {res : Res} {p : Response} (h : Processed r s res p u) : Base s u := by
  cases h with
  | control => exact base_ctl _ _ _ _
  | fallback cb slot res p u hh => exact Base.trans (base_ctl cb r [] s) (base_handled hh)
  | builtin res p u hh => exact base_handled hh

theorem base_setupRead {s : State} (h : s.inMemory s.data_buf (rxCount s.answers.rx 8) = true) : Base s (setupRead s) := by
  refine Base.trans (t := { s with
      hab := s.hab.onEvent .epsetup
      control_state := .idle, complete_cb := none, pend_addr_v := false, tx_short := false }) ?_ (base_packetRead h)
  exact ⟨rfl, rfl, rfl, rfl, rfl, id, id, fun h => rise_event _ .epsetup h⟩

theorem base_completed (s : State) : Base s (completedState s) := by
  refine .of_mem_hab rfl rfl rfl rfl rfl rfl ?_
  unfold completedState; dsimp only; split <;> rfl

/-- R40: the request is the same where its bytes are. -/
theorem header_congr {s t : State} (hb : t.data_buf = s.data_buf) (h : ∀ a, s.data_buf ≤ a → a < s.data_buf + 8 → t.mem.read a = s.mem.read a) : t.header = s.header := by
  unfold State.header
  rw [hb, Memory.readBytes_congr h]

/-- R58: from `s` to `t` no byte below the payload area changes. -/
structure Kept (s t : State) : Prop where
  low : ∀ a, a < s.data_buf + 8 → t.mem.read a = s.mem.read a

theorem kept_ctl (cb : Nat) (r : Request) (p : List Byte) (s : State) (hw : s.mem.wf) : Kept s (ctlCallback cb r p s) := by
  refine ⟨fun a ha => ?_⟩
  rw [ctlCallback_mem]
  apply Memory.read_writeAt_outside hw
  intro w hw'
  omega

theorem kept_handled {c : Nat → Prop} {r : Request} {s u : State} {res : Res} {p : Response} (hw : s.mem.wf) (h : Handled c r s res p u) : Kept s u := by
  refine ⟨fun a ha => ?_⟩
  cases h with
  | status u w a room lies => exact Memory.read_writeBytes_outside hw (by omega)
  | current room lies => exact Memory.read_writeBytes_outside hw (by omega)
  | _ => rfl

theorem kept_processed {r : Request} {s u : State} {res : Res} {p : Response} (hw : s.mem.wf) (h : Processed r s res p u) : Kept s u := by
  cases h with
  | control => exact kept_ctl _ _ _ _ hw
  | fallback cb slot res p u hh =>
    have h1 := kept_ctl cb r [] s hw
    have h2 := kept_handled ((base_ctl cb r [] s).mem_wf hw) hh
    exact ⟨fun a ha => (h2.low a (by simpa using ha)).trans (h1.low a ha)⟩
  | builtin res p u hh => exact kept_handled hw hh

theorem Kept.header {s t : State} (h : Kept s t) (hb : t.data_buf = s.data_buf) : t.header = s.header :=
  header_congr hb fun a _ h2 => h.low a h2

theorem cs_handled {c : Nat → Prop} {r : Request} {s u : State} {res : Res} {p : Response} (h : Handled c r s res p u) : u.control_state = s.control_state := by
  cases h with
  | status u w a room lies => rcases a with rfl | rfl <;> rfl
  | _ => rfl

theorem cs_processed {r : Request} {s u : State} {res : Res} {p : Response} (h : Processed r s res p u) : u.control_state = s.control_state := by
  cases h with
  | control => simp
  | fallback cb slot res p u hh => rw [cs_handled hh]; simp
  | builtin res p u hh => exact cs_handled hh

end Sys2Proof.Machine
end

