-- ==== Sys2Proof/Laws/PerInstr.lean ====
section
/-! SUPPORT. Per instruction: its words carry the match of its row of the opcode table under that row's mask (R82). -/

namespace Sys2Proof

/-- Masking a word is masking its number. -/
theorem toNat_mask {n : Nat} {w m v : BitVec n} (h : w &&& m = v) : w.toNat &&& m.toNat = v.toNat := by
  rw [← BitVec.toNat_and, h]

/-- R64: the mask of the EVT rows keeps the kind. -/
theorem evt_mask (k ep : BitVec 8) : (k ++ ep) &&& 0xFF00#16 = k ++ 0#8 := by
  apply BitVec.eq_of_getLsbD_eq
  intro i hi
  simp only [BitVec.getLsbD_and, BitVec.getLsbD_append]
  interval_cases i <;> simp

/-- R82: the mask of the STD rows keeps the type and the request code. -/
theorem std_mask (r : Request) : r.packet &&& 0xFF60#64 = (r.bRequest ++ 0#1 ++ r.typ ++ 0#5).setWidth 64 := by
  apply BitVec.eq_of_getLsbD_eq
  intro i hi
  simp only [Request.packet, BitVec.getLsbD_and, BitVec.getLsbD_append, BitVec.getLsbD_setWidth]
  interval_cases i <;> simp

/-- R82: the mask of the NONSTD rows keeps the type. -/
theorem type_mask (r : Request) : r.packet &&& 0x60#64 = (r.typ ++ 0#5).setWidth 64 := by
  apply BitVec.eq_of_getLsbD_eq
  intro i hi
  simp only [Request.packet, BitVec.getLsbD_and, BitVec.getLsbD_append, BitVec.getLsbD_setWidth]
  interval_cases i <;> simp

/-- R63: the mask of the IN and OUT rows keeps the direction. -/
theorem dir_mask (r : Request) : r.packet &&& 0x80#64 = (BitVec.ofBool r.dir ++ 0#7).setWidth 64 := by
  apply BitVec.eq_of_getLsbD_eq
  intro i hi
  simp only [Request.packet, BitVec.getLsbD_and, BitVec.getLsbD_append, BitVec.getLsbD_setWidth]
  interval_cases i <;> simp

/-- R63: the mask of the NODATA row keeps `wLength`. -/
theorem length_mask (r : Request) : r.packet &&& 0xFFFF000000000000#64 = r.wLength ++ 0#48 := by
  apply BitVec.eq_of_getLsbD_eq
  intro i hi
  simp only [Request.packet, BitVec.getLsbD_and, BitVec.getLsbD_append]
  interval_cases i <;> simp

/-- A standard request's type and request code. -/
theorem isStd_fields {r : Request} {q : Nat} (h : r.isStd q = true) : r.typ = 0 ∧ r.bRequest = BitVec.ofNat 8 q := by
  simp only [Request.isStd, Bool.and_eq_true, decide_eq_true_eq] at h
  exact ⟨h.1, by rw [← h.2, BitVec.ofNat_toNat]; simp⟩

/-- R82: the number of a standard request under its row's mask. -/
theorem std_row {r : Request} {q : Nat} (h : r.isStd q = true) :
    r.packet.toNat &&& 0xFF60 = ((BitVec.ofNat 8 q ++ 0#1 ++ 0#2 ++ 0#5).setWidth 64).toNat := by
  obtain ⟨ht, hq⟩ := isStd_fields h
  have hm := toNat_mask (std_mask r)
  rw [ht, hq] at hm
  exact hm

namespace Laws.TableMatch

/-- A well-formed instruction's word, under the mask of its row of the opcode table, is that row's match. -/
def Statement (i : Instr) : Prop :=
  i.wf = true → (encode i).bits &&& i.tableRow.mask = i.tableRow.matched

theorem evtReset (ep : BitVec 8) : Statement (.evtReset ep) := fun _ => toNat_mask (evt_mask _ ep)
theorem evtSof (ep : BitVec 8) : Statement (.evtSof ep) := fun _ => toNat_mask (evt_mask _ ep)
theorem evtSuspend (ep : BitVec 8) : Statement (.evtSuspend ep) := fun _ => toNat_mask (evt_mask _ ep)
theorem evtWakeup (ep : BitVec 8) : Statement (.evtWakeup ep) := fun _ => toNat_mask (evt_mask _ ep)
theorem evtEptx (ep : BitVec 8) : Statement (.evtEptx ep) := fun _ => toNat_mask (evt_mask _ ep)
theorem evtEprx (ep : BitVec 8) : Statement (.evtEprx ep) := fun _ => toNat_mask (evt_mask _ ep)
theorem evtEpsetup (ep : BitVec 8) : Statement (.evtEpsetup ep) := fun _ => toNat_mask (evt_mask _ ep)
theorem evtError (ep : BitVec 8) : Statement (.evtError ep) := fun _ => toNat_mask (evt_mask _ ep)
theorem evtEsof (ep : BitVec 8) : Statement (.evtEsof ep) := fun _ => toNat_mask (evt_mask _ ep)
theorem cmdEnable : Statement .cmdEnable := fun _ => rfl
theorem cmdDisable : Statement .cmdDisable := fun _ => rfl
theorem cmdConnect : Statement .cmdConnect := fun _ => rfl
theorem cmdDisconnect : Statement .cmdDisconnect := fun _ => rfl
theorem cmdReset : Statement .cmdReset := fun _ => rfl
theorem resFail : Statement .resFail := fun _ => rfl
theorem resAck : Statement .resAck := fun _ => rfl
theorem resNak : Statement .resNak := fun _ => rfl
theorem setupNodata (r : Request) : Statement (.setupNodata r) := by
  intro h
  have hw : r.wLength = 0 := by simpa [Instr.wf] using h
  have hm := toNat_mask (length_mask r)
  rw [hw] at hm
  exact hm
theorem setupIn (r : Request) : Statement (.setupIn r) := by
  intro h
  have hd : r.dir = true := by
    simp only [Instr.wf, Bool.and_eq_true] at h
    exact h.2
  have hm := toNat_mask (dir_mask r)
  rw [hd] at hm
  exact hm
theorem setupOut (r : Request) : Statement (.setupOut r) := by
  intro h
  have hd : r.dir = false := by
    simp only [Instr.wf, Bool.and_eq_true, Bool.not_eq_true'] at h
    exact h.2
  have hm := toNat_mask (dir_mask r)
  rw [hd] at hm
  exact hm
theorem stdGetStatus (r : Request) : Statement (.stdGetStatus r) := fun h => std_row h
theorem stdClearFeature (r : Request) : Statement (.stdClearFeature r) := fun h => std_row h
theorem stdReserved2 (r : Request) : Statement (.stdReserved2 r) := fun h => std_row h
theorem stdSetFeature (r : Request) : Statement (.stdSetFeature r) := fun h => std_row h
theorem stdReserved4 (r : Request) : Statement (.stdReserved4 r) := fun h => std_row h
theorem stdSetAddress (r : Request) : Statement (.stdSetAddress r) := fun h => std_row h
theorem stdGetDescriptor (r : Request) : Statement (.stdGetDescriptor r) := fun h => std_row h
theorem stdSetDescriptor (r : Request) : Statement (.stdSetDescriptor r) := fun h => std_row h
theorem stdGetConfiguration (r : Request) : Statement (.stdGetConfiguration r) := fun h => std_row h
theorem stdSetConfiguration (r : Request) : Statement (.stdSetConfiguration r) := fun h => std_row h
theorem stdGetInterface (r : Request) : Statement (.stdGetInterface r) := fun h => std_row h
theorem stdSetInterface (r : Request) : Statement (.stdSetInterface r) := fun h => std_row h
theorem stdSynchFrame (r : Request) : Statement (.stdSynchFrame r) := fun h => std_row h
theorem stdOther (r : Request) : Statement (.stdOther r) := by
  intro h
  have ht : r.typ = 0 := by
    simp only [Instr.wf, Bool.and_eq_true, decide_eq_true_eq] at h
    exact h.1
  have hm := toNat_mask (type_mask r)
  rw [ht] at hm
  exact hm
theorem nonstdClass (r : Request) : Statement (.nonstdClass r) := by
  intro h
  have ht : r.typ = 1 := by simpa [Instr.wf] using h
  have hm := toNat_mask (type_mask r)
  rw [ht] at hm
  exact hm
theorem nonstdVendor (r : Request) : Statement (.nonstdVendor r) := by
  intro h
  have ht : r.typ = 2 := by simpa [Instr.wf] using h
  have hm := toNat_mask (type_mask r)
  rw [ht] at hm
  exact hm
theorem nonstdTypeReserved (r : Request) : Statement (.nonstdTypeReserved r) := by
  intro h
  have ht : r.typ = 3 := by simpa [Instr.wf] using h
  have hm := toNat_mask (type_mask r)
  rw [ht] at hm
  exact hm
theorem ep0IdleEpsetup : Statement .ep0IdleEpsetup := fun _ => rfl
theorem ep0IdleEprx : Statement .ep0IdleEprx := fun _ => rfl
theorem ep0IdleEptx : Statement .ep0IdleEptx := fun _ => rfl
theorem ep0RxdataEpsetup : Statement .ep0RxdataEpsetup := fun _ => rfl
theorem ep0RxdataEprx : Statement .ep0RxdataEprx := fun _ => rfl
theorem ep0RxdataEptx : Statement .ep0RxdataEptx := fun _ => rfl
theorem ep0TxdataEpsetup : Statement .ep0TxdataEpsetup := fun _ => rfl
theorem ep0TxdataEprx : Statement .ep0TxdataEprx := fun _ => rfl
theorem ep0TxdataEptx : Statement .ep0TxdataEptx := fun _ => rfl
theorem ep0ZtxdataEpsetup : Statement .ep0ZtxdataEpsetup := fun _ => rfl
theorem ep0ZtxdataEprx : Statement .ep0ZtxdataEprx := fun _ => rfl
theorem ep0ZtxdataEptx : Statement .ep0ZtxdataEptx := fun _ => rfl
theorem ep0LastdataEpsetup : Statement .ep0LastdataEpsetup := fun _ => rfl
theorem ep0LastdataEprx : Statement .ep0LastdataEprx := fun _ => rfl
theorem ep0LastdataEptx : Statement .ep0LastdataEptx := fun _ => rfl
theorem ep0StatusinEpsetup : Statement .ep0StatusinEpsetup := fun _ => rfl
theorem ep0StatusinEprx : Statement .ep0StatusinEprx := fun _ => rfl
theorem ep0StatusinEptx : Statement .ep0StatusinEptx := fun _ => rfl
theorem ep0StatusoutEpsetup : Statement .ep0StatusoutEpsetup := fun _ => rfl
theorem ep0StatusoutEprx : Statement .ep0StatusoutEprx := fun _ => rfl
theorem ep0StatusoutEptx : Statement .ep0StatusoutEptx := fun _ => rfl

end Laws.TableMatch

end Sys2Proof
end

