-- ==== Sys2Proof/Tests/Slice0.lean ====
section
/-! SUPPORT. The model's own tests: the well-formedness checks, one word of the spec for every constructor, single steps
of spec/95_test_vectors.md, and for every statement with hypotheses states and operands that meet them. -/

namespace Sys2Proof.Tests

open Sys2Proof.Machine

/-! ### Helpers -/

/-- A request from its bytes in wire order (R60). -/
def req (bs : List Byte) : Request := Request.ofPacket (packetOfBytes bs)

/-- The state after power-on, in a control state. -/
def inState (c : ControlState) : State := { State.reset with control_state := c }

/-- Answers in which a packet of these bytes is read whole. -/
def rx (bs : List Byte) : Answers := { Answers.silent with rx := { result := BitVec.ofNat 32 bs.length, bytes := bs } }

/-- A state with answers. -/
def answering (a : Answers) (s : State) : State := { s with answers := a }

/-- A state with bytes in the control buffer. -/
def buffered (bs : List Byte) (s : State) : State := { s with mem := s.mem.writeBytes s.data_buf bs }

/-- The trace of a step. -/
def traceOf (r : Result) : Option (List Call) := (stateOf r).map fun t => t.trace

/-- The control state after a step. -/
def controlOf (r : Result) : Option ControlState := (stateOf r).map fun t => t.control_state

/-- The base address of the control buffer (B of 95_test_vectors.md). -/
def B : Nat := 0x20000000

/-- GET_DESCRIPTOR(Device, wLength=18) (R80). -/
def getDescriptor : List Byte := [0x80, 0x06, 0x00, 0x01, 0x00, 0x00, 0x12, 0x00]

/-- SET_ADDRESS(5) (R80). -/
def setAddress5 : List Byte := [0x00, 0x05, 0x05, 0x00, 0x00, 0x00, 0x00, 0x00]

/-- SET_CONFIGURATION(1) (R80). -/
def setConfiguration1 : List Byte := [0x00, 0x09, 0x01, 0x00, 0x00, 0x00, 0x00, 0x00]

/-- GET_STATUS(Device) (R80). -/
def getStatus : List Byte := [0x80, 0x00, 0x00, 0x00, 0x00, 0x00, 0x02, 0x00]

/-- The vendor request with an OUT data stage of 64 bytes (R80). -/
def vendorOut : List Byte := [0x40, 0x01, 0x00, 0x00, 0x00, 0x00, 0x40, 0x00]

/-- A vendor request without data stage (95_test_vectors.md, Property 1). -/
def vendorNodata : List Byte := [0x40, 0x07, 0x00, 0x00, 0x00, 0x00, 0x00, 0x00]

/-- A vendor request with an IN data stage of 4 bytes (V41.7). -/
def vendorIn : List Byte := [0xC0, 0x02, 0x00, 0x00, 0x00, 0x00, 0x04, 0x00]

/-! ### Well-formedness: each check refuses an ill-formed term -/

theorem test_wf_setup_rows :
    (Instr.setupNodata (req getStatus)).wf = false ∧ (Instr.setupIn (req setAddress5)).wf = false ∧
    (Instr.setupIn (req vendorOut)).wf = false ∧ (Instr.setupOut (req setAddress5)).wf = false ∧
    (Instr.setupOut (req getStatus)).wf = false := by decide

theorem test_wf_std_rows :
    (Instr.stdGetStatus (req setAddress5)).wf = false ∧ (Instr.stdGetStatus (req [0xA0, 0, 0, 0, 0, 0, 2, 0])).wf = false ∧
    (Instr.stdClearFeature (req getStatus)).wf = false ∧ (Instr.stdReserved2 (req getStatus)).wf = false ∧
    (Instr.stdSetFeature (req getStatus)).wf = false ∧ (Instr.stdReserved4 (req getStatus)).wf = false ∧
    (Instr.stdSetAddress (req getStatus)).wf = false ∧ (Instr.stdGetDescriptor (req getStatus)).wf = false ∧
    (Instr.stdSetDescriptor (req getStatus)).wf = false ∧ (Instr.stdGetConfiguration (req getStatus)).wf = false ∧
    (Instr.stdSetConfiguration (req getStatus)).wf = false ∧ (Instr.stdGetInterface (req getStatus)).wf = false ∧
    (Instr.stdSetInterface (req getStatus)).wf = false ∧ (Instr.stdSynchFrame (req getStatus)).wf = false ∧
    (Instr.stdOther (req [0x00, 12, 0, 0, 0, 0, 0, 0])).wf = false ∧
    (Instr.stdOther (req [0x40, 13, 0, 0, 0, 0, 0, 0])).wf = false := by decide

theorem test_wf_nonstd_rows :
    (Instr.nonstdClass (req getStatus)).wf = false ∧ (Instr.nonstdVendor (req getStatus)).wf = false ∧
    (Instr.nonstdTypeReserved (req vendorOut)).wf = false := by decide

/-! ### Decoding: one word of the spec for every constructor -/

/-- Words of 95_test_vectors.md section 0 and V40, and R65. -/
theorem test_decode_evt :
    decode (.evt 0x0000) = .ok (.evtReset 0x00) ∧ decode (.evt 0x0100) = .ok (.evtSof 0x00) ∧
    decode (.evt 0x0200) = .ok (.evtSuspend 0x00) ∧ decode (.evt 0x0300) = .ok (.evtWakeup 0x00) ∧
    decode (.evt 0x0481) = .ok (.evtEptx 0x81) ∧ decode (.evt 0x0502) = .ok (.evtEprx 0x02) ∧
    decode (.evt 0x0600) = .ok (.evtEpsetup 0x00) ∧ decode (.evt 0x0700) = .ok (.evtError 0x00) ∧
    decode (.evt 0x0800) = .ok (.evtEsof 0x00) ∧ decode (.evt 0x0900) = .error .undefinedEvent := by decide

/-- R67, R68, R74, R75. -/
theorem test_decode_cmd_res :
    decode (.cmd 0x00) = .ok .cmdEnable ∧ decode (.cmd 0x01) = .ok .cmdDisable ∧ decode (.cmd 0x02) = .ok .cmdConnect ∧
    decode (.cmd 0x03) = .ok .cmdDisconnect ∧ decode (.cmd 0x04) = .ok .cmdReset ∧
    decode (.cmd 0x05) = .error .undefinedCommand ∧
    decode (.res 0x00) = .ok .resFail ∧ decode (.res 0x01) = .ok .resAck ∧ decode (.res 0x02) = .ok .resNak ∧
    decode (.res 0x03) = .ok .resFail := by decide

/-- R63 on requests of R80; the fields as R60 lays them out. -/
theorem test_decode_setup :
    decodeSetupBytes setAddress5 = .ok (.setupNodata ⟨false, 0, 0, 5, 0x0005, 0, 0⟩) ∧
    decodeSetupBytes getDescriptor = .ok (.setupIn ⟨true, 0, 0, 6, 0x0100, 0, 18⟩) ∧
    decodeSetupBytes vendorOut = .ok (.setupOut ⟨false, 2, 0, 1, 0, 0, 64⟩) ∧
    decodeSetupBytes [0x80, 0x06, 0x00, 0x01, 0x00, 0x00, 0x12] = .error .wrongLength := by decide

/-- R70 on requests of R80 and V45; byte 1 is the request code. -/
theorem test_decode_std :
    decode (.std (packetOfBytes [0x82, 0x00, 0x00, 0x00, 0x81, 0x00, 0x02, 0x00])) =
      .ok (.stdGetStatus ⟨true, 0, 2, 0, 0, 0x0081, 2⟩) ∧
    decode (.std (packetOfBytes [0x02, 0x01, 0x00, 0x00, 0x81, 0x00, 0x00, 0x00])) =
      .ok (.stdClearFeature ⟨false, 0, 2, 1, 0, 0x0081, 0⟩) ∧
    decode (.std (packetOfBytes [0x00, 0x02, 0, 0, 0, 0, 0, 0])) = .ok (.stdReserved2 ⟨false, 0, 0, 2, 0, 0, 0⟩) ∧
    decode (.std (packetOfBytes [0x02, 0x03, 0x00, 0x00, 0x02, 0x00, 0x00, 0x00])) =
      .ok (.stdSetFeature ⟨false, 0, 2, 3, 0, 0x0002, 0⟩) ∧
    decode (.std (packetOfBytes [0x00, 0x04, 0, 0, 0, 0, 0, 0])) = .ok (.stdReserved4 ⟨false, 0, 0, 4, 0, 0, 0⟩) ∧
    decode (.std (packetOfBytes setAddress5)) = .ok (.stdSetAddress ⟨false, 0, 0, 5, 5, 0, 0⟩) ∧
    decode (.std (packetOfBytes getDescriptor)) = .ok (.stdGetDescriptor ⟨true, 0, 0, 6, 0x0100, 0, 18⟩) ∧
    decode (.std (packetOfBytes [0x00, 0x07, 0, 0, 0, 0, 0, 0])) = .ok (.stdSetDescriptor ⟨false, 0, 0, 7, 0, 0, 0⟩) ∧
    decode (.std (packetOfBytes [0x80, 0x08, 0, 0, 0, 0, 0x01, 0])) =
      .ok (.stdGetConfiguration ⟨true, 0, 0, 8, 0, 0, 1⟩) ∧
    decode (.std (packetOfBytes setConfiguration1)) = .ok (.stdSetConfiguration ⟨false, 0, 0, 9, 1, 0, 0⟩) ∧
    decode (.std (packetOfBytes [0x81, 0x0A, 0, 0, 0, 0, 0x01, 0])) = .ok (.stdGetInterface ⟨true, 0, 1, 10, 0, 0, 1⟩) ∧
    decode (.std (packetOfBytes [0x01, 0x0B, 0, 0, 0, 0, 0, 0])) = .ok (.stdSetInterface ⟨false, 0, 1, 11, 0, 0, 0⟩) ∧
    decode (.std (packetOfBytes [0x82, 0x0C, 0, 0, 0, 0, 0x02, 0])) = .ok (.stdSynchFrame ⟨true, 0, 2, 12, 0, 0, 2⟩) ∧
    decode (.std (packetOfBytes [0x00, 0xFF, 0, 0, 0, 0, 0, 0])) = .ok (.stdOther ⟨false, 0, 0, 255, 0, 0, 0⟩) := by decide

/-- R61, R82: the three types that are not standard; `21 0A ...` is V45.11. -/
theorem test_decode_nonstd :
    decode (.std (packetOfBytes [0x21, 0x0A, 0, 0, 0, 0, 0, 0])) = .ok (.nonstdClass ⟨false, 1, 1, 10, 0, 0, 0⟩) ∧
    decode (.std (packetOfBytes vendorOut)) = .ok (.nonstdVendor ⟨false, 2, 0, 1, 0, 0, 64⟩) ∧
    decode (.std (packetOfBytes [0x60, 0x00, 0, 0, 0, 0, 0, 0])) =
      .ok (.nonstdTypeReserved ⟨false, 3, 0, 0, 0, 0, 0⟩) := by decide

/-- R81 with the codes of R26 and R65. -/
theorem test_decode_ep0 :
    decode (.ep0 0x006) = .ok .ep0IdleEpsetup ∧ decode (.ep0 0x005) = .ok .ep0IdleEprx ∧
    decode (.ep0 0x004) = .ok .ep0IdleEptx ∧ decode (.ep0 0x106) = .ok .ep0RxdataEpsetup ∧
    decode (.ep0 0x105) = .ok .ep0RxdataEprx ∧ decode (.ep0 0x104) = .ok .ep0RxdataEptx ∧
    decode (.ep0 0x206) = .ok .ep0TxdataEpsetup ∧ decode (.ep0 0x205) = .ok .ep0TxdataEprx ∧
    decode (.ep0 0x204) = .ok .ep0TxdataEptx ∧ decode (.ep0 0x306) = .ok .ep0ZtxdataEpsetup ∧
    decode (.ep0 0x305) = .ok .ep0ZtxdataEprx ∧ decode (.ep0 0x304) = .ok .ep0ZtxdataEptx ∧
    decode (.ep0 0x406) = .ok .ep0LastdataEpsetup ∧ decode (.ep0 0x405) = .ok .ep0LastdataEprx ∧
    decode (.ep0 0x404) = .ok .ep0LastdataEptx ∧ decode (.ep0 0x506) = .ok .ep0StatusinEpsetup ∧
    decode (.ep0 0x505) = .ok .ep0StatusinEprx ∧ decode (.ep0 0x504) = .ok .ep0StatusinEptx ∧
    decode (.ep0 0x606) = .ok .ep0StatusoutEpsetup ∧ decode (.ep0 0x605) = .ok .ep0StatusoutEprx ∧
    decode (.ep0 0x604) = .ok .ep0StatusoutEptx ∧ decode (.ep0 0x705) = .ok .ep0IdleEprx ∧
    decode (.ep0 0x003) = .error .notAnEndpointEvent := by decide

/-- Log 9: the word the host asks about is decoded, and placed so that the next step runs it. -/
theorem test_table_words :
    decodeTableWord 16 0x0480 = some (.evtEptx 0x80) ∧ decodeTableWord 8 0x04 = some .cmdReset ∧
    decodeTableWord 16 0x105 = some .ep0RxdataEprx ∧ decodeTableWord 16 0x0900 = some (.stdSetConfiguration (req [0, 9, 0, 0, 0, 0, 0, 0])) ∧
    controlOf (step (State.reset.withFetchWord 16 0x104)) = some .idle ∧
    traceOf (step (State.reset.withFetchWord 8 0x02)) = some [.connect true] := by decide

/-! ### Single steps (spec/95_test_vectors.md) -/

/-- V46.1, V46.2, V46.3, V46.4. -/
theorem test_cmd_transceiver :
    traceOf (exec .cmdEnable State.reset) = some [.enable true] ∧
    (stateOf (exec .cmdEnable State.reset)).map (fun t => t.device_state) = some .disconnected ∧
    traceOf (exec .cmdDisable (inState .statusin)) = some [.enable false] ∧
    controlOf (exec .cmdDisable (inState .statusin)) = some .statusin ∧
    traceOf (exec .cmdConnect State.reset) = some [.connect true] ∧
    traceOf (exec .cmdDisconnect State.reset) = some [.connect false] := by decide

/-- V46.6. -/
theorem test_cmd_reset :
    (stateOf (exec .cmdReset
      { inState .rxdata with device_cfg := 1, device_state := .configured, data_count := 40, complete_cb := some 1 })).map
        (fun t => (t.device_state, t.control_state, t.device_cfg, t.complete_cb, t.data_count)) =
      some (.default, .idle, 0, none, 40) := by decide

/-- V40.3. -/
def configuredInTxdata : State :=
  { inState .txdata with
    device_cfg := 1, complete_cb := some 1, pend_addr_v := true, evt_cb := { EvtTable.none with reset := some 7 } }

theorem test_evt_reset :
    traceOf (exec (.evtReset 0x00) configuredInTxdata) = some [.evtCb 7 .reset 0x00] ∧
    (stateOf (exec (.evtReset 0x00) configuredInTxdata)).map
        (fun t => (t.device_state, t.control_state, t.device_cfg, t.complete_cb, t.pend_addr_v)) =
      some (.default, .idle, 0, none, false) := by decide

/-- V40.1, V40.2, V40.8, V40.10. -/
theorem test_evt_informational :
    traceOf (exec (.evtSof 0x00) State.reset) = some [] ∧
    traceOf (exec (.evtSof 0x00) { State.reset with evt_cb := { EvtTable.none with sof := some 3 } }) =
      some [.evtCb 3 .sof 0x00] ∧
    traceOf (exec (.evtSuspend 0x00) { State.reset with evt_cb := { EvtTable.none with suspend := some 4 } }) =
      some [.evtCb 4 .suspend 0x00] ∧
    traceOf (exec (.evtWakeup 0x00) { State.reset with evt_cb := { EvtTable.none with suspend := some 4 } }) = some [] ∧
    controlOf (exec (.evtError 0x00) (inState .rxdata)) = some .rxdata ∧
    traceOf (exec (.evtEsof 0x80) { State.reset with evt_cb := { EvtTable.none with esof := some 5 } }) =
      some [.evtCb 5 .esof 0x80] := by decide

/-- V40.4, V40.5, V40.6, V40.9. -/
theorem test_evt_routing :
    traceOf (exec (.evtEprx 0x01) State.reset) = some [.epSetStall 0x01 true] ∧
    traceOf (exec (.evtEptx 0x81) { State.reset with ep_cb := { EpTable.none with ep1 := some 9 } }) =
      some [.epCb 9 1 .eptx 0x81] ∧
    controlOf (exec (.evtEptx 0x88) (inState .statusin)) = some .idle ∧
    traceOf (exec (.evtEprx 0x02) { State.reset with evt_cb := { EvtTable.none with eprx := some 2 } }) =
      some [.epSetStall 0x02 true] := by decide

/-- V41.1, V41.2: a Setup read that does not return 8. -/
theorem test_setup_bad :
    traceOf (exec (.evtEpsetup 0x00) State.reset) =
      some [.epRead 0x00 B 8 (-1), .epSetStall 0x00 true, .epSetStall 0x80 true] ∧
    (stateOf (exec .ep0IdleEpsetup (answering (rx (setAddress5.take 7)) State.reset))).map (fun t => t.cause) =
      some (some .badSetup) := by decide

/-- Scenario 1, step 1. -/
theorem test_scenario1_setup :
    (stateOf (exec (.evtEpsetup 0x00) (answering
      { rx getDescriptor with dsc := { res := 1, rptr := 0x1000, rlen := 18 } }
      { State.reset with ctl_cb := some 1, dsc_cb := some 2 }))).map
        (fun t => (t.trace.length, t.data_ptr, t.data_count, t.tx_short, t.control_state)) =
      some (4, 0x1008, 10, false, .txdata) := by decide

/-- Scenario 1, steps 2 to 5, each on its own start. -/
theorem test_scenario1_data :
    (stateOf (exec .ep0TxdataEptx { inState .txdata with data_ptr := 0x1008, data_count := 10 })).map
        (fun t => (t.data_ptr, t.data_count, t.control_state)) = some (0x1010, 2, .txdata) ∧
    (stateOf (exec .ep0TxdataEptx { inState .txdata with data_ptr := 0x1010, data_count := 2 })).map
        (fun t => (t.data_ptr, t.data_count, t.control_state)) = some (0x1012, 0, .lastdata) ∧
    traceOf (exec .ep0LastdataEptx { inState .lastdata with data_ptr := 0x1012 }) = some [.epWrite 0x80 0x1012 0 []] ∧
    controlOf (exec .ep0StatusinEptx (inState .statusin)) = some .idle := by decide

/-- Scenario 2, step 1: the address is stored, nothing is applied. -/
theorem test_set_address :
    (stateOf (exec (.evtEpsetup 0x00) (answering (rx setAddress5) State.reset))).map
        (fun t => (t.pend_addr, t.pend_addr_v, t.control_state, t.device_state)) =
      some (5, true, .statusin, .disabled) := by decide

/-- V44.2. -/
theorem test_completion_order :
    (stateOf (exec .ep0StatusinEptx (buffered vendorNodata
      { inState .statusin with pend_addr := 5, pend_addr_v := true, complete_cb := some 6 }))).map
        (fun t => (t.trace, t.device_state, t.pend_addr_v, t.complete_cb, t.control_state)) =
      some ([.setAddress 5, .completeCb 6 (req vendorNodata)], .addressed, false, none, .idle) := by decide

/-- Scenario 3, step 1, and V45.10. -/
theorem test_set_configuration :
    (stateOf (exec .ep0IdleEpsetup (answering { rx setConfiguration1 with cfg := 1 }
      { State.reset with cfg_cb := some 3 }))).map (fun t => (t.device_cfg, t.device_state, t.control_state)) =
      some (1, .configured, .statusin) ∧
    (stateOf (exec .ep0IdleEpsetup (answering (rx setConfiguration1)
      { State.reset with cfg_cb := some 3, device_state := .addressed }))).map
        (fun t => (t.device_cfg, t.device_state, t.control_state)) = some (0, .addressed, .idle) := by decide

/-- V45.1: GET_STATUS of a halted endpoint. -/
theorem test_get_status :
    (stateOf (exec (.stdGetStatus (req [0x82, 0x00, 0x00, 0x00, 0x81, 0x00, 0x02, 0x00]))
      (answering { Answers.silent with stalled := true } State.reset))).map (fun t => (t.trace, t.control_state)) =
      some ([.epIsStalled 0x81 true, .epWrite 0x80 (B + 8) 2 [0x01, 0x00]], .lastdata) := by decide

/-- V45.8, and V45.18 for one byte less. -/
theorem test_get_configuration :
    traceOf (exec (.stdGetConfiguration (req [0x80, 0x08, 0, 0, 0, 0, 0x01, 0])) { State.reset with device_cfg := 3 }) =
      some [.epWrite 0x80 (B + 8) 1 [0x03]] ∧
    controlOf (exec (.stdGetStatus (req getStatus)) { State.reset with data_maxsize := 1 }) = some .idle := by decide

/-- V45.5, V45.6, V45.7. -/
theorem test_features :
    traceOf (exec (.stdClearFeature (req [0x00, 0x01, 0x01, 0x00, 0, 0, 0, 0])) State.reset) =
      some [.epSetStall 0x00 true, .epSetStall 0x80 true] ∧
    traceOf (exec (.stdClearFeature (req [0x02, 0x01, 0, 0, 0x81, 0, 0, 0])) State.reset) =
      some [.epSetStall 0x81 false, .epWrite 0x80 0 0 []] ∧
    controlOf (exec (.stdSetFeature (req [0x02, 0x03, 0, 0, 0x00, 0, 0, 0])) State.reset) = some .statusin := by decide

/-- V45.13, V45.17. -/
theorem test_get_descriptor :
    traceOf (exec (.stdGetDescriptor (req getDescriptor))
      (answering { Answers.silent with dsc := { res := 2, rptr := 0, rlen := 0 } } { State.reset with dsc_cb := some 2 })) =
      some [.dscCb 2 (req getDescriptor) 2] ∧
    controlOf (exec (.stdGetDescriptor (req getDescriptor)) State.reset) = some .idle := by decide

/-- R76: a standard request to recipient 4 stalls, one to recipient 3 does not. -/
theorem test_reserved_recipient :
    (stateOf (exec (.stdSetAddress (req [0x04, 0x05, 5, 0, 0, 0, 0, 0])) State.reset)).map
      (fun t => (t.trace, t.pend_addr_v)) = some ([.epSetStall 0x00 true, .epSetStall 0x80 true], false) ∧
    (stateOf (exec (.stdSetAddress (req [0x03, 0x05, 5, 0, 0, 0, 0, 0])) State.reset)).map
      (fun t => (t.pend_addr, t.pend_addr_v)) = some (5, true) := by decide

/-- V45.11, V45.16: requests the handler does not recognise. -/
theorem test_unrecognised :
    traceOf (exec (.nonstdClass (req [0x21, 0x0A, 0, 0, 0, 0, 0, 0])) State.reset) =
      some [.epSetStall 0x00 true, .epSetStall 0x80 true] ∧
    (stateOf (exec (.stdGetInterface (req [0x81, 0x0A, 0, 0, 0, 0, 1, 0])) State.reset)).map (fun t => t.cause) =
      some (some .requestFailed) := by decide

/-- Property 1, V41.3, V41.12: a request without data stage. -/
theorem test_setup_nodata :
    traceOf (exec (.setupNodata (req vendorNodata)) (answering
      { Answers.silent with ctl := { res := 1, rptr := 0, rlen := 0, ccb := some 6, writes := [] } }
      { State.reset with ctl_cb := some 1 })) = some [.ctlCb 1 (req vendorNodata) [] 1, .epWrite 0x80 (B + 8) 0 []] ∧
    controlOf (exec (.setupNodata (req vendorNodata)) (answering
      { Answers.silent with ctl := { res := 2, rptr := 0, rlen := 0, ccb := none, writes := [] } }
      { State.reset with ctl_cb := some 1 })) = some .idle := by decide

/-- V41.9: a full last packet that leaves a zero-length one owed; V41.7: an empty response. -/
theorem test_setup_in :
    controlOf (exec (.setupIn (req [0xC0, 0x02, 0, 0, 0, 0, 0x09, 0x00])) (answering
      { Answers.silent with ctl := { res := 1, rptr := 0x1000, rlen := 8, ccb := none, writes := [] } }
      { State.reset with ctl_cb := some 1 })) = some .ztxdata ∧
    controlOf (exec (.setupIn (req vendorIn)) (answering
      { Answers.silent with ctl := { res := 1, rptr := 0x1000, rlen := 0, ccb := none, writes := [] } }
      { State.reset with ctl_cb := some 1 })) = some .lastdata := by decide

/-- V41.10 and Property 3: `wLength` 128 is accepted, 129 stalls. -/
theorem test_setup_out :
    controlOf (exec (.setupOut (req [0x40, 0x01, 0, 0, 0, 0, 0x80, 0x00])) State.reset) = some .rxdata ∧
    (stateOf (exec (.setupOut (req [0x40, 0x01, 0, 0, 0, 0, 0x81, 0x00])) State.reset)).map (fun t => t.cause) =
      some (some .overflow) := by decide

/-- V42.1, second packet; V42.2. -/
theorem test_data_out :
    (stateOf (exec .ep0RxdataEprx (answering
      { rx [0xAA, 0xBB] with ctl := { res := 1, rptr := 0, rlen := 0, ccb := none, writes := [] } }
      (buffered [0x40, 0x01, 0, 0, 0, 0, 0x0A, 0x00]
        { inState .rxdata with data_ptr := B + 16, data_count := 2, ctl_cb := some 1 })))).map
        (fun t => (t.data_ptr, t.data_count, t.control_state, t.mem.read (B + 17), t.trace.length)) =
      some (B + 18, 0, .statusin, 0xBB, 3) ∧
    (stateOf (exec .ep0RxdataEprx (answering (rx [1, 2, 3])
      { inState .rxdata with data_ptr := B + 8, data_count := 10 }))).map
        (fun t => (t.data_ptr, t.data_count, t.control_state)) = some (B + 11, 7, .rxdata) := by decide

/-- V42.4, V42.5: a read that fails, and one that returns more than was asked. -/
theorem test_data_out_bad :
    (stateOf (exec .ep0RxdataEprx { inState .rxdata with data_ptr := B + 8, data_count := 10 })).map (fun t => t.cause) =
      some (some .badDataOut) ∧
    (stateOf (exec .ep0RxdataEprx (answering (rx [1, 2, 3, 4, 5, 6, 7, 8])
      { inState .rxdata with data_ptr := B + 16, data_count := 2 }))).map (fun t => t.cause) =
      some (some .badDataOut) := by decide

/-- V43.14, V44.4, V44.5; and the zero-length data packet of P3 step 3. -/
theorem test_status_out :
    controlOf (exec .ep0LastdataEptx
      { inState .lastdata with params := { Config.params with statusAfterIn := .statusout } }) = some .statusout ∧
    traceOf (exec .ep0StatusoutEprx (answering (rx []) (inState .statusout))) = some [.epRead 0x00 0 0 0] ∧
    (stateOf (exec .ep0StatusoutEprx (answering (rx [1]) (inState .statusout)))).map (fun t => t.cause) =
      some (some .badStatusOut) ∧
    controlOf (exec .ep0ZtxdataEptx (inState .ztxdata)) = some .lastdata := by decide

/-- V60.1, V60.3, V60.8. -/
theorem test_out_of_sequence :
    traceOf (exec .ep0IdleEprx State.reset) = some [.epSetStall 0x00 true, .epSetStall 0x80 true] ∧
    controlOf (exec .ep0RxdataEptx (inState .rxdata)) = some .idle ∧
    (stateOf (exec .ep0StatusoutEptx (inState .statusout))).map (fun t => t.cause) =
      some (some .outOfSequence) := by decide

/-- R68, R157. -/
theorem test_results :
    (stateOf (exec .resFail State.reset)).map (fun t => t.cause) = some (some .requestFailed) ∧
    traceOf (exec .resNak State.reset) = some [] ∧
    controlOf (exec .resAck (buffered vendorNodata State.reset)) = some .statusin := by decide

/-! ### Witnesses: states and operands that meet the hypotheses of the statements -/

/-- A state with one delivery waiting. -/
def delivered (d : Input) (s : State) : State := { s with inputs := [{ input := d, answers := Answers.silent }] }

/-- Answers in which the control callback returns a result with a response. -/
def ctl (res : BitVec 8) (rptr : Nat) (rlen : BitVec 16) : Answers :=
  { Answers.silent with ctl := { res := res, rptr := rptr, rlen := rlen, ccb := none, writes := [] } }

/-- V42.1 before its second packet: two bytes of ten are still to come. -/
def twoBytesLeft : State :=
  buffered [0x40, 0x01, 0, 0, 0, 0, 0x0A, 0x00] { inState .rxdata with data_ptr := B + 16, data_count := 2 }

/-- Scenario 1 after its first packet: 10 of 18 bytes of a descriptor at the end of memory are still to be sent. -/
def tenBytesLeft : State :=
  buffered getDescriptor
    { inState .txdata with
      data_ptr := 2 ^ 32 - 10, data_count := 10, resp := { ptr := 2 ^ 32 - 18, len := 18 } }

theorem witness_invariant_rxdata : Inv twoBytesLeft := by constructor <;> decide

theorem witness_invariant_txdata : Inv tenBytesLeft := by constructor <;> decide

/-- The invariant in a state with a token waiting, which the step consumes. -/
theorem witness_EveryStepKeepsTheInvariant :
    Inv (delivered (.evt 0x0500) twoBytesLeft) ∧ (stateOf (step (delivered (.evt 0x0500) twoBytesLeft))).isSome = true :=
  ⟨by constructor <;> decide, by decide⟩

theorem witness_WithADutifulEnvironmentNoStepStops :
    Inv (delivered (.evt 0x0480) tenBytesLeft) ∧ Dutiful (delivered (.evt 0x0480) tenBytesLeft) := by
  refine ⟨by constructor <;> decide, ⟨?_, ?_⟩⟩
  · intro d hd
    obtain rfl : d = { input := .evt 0x0480, answers := Answers.silent } := by simpa [delivered] using hd
    refine ⟨?_, ?_, ?_⟩
    · unfold Response.fits; decide
    · unfold Response.fits; decide
    · intro a v h; exact absurd h (by simp)
  · intro _; unfold Response.fits; decide

theorem witness_EndpointZeroEventsComplete :
    (0x80 : Byte).extractLsb' 0 3 = 0 ∧ Instr.evtEptx 0x80 ∈ [.evtEptx 0x80, .evtEprx 0x80, Instr.evtEpsetup 0x80] ∧
    Inv tenBytesLeft ∧ Response.fits tenBytesLeft.params tenBytesLeft.ctlResponse ∧
    Response.fits tenBytesLeft.params tenBytesLeft.dscResponse ∧
    (tenBytesLeft.control_state = .txdata → Response.fits tenBytesLeft.params tenBytesLeft.resp) :=
  ⟨by decide, by decide, witness_invariant_txdata, by unfold Response.fits; decide, by unfold Response.fits; decide,
   fun _ => by unfold Response.fits; decide⟩

theorem witness_DecodingAnEncodedInstructionGivesItBack :
    (Instr.evtEptx 0xFF).wf = true ∧ (Instr.setupNodata (req vendorNodata)).wf = true ∧
    (Instr.setupIn (req vendorIn)).wf = true ∧ (Instr.setupOut (req vendorOut)).wf = true ∧
    (Instr.stdSynchFrame (req [0x82, 12, 0, 0, 0, 0, 2, 0])).wf = true ∧
    (Instr.stdOther (req [0x00, 13, 0, 0, 0, 0, 0, 0])).wf = true ∧ (Instr.nonstdVendor (req vendorOut)).wf = true := by
  decide

theorem witness_EncodingADecodedWordGivesItBack :
    decode (.res 2) = .ok .resNak ∧ (2 : BitVec 8).toNat ≤ 2 ∧
    decode (.ep0 0x606) = .ok .ep0StatusoutEpsetup ∧ ((0x606 : BitVec 11).extractLsb' 8 3).toNat ≤ 6 := by decide

theorem witness_SetupPacketsFallIntoThreeClasses :
    decode (.setup (packetOfBytes vendorNodata)) = .ok (.setupNodata (req vendorNodata)) ∧
    decode (.setup (packetOfBytes [0x80, 0, 0, 0, 0, 0, 0, 0])) = .ok (.setupNodata (req [0x80, 0, 0, 0, 0, 0, 0, 0])) ∧
    decode (.setup (packetOfBytes vendorIn)) = .ok (.setupIn (req vendorIn)) ∧
    decode (.setup (packetOfBytes vendorOut)) = .ok (.setupOut (req vendorOut)) := by decide

theorem witness_UndefinedTokensAreIgnored :
    (delivered (.evt 0x0980) State.reset).inputs = ⟨.evt 0x0980, Answers.silent⟩ :: [] ∧
    9 ≤ ((0x0980 : BitVec 16).extractLsb' 8 8).toNat ∧
    (delivered (.cmd 5) State.reset).inputs = ⟨.cmd 5, Answers.silent⟩ :: [] ∧ 5 ≤ (5 : BitVec 8).toNat := by decide

theorem witness_UndefinedResultsAreFail :
    let s := answering { ctl 3 0 0 with dsc := { res := 255, rptr := 0, rlen := 0 }, cfg := 2 }
      { State.reset with ctl_cb := some 1, dsc_cb := some 2, cfg_cb := some 3 }
    s.ctl_cb = some 1 ∧ s.answers.ctl.res ≠ 1 ∧ s.answers.ctl.res ≠ 2 ∧ (req getDescriptor).recipient.toNat < 4 ∧
    decode (.std (req getDescriptor).packet) = .ok (.stdGetDescriptor (req getDescriptor)) ∧
    s.dsc_cb = some 2 ∧ s.answers.dsc.res ≠ 1 ∧ s.answers.dsc.res ≠ 2 ∧ s.cfg_cb = some 3 ∧ s.answers.cfg ≠ 1 := by decide

theorem witness_AStepRunsTheDecodedInstruction :
    State.reset.inputs = [] ∧ decode (.evt 0x0480) = .ok (.evtEptx 0x80) ∧ decode (.cmd 0) = .ok .cmdEnable ∧
    decode (.res 1) = .ok .resAck ∧
    (let s := buffered getDescriptor State.reset
     s.data_buf + 8 ≤ 2 ^ s.params.ptrW ∧
     decodeSetupBytes (s.mem.readBytes s.data_buf 8) = .ok (.setupIn (req getDescriptor)) ∧
     decode (.std (packetOfBytes (s.mem.readBytes s.data_buf 8))) = .ok (.stdGetDescriptor (req getDescriptor))) ∧
    decode (.ep0 ((inState .statusin).control_state.code ++ (4 : BitVec 8))) = .ok .ep0StatusinEptx := by decide

theorem witness_EnvironmentActionsChangeOnlyTheirTarget :
    (delivered (.env (.register (.evt .esof) (some 1))) State.reset).inputs =
      ⟨.env (.register (.evt .esof) (some 1)), Answers.silent⟩ :: [] ∧
    (delivered (.env (.write (B - 1) 7)) State.reset).inputs = ⟨.env (.write (B - 1) 7), Answers.silent⟩ :: [] ∧
    State.reset.mem.wf ∧ B - 1 < 2 ^ State.reset.params.ptrW ∧ B - 1 < State.reset.data_buf ∧
    B + 136 < 2 ^ State.reset.params.ptrW ∧
    State.reset.data_buf + 8 + State.reset.data_maxsize.toNat ≤ B + 136 := by decide

theorem witness_InformationalEventsOnlyCallBack (s : State) (ep : Byte) :
    (Instr.evtSof ep, s.evt_cb.sof, EventKind.sof) ∈
      [(.evtSof ep, s.evt_cb.sof, .sof), (.evtSuspend ep, s.evt_cb.suspend, .suspend),
       (.evtWakeup ep, s.evt_cb.wakeup, .wakeup), (.evtError ep, s.evt_cb.error, .error),
       (.evtEsof ep, s.evt_cb.esof, EventKind.esof)] := by simp

theorem witness_EndpointEventsGoToTheirSlot :
    (0x88 : Byte).extractLsb' 0 3 = 0 ∧
    decode (.ep0 ((inState .statusin).control_state.code ++ EventKind.eptx.code)) = .ok .ep0StatusinEptx ∧
    (0x81 : Byte).extractLsb' 0 3 = 1 ∧ (0x07 : Byte).extractLsb' 0 3 = 7 ∧
    ({ State.reset with ep_cb := { EpTable.none with ep1 := some 9 } } : State).ep_cb.ep1 = some 9 ∧
    State.reset.ep_cb.ep7 = none := by decide

theorem witness_TheEngineSelectsOnEventAndControlState :
    (0x80 : Byte).extractLsb' 0 3 = 0 ∧ Instr.ep0StatusoutEpsetup ∈ setupRows := by decide

theorem witness_OutOfSequenceEventsStallEndpointZero (s : State) :
    (Instr.ep0StatusoutEptx, { s.hab with tx_pending := none }) ∈
      [(.ep0IdleEprx, { s.hab with rx_waiting := true }), (.ep0TxdataEprx, { s.hab with rx_waiting := true }),
       (.ep0ZtxdataEprx, { s.hab with rx_waiting := true }), (.ep0LastdataEprx, { s.hab with rx_waiting := true }),
       (.ep0StatusinEprx, { s.hab with rx_waiting := true }), (.ep0IdleEptx, { s.hab with tx_pending := none }),
       (.ep0RxdataEptx, { s.hab with tx_pending := none }),
       (Instr.ep0StatusoutEptx, { s.hab with tx_pending := none })] := by simp

/-- Both clauses: 7 bytes, and 8. -/
theorem witness_ASetupEventReadsAndDecodesItsPacket :
    Instr.ep0TxdataEpsetup ∈ setupRows ∧ State.reset.mem.wf ∧ State.reset.data_buf + 8 ≤ 2 ^ State.reset.params.ptrW ∧
    (answering (rx (setAddress5.take 7)) State.reset).answers.rx.result.toInt ≠ 8 ∧
    (answering (rx setAddress5) State.reset).answers.rx.result.toInt = 8 ∧
    decodeSetupBytes (firstBytes (answering (rx setAddress5) State.reset).answers.rx.bytes 8) =
      .ok (.setupNodata (req setAddress5)) := by decide

theorem witness_SetupEventsComplete :
    let s := answering (rx getDescriptor) State.reset
    Instr.evtEpsetup 0x00 ∈ Instr.evtEpsetup 0x00 :: setupRows ∧ (0x00 : Byte).extractLsb' 0 3 = 0 ∧ s.mem.wf ∧
    s.data_buf + 8 + s.data_maxsize.toNat ≤ 2 ^ s.params.ptrW ∧ s.answers.rx.result = 8 ∧
    s.ctlResponse.ptr + s.ctlResponse.len.toNat ≤ 2 ^ s.params.ptrW ∧
    s.dscResponse.ptr + s.dscResponse.len.toNat ≤ 2 ^ s.params.ptrW := by decide

theorem witness_RequestsWithoutDataStage :
    ({ State.reset with ctl_cb := some 1 } : State).ctl_cb = some 1 ∧ State.reset.ctl_cb = none ∧
    (answering (ctl 1 0 0) State.reset).answers.ctl.res = 1 ∧ (answering (ctl 2 0 0) State.reset).answers.ctl.res = 2 ∧
    (answering (ctl 0 0 0) State.reset).answers.ctl.res ≠ 1 ∧ (answering (ctl 0 0 0) State.reset).answers.ctl.res ≠ 2 ∧
    decode (.std (req vendorNodata).packet) = .ok (.nonstdVendor (req vendorNodata)) := by decide

/-- The response ends where memory ends. -/
theorem witness_RequestsWithAnInDataStage :
    let s := answering (ctl 1 (2 ^ 32 - 4) 4) { State.reset with ctl_cb := some 1 }
    s.ctl_cb = some 1 ∧ s.answers.ctl.res = 1 ∧
    s.ctlResponse.ptr + min (min (req vendorIn).wLength.toNat s.ctlResponse.len.toNat) s.ep0size.toNat =
      2 ^ s.params.ptrW ∧
    (answering (ctl 2 0 0) s).answers.ctl.res = 2 ∧ (answering (ctl 7 0 0) s).answers.ctl.res ≠ 1 ∧
    (answering (ctl 7 0 0) s).answers.ctl.res ≠ 2 ∧ State.reset.ctl_cb = none ∧
    decode (.std (req vendorIn).packet) = .ok (.nonstdVendor (req vendorIn)) := by decide

theorem witness_RequestsWithAnOutDataStage :
    State.reset.data_maxsize.toNat < (req [0x40, 1, 0, 0, 0, 0, 0x81, 0]).wLength.toNat ∧
    (req [0x40, 1, 0, 0, 0, 0, 0x80, 0]).wLength.toNat = State.reset.data_maxsize.toNat := by decide

theorem witness_TheControlCallbackReachesOnlyThePayloadArea : twoBytesLeft.mem.wf := by decide

/-- Both causes: a result of -1, and 8 bytes where 2 were asked. -/
theorem witness_ABadDataReadStalls :
    twoBytesLeft.data_ptr + min twoBytesLeft.data_count.toNat twoBytesLeft.ep0size.toNat ≤
      2 ^ twoBytesLeft.params.ptrW ∧
    twoBytesLeft.answers.rx.result.toInt < 0 ∧
    (min twoBytesLeft.data_count.toNat twoBytesLeft.ep0size.toNat : Int) <
      (answering (rx setAddress5) twoBytesLeft).answers.rx.result.toInt := by decide

/-- Fewer bytes than asked, and none. -/
theorem witness_AnOutPacketIsAccumulated :
    let s := answering (rx [0xAA]) twoBytesLeft
    s.mem.wf ∧ s.data_ptr + min s.data_count.toNat s.ep0size.toNat ≤ 2 ^ s.params.ptrW ∧
    s.answers.rx.result.toInt = (1 : Nat) ∧ 1 ≤ min s.data_count.toNat s.ep0size.toNat ∧ 1 ≠ s.data_count.toNat ∧
    (answering (rx []) s).answers.rx.result.toInt = (0 : Nat) ∧ 0 ≠ s.data_count.toNat := by decide

theorem witness_ACompletePayloadIsDecidedByTheControlCallback :
    let s := answering { rx [0xAA, 0xBB] with ctl := (ctl 1 0 0).ctl } { twoBytesLeft with ctl_cb := some 1 }
    s.data_ptr + min s.data_count.toNat s.ep0size.toNat ≤ 2 ^ s.params.ptrW ∧
    s.answers.rx.result.toInt = s.data_count.toNat ∧ s.data_count.toNat ≤ s.ep0size.toNat ∧
    (let t := { packetRead s.data_ptr s.data_count.toNat s with
                data_ptr := s.data_ptr + s.data_count.toNat, data_count := 0 }
     s.data_buf + 8 + max 1 t.header.wLength.toNat ≤ 2 ^ s.params.ptrW) ∧
    twoBytesLeft.ctl_cb = none ∧ s.ctl_cb = some 1 ∧ s.answers.ctl.res = 1 ∧
    (answering (ctl 2 0 0) s).answers.ctl.res = 2 ∧ (answering (ctl 0 0 0) s).answers.ctl.res ≠ 1 ∧
    (answering (ctl 0 0 0) s).answers.ctl.res ≠ 2 := by decide

theorem witness_TheOutDataStageNeverOverflowsTheBuffer :
    Inv twoBytesLeft ∧ twoBytesLeft.control_state = .rxdata ∧
    (stateOf (exec .ep0RxdataEprx twoBytesLeft)).isSome = true :=
  ⟨witness_invariant_rxdata, rfl, by decide⟩

/-- Both alternatives: bytes that end where memory ends, and no bytes at all. -/
theorem witness_ATransmitCompletionSendsTheNextChunk :
    (let s := { tenBytesLeft with data_ptr := 2 ^ 32 - 8 }
     8 = min s.data_count.toNat s.ep0size.toNat ∧ s.data_ptr + 8 = 2 ^ s.params.ptrW) ∧
    0 = min ({ tenBytesLeft with data_count := 0 } : State).data_count.toNat tenBytesLeft.ep0size.toNat := by decide

theorem witness_TheEndOfTheInDataStage :
    State.reset.params.statusAfterIn = .statusin ∧
    (State.init { Config.params with statusAfterIn := .statusout }).params.statusAfterIn = .statusout := by decide

/-- V43 row 3: 16 bytes of 64 in packets of 8, at the end of memory, a zero-length packet owed; V43 row 6: none of 5. -/
theorem witness_AnInDataStageDeliversTheClampedResponse :
    16 = min (64 : BitVec 16).toNat (16 : BitVec 16).toNat ∧ 8 = State.reset.ep0size.toNat ∧ (64 : BitVec 16) ≠ 0 ∧
    2 ^ 32 - 16 + 16 ≤ 2 ^ State.reset.params.ptrW ∧ State.reset.trace = [] ∧
    (0 < 16 ∧ 16 % 8 = 0 ∧ (16 : BitVec 16).toNat < (64 : BitVec 16).toNat) ∧
    0 = min (5 : BitVec 16).toNat (0 : BitVec 16).toNat ∧ ¬ (0 < 0 ∧ 0 % 8 = 0 ∧ 0 < 5) := by decide

theorem witness_TheStatusInStageCompletesTheTransfer :
    State.reset.complete_cb = none ∧ State.reset.data_buf + 8 ≤ 2 ^ State.reset.params.ptrW := by decide

theorem witness_TheStatusOutStageCompletesOrStalls :
    (answering (rx []) State.reset).answers.rx.result.toInt = 0 ∧
    (answering (rx []) State.reset).complete_cb = none ∧
    State.reset.data_buf + 8 ≤ 2 ^ State.reset.params.ptrW ∧
    (answering (rx [1]) State.reset).answers.rx.result.toInt ≠ 0 := by decide

/-- Both alternatives: a row that serves nothing, and a row that serves a request, for the recipients 4 and 31. -/
theorem witness_UnrecognisedRequestsStall (r : Request) :
    (4 ≤ (req [0x04, 5, 5, 0, 0, 0, 0, 0]).recipient.toNat ∧ 4 ≤ (req [0x1F, 5, 5, 0, 0, 0, 0, 0]).recipient.toNat ∧
      Instr.stdSetAddress r ∈ [.stdGetStatus r, .stdClearFeature r, .stdSetFeature r, .stdSetAddress r,
        .stdGetDescriptor r, .stdGetConfiguration r, Instr.stdSetConfiguration r]) ∧
    Instr.nonstdTypeReserved r ∈
      [.stdReserved2 r, .stdReserved4 r, .stdSetDescriptor r, .stdGetInterface r, .stdSetInterface r,
       .stdSynchFrame r, .stdOther r, .nonstdClass r, .nonstdVendor r, Instr.nonstdTypeReserved r] :=
  ⟨⟨by decide, by decide, by simp⟩, by simp⟩

/-- The table, device, and a halted endpoint; no room, and room for just two bytes at the end of memory. -/
theorem witness_GetStatusAnswersTheStatusWord :
    let s := State.init { Config.params with getStatusWord := [((0, 0), 3)], bufSize := 10, dataBuf := 2 ^ 32 - 10 }
    s.params.getStatusWord.lookup ((req getStatus).recipient, (req getStatus).wIndex) = some 3 ∧
    State.reset.params.getStatusWord.lookup ((req getStatus).recipient, (req getStatus).wIndex) = none ∧
    (req getStatus).recipient = 0 ∧ (req [0x83, 0, 0, 0, 0, 0, 2, 0]).recipient.toNat < 4 ∧
    (req [0x82, 0, 0, 0, 0x81, 0, 2, 0]).recipient = 2 ∧
    2 ≤ s.data_maxsize.toNat ∧ s.data_buf + 10 ≤ 2 ^ s.params.ptrW ∧
    ({ s with data_maxsize := 1 } : State).data_maxsize.toNat < 2 := by decide

theorem witness_GetStatusFailsForOtherRecipients :
    State.reset.params.getStatusWord.lookup
      ((req [0x83, 0, 0, 0, 0, 0, 2, 0]).recipient, (req [0x83, 0, 0, 0, 0, 0, 2, 0]).wIndex) = none ∧
    3 ≤ (req [0x83, 0, 0, 0, 0, 0, 2, 0]).recipient.toNat := by decide

theorem witness_FeatureRequestsSetTheEndpointHalt :
    (req [0x02, 3, 0, 0, 2, 0, 0, 0]).recipient = 2 ∧ (req [0x02, 3, 0, 0, 2, 0, 0, 0]).wValue = 0 ∧
    ¬ ((req [0x00, 1, 1, 0, 0, 0, 0, 0]).recipient = 2 ∧ (req [0x00, 1, 1, 0, 0, 0, 0, 0]).wValue = 0) ∧
    ¬ ((req [0x02, 1, 1, 0, 0, 0, 0, 0]).recipient = 2 ∧ (req [0x02, 1, 1, 0, 0, 0, 0, 0]).wValue = 0) := by decide

theorem witness_SetAddressOnlyStoresTheAddress : (req [0x03, 0x05, 5, 0, 0, 0, 0, 0]).recipient.toNat < 4 := by decide

theorem witness_TheAddressIsAppliedAfterTheStatusStage :
    (req setAddress5).recipient.toNat < 4 ∧
    (req setAddress5).wLength = 0 ∧ State.reset.complete_cb = none ∧ State.reset.trace = [] := by decide

theorem witness_GetDescriptorAsksTheDescriptorCallback :
    let s := answering { Answers.silent with dsc := { res := 1, rptr := 2 ^ 32 - 8, rlen := 18 } }
      { State.reset with dsc_cb := some 2 }
    (req getDescriptor).recipient.toNat < 4 ∧ State.reset.dsc_cb = none ∧ s.dsc_cb = some 2 ∧ s.answers.dsc.res = 1 ∧
    s.dscResponse.ptr + min (min (req getDescriptor).wLength.toNat s.dscResponse.len.toNat) s.ep0size.toNat ≤
      2 ^ s.params.ptrW ∧
    (answering { Answers.silent with dsc := { res := 2, rptr := 0, rlen := 0 } } s).answers.dsc.res = 2 ∧
    (answering Answers.silent s).answers.dsc.res ≠ 1 ∧ (answering Answers.silent s).answers.dsc.res ≠ 2 := by decide

theorem witness_GetConfigurationAnswersTheConfiguration :
    (req getStatus).recipient.toNat < 4 ∧
    (State.init { Config.params with bufSize := 8 }).data_maxsize = 0 ∧ State.reset.data_maxsize ≠ 0 ∧
    State.reset.data_buf + 9 ≤ 2 ^ State.reset.params.ptrW ∧ State.reset.mem.wf ∧ (req getStatus).wLength ≠ 0 ∧
    (req getStatus).dir = true ∧ State.reset.ep0size ≠ 0 := by decide

theorem witness_SetConfigurationAsksTheConfigurationCallback :
    (req setConfiguration1).recipient.toNat < 4 ∧
    State.reset.cfg_cb = none ∧ ({ State.reset with cfg_cb := some 3 } : State).cfg_cb = some 3 ∧
    (answering { Answers.silent with cfg := 1 } State.reset).answers.cfg = 1 ∧
    (answering { Answers.silent with cfg := 2 } State.reset).answers.cfg ≠ 1 := by decide

theorem witness_ResultCodesDecideTheTransfer :
    twoBytesLeft.control_state = .rxdata ∧ tenBytesLeft.control_state ≠ .rxdata ∧
    tenBytesLeft.data_buf + 8 ≤ 2 ^ tenBytesLeft.params.ptrW ∧ tenBytesLeft.header.wLength ≠ 0 ∧
    tenBytesLeft.header.dir = true ∧
    tenBytesLeft.resp.ptr + min (min tenBytesLeft.header.wLength.toNat tenBytesLeft.resp.len.toNat)
      tenBytesLeft.ep0size.toNat ≤ 2 ^ tenBytesLeft.params.ptrW ∧
    (buffered vendorNodata State.reset).header.wLength = 0 ∧ (buffered vendorOut State.reset).header.dir = false := by
  decide

/-- The ends of the ranges of R8: the smallest buffer, and the largest at the end of memory. -/
theorem witness_PowerOnState :
    ({ Config.params with bufSize := 8, ep0Size := 1 } : Params).valid = true ∧
    ({ Config.params with bufSize := 65543, dataBuf := 2 ^ 32 - 65543, ep0Size := 255 } : Params).valid = true ∧
    ({ Config.params with bufSize := 7 } : Params).valid = false ∧
    ({ Config.params with bufSize := 65544 } : Params).valid = false ∧
    ({ Config.params with dataBuf := 2 ^ 32 - 135 } : Params).valid = false ∧
    ({ Config.params with ep0Size := 0 } : Params).valid = false := by decide

theorem witness_ControlStateMovesOnlyAsTheTransferAllows :
    (0x80 : Byte).extractLsb' 0 3 = 0 ∧ controlOf (exec (.evtEptx 0x80) (inState .ztxdata)) = some .lastdata := by decide

theorem witness_DeviceStateMovesOnlyForItsTriggers :
    (stateOf (exec .ep0StatusinEptx { inState .statusin with pend_addr := 5, pend_addr_v := true })).map
      (fun t => t.device_state) = some .addressed := by decide

/-- Both clauses with a hypothesis: a next state and a fault. -/
theorem witness_DeviceStateGatesNothing :
    (stateOf (exec .ep0RxdataEprx twoBytesLeft)).isSome = true ∧
    (∃ f, exec .ep0TxdataEptx { tenBytesLeft with data_ptr := 2 ^ 32 } = .fault f) :=
  ⟨by decide, .readOutsideMemory, rfl⟩

theorem witness_ASetupForgetsTheTransferInFlight :
    (0x00 : Byte).extractLsb' 0 3 = 0 ∧ (answering (rx getStatus) twoBytesLeft).answers.rx.result.toInt = 8 := by decide

theorem witness_AStepCallsEachOperationAtMostOnce :
    (stateOf (exec (.evtEpsetup 0x00) (answering (rx getStatus) twoBytesLeft))).isSome = true := by decide

theorem witness_EpSetStallFalseIsCalledOnlyForClearFeature :
    twoBytesLeft.mem.wf ∧
    (traceOf (exec .ep0RxdataEpsetup (answering (rx [0x02, 1, 0, 0, 0x81, 0, 0, 0]) twoBytesLeft))).map
      (fun l => decide (.epSetStall 0x81 false ∈ l)) = some true := by decide

theorem witness_SetAddressIsCalledOnlyAtTheStatusCompletion :
    (traceOf (exec (.evtEptx 0x80) { inState .statusin with pend_addr := 5, pend_addr_v := true })).map
      (fun l => decide (.setAddress 5 ∈ l)) = some true ∧
    (traceOf (exec (.evtEprx 0x00) (answering (rx [])
      { inState .statusout with pend_addr := 5, pend_addr_v := true }))).map
      (fun l => decide (.setAddress 5 ∈ l)) = some true := by decide

theorem witness_PacketsAreHandedOverOnlyInTurn :
    decode (.evt 0x0480) = .ok (.evtEptx 0x80) ∧ decode (.cmd 0) = .ok .cmdEnable ∧
    (traceOf (exec (.evtEptx 0x80) (inState .ztxdata))).map
      (fun l => decide (.epWrite 0x80 0 0 [] ∈ l)) = some true := by decide

theorem witness_TheCompletionCallbackIsOneShot :
    (traceOf (exec (.evtEptx 0x80) (buffered vendorNodata { inState .statusin with complete_cb := some 6 }))).map
      (fun l => decide (.completeCb 6 (req vendorNodata) ∈ l)) = some true := by decide

theorem witness_NoInstructionChangesParametersOrSlots : (stateOf (exec .resNak State.reset)).isSome = true := by decide

/-- A form that stores nothing; a Setup form, with the bytes on both sides of the header; a data form, with those on both
sides of the bytes asked for. -/
theorem witness_MemoryFrameOfEveryInstruction :
    twoBytesLeft.mem.wf ∧ (stateOf (exec .ep0RxdataEprx twoBytesLeft)).isSome = true ∧
    (∀ s, ¬ mayStore s .cmdEnable) ∧ (stateOf (exec .cmdEnable twoBytesLeft)).isSome = true ∧
    readsSetup .ep0IdleEpsetup ∧ (stateOf (exec .ep0IdleEpsetup twoBytesLeft)).isSome = true ∧
    readsData twoBytesLeft .ep0RxdataEprx ∧ B - 1 < twoBytesLeft.data_buf ∧ B - 1 < twoBytesLeft.data_ptr ∧
    twoBytesLeft.data_buf + 8 + twoBytesLeft.data_maxsize.toNat ≤ B + 136 ∧ twoBytesLeft.data_buf + 8 ≤ B + 136 ∧
    twoBytesLeft.data_ptr + min twoBytesLeft.data_count.toNat twoBytesLeft.ep0size.toNat ≤ B + 136 :=
  ⟨by decide, by decide, by simp [mayStore, readsSetup, readsData, setupRows], by decide, .inl (by decide), by decide,
   .inl rfl, by decide, by decide, by decide, by decide, by decide⟩

/-- A row of the handler, and a form that reads a Setup, both of which change what the frame says they may. -/
theorem witness_FrameOfTheSetupStage :
    readsSetup .ep0IdleEpsetup ∧ State.reset.mem.wf ∧
    (stateOf (exec .ep0IdleEpsetup (answering { rx setConfiguration1 with cfg := 1 }
      { State.reset with cfg_cb := some 3 }))).map (fun t => (t.device_cfg, t.device_state)) = some (1, .configured) ∧
    (stateOf (exec (.stdSetAddress (req setAddress5)) State.reset)).map (fun t => t.pend_addr) = some 5 :=
  ⟨.inl (by decide), by decide, by decide, by decide⟩

end Sys2Proof.Tests
end

namespace Sys2Proof.Machine

/-! ### One step and the word it decodes (R5) -/

/-- R180: with nothing delivered the machine waits. -/
theorem step_of_no_input {s : State} (h : s.inputs = []) : step s = .next s := by
  unfold step; rw [h]

/-- R5: a delivery is taken, then its word is fetched and run. -/
theorem step_of_delivery {s : State} {d : Delivery} {rest : List Delivery} (h : s.inputs = d :: rest) :
    step s = fetch d.input (s.take d rest) (runWord (s.take d rest)) := by
  unfold step; rw [h]

/-- A word that decodes runs its instruction. -/
theorem runWord_of_decode {w : Word} {i : Instr} (h : decode w = .ok i) (s : State) : runWord s w = exec i s := by
  unfold runWord; rw [h]

/-- R42: a packet that lies in memory is the one the header's eight bytes make up. -/
theorem withPacket_eq {s : State} (h : s.data_buf + 8 ≤ 2 ^ s.params.ptrW) (k : BitVec 64 → Result) :
    withPacket s k = k (packetOfBytes (s.mem.readBytes s.data_buf 8)) :=
  readMem_eq (inMemory_of_le h) _

/-- R98: bytes that decode as a Setup packet are decoded by class. -/
theorem decode_setup_of_decodeSetupBytes {bs : List Byte} {i : Instr} (h : decodeSetupBytes bs = .ok i) :
    decode (.setup (packetOfBytes bs)) = .ok i := by
  unfold decodeSetupBytes at h
  split at h
  · exact h
  · cases h

/-- Settles O8: `step_of_delivery` leaves `fetch`, which hands over a word for each kind of input. -/
theorem aStepRunsTheDecodedInstruction : Obligations.AStepRunsTheDecodedInstruction := by
  refine ⟨fun s h => step_of_no_input h, fun s d rest i hin => ?_⟩
  rw [step_of_delivery hin]
  refine ⟨fun w hd hw => ?evt, fun w hd hw => ?cmd, fun w hd hw => ?res, fun hd hm hw => ?setup,
    fun hd hm hw => ?std, fun k hd hw => ?ep0⟩
  all_goals rw [hd]
  case evt => exact runWord_of_decode hw _
  case cmd => exact runWord_of_decode hw _
  case res => exact runWord_of_decode hw _
  case setup =>
    exact (withPacket_eq (s := s.take d rest) hm fun p => runWord _ (.setup p)).trans
      (runWord_of_decode (decode_setup_of_decodeSetupBytes hw) _)
  case std => exact (withPacket_eq (s := s.take d rest) hm fun p => runWord _ (.std p)).trans (runWord_of_decode hw _)
  case ep0 => exact runWord_of_decode hw _

/-! ### The control callback (R58, R100) -/

/-- R58 (c): the control callback leaves every byte outside the payload area alone. -/
theorem ctlCallback_read_outside {s : State} (hm : s.mem.wf) (cb : Nat) (r : Request) (payload : List Byte) {a : Nat}
    (ha : a < s.data_buf + 8 ∨ s.data_buf + 8 + s.data_maxsize.toNat ≤ a) :
    (ctlCallback cb r payload s).mem.read a = s.mem.read a := by
  rw [ctlCallback_mem]
  refine Memory.read_writeAt_outside hm fun w hw => ?_
  have hlt : w.1 < s.data_maxsize.toNat := by
    simp only [State.payloadWrites, List.mem_filter, Bool.and_eq_true, decide_eq_true_eq] at hw
    exact hw.2.1
  omega

/-- R13, R100: the fields the control callback writes; its answer for the completion slot stands when it gives one. -/
theorem ctlCallback_eq (cb : Nat) (r : Request) (payload : List Byte) (s : State) :
    ctlCallback cb r payload s = { s with
      trace := s.trace ++ [.ctlCb cb r payload s.answers.ctl.res]
      complete_cb := if s.answers.ctl.ccb = none then s.complete_cb else s.answers.ctl.ccb
      mem := (ctlCallback cb r payload s).mem } := by
  unfold ctlCallback
  cases s.answers.ctl.ccb <;> rfl

/-- Settles O23: only writes at offsets of the payload area pass `State.payloadWrites` (log 20). -/
theorem theControlCallbackReachesOnlyThePayloadArea : Obligations.TheControlCallbackReachesOnlyThePayloadArea :=
  fun cb r payload s hm =>
    ⟨ctlCallback_eq cb r payload s, (base_ctl cb r payload s).mem_wf hm,
      fun _ ha => ctlCallback_read_outside hm cb r payload ha⟩

/-! ### The calls of one step (R14, R164, R177)

Each stage of a step is given the list of the kinds of call it may make, each at most once and in the order listed; stages
that follow one another append their lists. No list has a kind twice, so neither has the step. -/

/-- The kinds of the calls a step makes at most once, in the order of the calls. -/
def countedKinds (l : List Call) : List Nat := (l.map Call.kind).filter fun k => k != 0

/-- From the trace `before` to the trace `after` only calls are added, at the end, none of them one the block has no use
for, and their counted kinds are some of `ks`, in that order. -/
def Calls (ks : List Nat) (before after : List Call) : Prop :=
  ∃ l, after = before ++ l ∧ (∀ c ∈ l, c.unused = false) ∧ (countedKinds l).Sublist ks

theorem Calls.refl {ks : List Nat} (before : List Call) : Calls ks before before :=
  ⟨[], (List.append_nil _).symm, by simp, List.nil_sublist _⟩

/-- One more call adds its own kind. -/
theorem Calls.one (before : List Call) {c : Call} (h : c.unused = false) : Calls [c.kind] before (before ++ [c]) :=
  ⟨[c], rfl, by simpa using h, List.filter_sublist⟩

/-- One more call of a kind that is not counted adds no kind. -/
theorem Calls.uncounted {ks : List Nat} (before : List Call) {c : Call} (h : c.unused = false) (hk : c.kind = 0) :
    Calls ks before (before ++ [c]) :=
  ⟨[c], rfl, by simpa using h, by simp [countedKinds, hk]⟩

theorem Calls.mono {ks ks' : List Nat} {before after : List Call} (h : Calls ks before after) (hk : ks.Sublist ks') :
    Calls ks' before after := by
  obtain ⟨l, ha, hu, hl⟩ := h
  exact ⟨l, ha, hu, hl.trans hk⟩

theorem Calls.trans {ks ks' : List Nat} {a b c : List Call} (h : Calls ks a b) (h' : Calls ks' b c) :
    Calls (ks ++ ks') a c := by
  obtain ⟨l, rfl, hu, hl⟩ := h
  obtain ⟨l', rfl, hu', hl'⟩ := h'
  refine ⟨l ++ l', List.append_assoc _ _ _, fun c hc => ?_, ?_⟩
  · exact (List.mem_append.1 hc).elim (hu c) (hu' c)
  · simp only [countedKinds, List.map_append, List.filter_append]
    exact hl.append hl'

/-- Where the list of kinds has none twice, no counted kind of call is made twice. -/
theorem count_kind_le_one {ks : List Nat} {l : List Call} {k : Nat} (hl : (countedKinds l).Sublist ks) (hn : ks.Nodup)
    (hk : k ≠ 0) : (l.filter fun c => decide (c.kind = k)).length ≤ 1 :=
  calc (l.filter fun c => decide (c.kind = k)).length
      = (l.map Call.kind).count k := by
        rw [List.count, List.countP_map, List.countP_eq_length_filter]
        rfl
    _ = (countedKinds l).count k := (List.count_filter (by simpa using hk)).symm
    _ ≤ 1 := List.nodup_iff_count_le_one.1 (hn.sublist hl) k

/-! #### What the operations call -/

theorem stalledState_calls {ks : List Nat} (c : StallCause) (s : State) : Calls ks s.trace (stalledState c s).trace :=
  ⟨[.epSetStall ep0Out true, .epSetStall ep0In true], rfl, by decide, List.nil_sublist _⟩

theorem statusQueued_calls (s : State) : Calls [2] s.trace (statusQueued s).trace := .one _ rfl

theorem firstChunkSent_calls (w : BitVec 16) (p : Response) (s : State) :
    Calls [2] s.trace (firstChunkSent w p s).trace := .one _ rfl

theorem packetRead_calls (buf len : Nat) (s : State) : Calls [1] s.trace (packetRead buf len s).trace := .one _ rfl

theorem ctlCallback_calls (cb : Nat) (r : Request) (payload : List Byte) (s : State) :
    Calls [3] s.trace (ctlCallback cb r payload s).trace := .one _ rfl

theorem eventCallback_calls {ks : List Nat} (k : EventKind) (ep : Byte) (s : State) :
    Calls ks s.trace (eventCallback k ep s).trace := by
  unfold eventCallback
  split
  · exact .uncounted _ rfl rfl
  · exact .refl _

/-- R118: a chunk is handed over by one call. -/
theorem sendChunk_calls {s t : State} (h : sendChunk s = .next t) : Calls [2] s.trace t.trace := by
  rw [sendChunk_eq (sendChunk_next h)] at h
  obtain rfl := Host.Outcome.next.inj h
  exact .one _ rfl

/-- R127: the end of a transfer sets the address, then invokes the completion callback. -/
theorem completedState_calls (s : State) : Calls [8, 7] s.trace (completedState s).trace := by
  refine Calls.trans (ks := [8]) (ks' := [7])
    (b := s.trace ++ if s.pend_addr_v then [.setAddress (s.pend_addr.setWidth 8)] else []) ?address ?callback
  case address =>
    cases s.pend_addr_v with
    | true => exact .one _ rfl
    | false => exact ⟨[], rfl, by simp, List.nil_sublist _⟩
  case callback =>
    unfold completedState
    cases s.complete_cb with
    | some cb => exact .one _ rfl
    | none => exact ⟨[], rfl, by simp, List.nil_sublist _⟩

theorem complete_calls {s t : State} (h : complete s = .next t) : Calls [8, 7] s.trace t.trace := by
  obtain ⟨-, rfl⟩ := complete_next h
  exact completedState_calls s

/-! #### What the stages of a request call -/

/-- R101 to R106: a known result hands over at most one packet, whatever the stage. -/
theorem finish_calls {stage : Stage} {res : Res} {p : Response} {u t : State} (h : finish stage res p u = .next t) :
    Calls [2] u.trace t.trace := by
  have hq (h : enterStatusIn { u with resp := p } = .next t) : Calls [2] u.trace t.trace := by
    rw [enterStatusIn_eq] at h
    obtain rfl := Host.Outcome.next.inj h
    exact statusQueued_calls { u with resp := p }
  cases res with
  | ack =>
    cases stage with
    | noData => exact hq h
    | outData => exact hq h
    | inData w =>
      obtain ⟨-, rfl⟩ := beginDataIn_next h
      exact firstChunkSent_calls w p u
  | nak =>
    obtain rfl := Host.Outcome.next.inj h
    exact .refl _
  | fail =>
    rw [finish_fail] at h
    obtain rfl := Host.Outcome.next.inj h
    exact stalledState_calls _ u

/-- R133 to R139: the handler asks one of the configuration callback, the descriptor callback and the HAB at most. -/
theorem handled_calls {row : Nat → Prop} {r : Request} {s u : State} {res : Res} {p : Response}
    (h : Handled row r s res p u) : Calls [4, 5, 6] s.trace u.trace := by
  have quiet : Calls [4, 5, 6] s.trace s.trace := .refl _
  have asked : Calls [4, 5, 6] s.trace (isStalledCall (endpointOf r) s).trace :=
    Calls.mono (ks := [6]) (.one _ rfl) (by decide)
  cases h with
  | unserved => exact quiet
  | asked => exact asked
  | status u w hu =>
    rcases hu with rfl | rfl
    · exact quiet
    · exact asked
  | halt b => exact .uncounted _ rfl rfl
  | address => exact quiet
  | descriptor cb => exact Calls.mono (ks := [5]) (.one _ rfl) (by decide)
  | current => exact quiet
  | configured cb => exact Calls.mono (ks := [4]) (.one _ rfl) (by decide)
  | notConfigured cb => exact Calls.mono (ks := [4]) (.one _ rfl) (by decide)

theorem served_calls {row : Nat → Prop} {r : Request} {s t : State} (h : Served row r s t) :
    Calls [4, 5, 6, 2] s.trace t.trace := by
  obtain ⟨res, p, u, hu, hf⟩ := h
  exact (handled_calls hu).trans (finish_calls hf)

/-- R100: the control callback comes first, then the handler, then the packet. -/
theorem processRequest_calls {stage : Stage} {r : Request} {s t : State} (h : processRequest stage r s = .next t) :
    Calls [3, 4, 5, 6, 2] s.trace t.trace := by
  unfold processRequest at h
  split at h
  · next cb _ =>
    have hctl := ctlCallback_calls cb r [] s
    split at h
    · exact (hctl.trans (finish_calls h)).mono (by decide)
    · exact (hctl.trans (finish_calls h)).mono (by decide)
    · exact hctl.trans (served_calls (stdRequest_served h))
  · exact (served_calls (stdRequest_served h)).mono (by decide)

/-- R99: the branch of a decoded Setup packet. -/
theorem setupBranch_calls {r : Request} {s t : State} (h : setupBranch r s = .next t) :
    Calls [3, 4, 5, 6, 2] s.trace t.trace := by
  unfold setupBranch at h
  split at h
  · exact processRequest_calls (s := cursorSet r s) h
  split at h
  · exact processRequest_calls (s := cursorSet r s) h
  · unfold execSetupOut at h
    split at h <;> obtain rfl := Host.Outcome.next.inj h
    · rw [stall_eq]
      exact stalledState_calls _ (cursorSet r s)
    · exact .refl s.trace

/-- R97, R98: a Setup event reads its packet, then runs its branch. -/
theorem setupStage_calls {s t : State} (h : setupStage (s.arrives .epsetup) = .next t) :
    Calls [1, 3, 4, 5, 6, 2] s.trace t.trace := by
  have hread : Calls [1] s.trace (setupRead s).trace := .one _ rfl
  obtain ⟨-, ⟨-, rfl⟩ | ⟨-, -, hb⟩⟩ := setupStage_next h
  · exact hread.trans (stalledState_calls _ _)
  · exact hread.trans (setupBranch_calls hb)

/-- R113: a completed payload is offered to the control callback. -/
theorem rxComplete_calls {s t : State} (h : rxComplete s = .next t) : Calls [3, 2] s.trace t.trace := by
  obtain ⟨-, -, ⟨-, rfl⟩ | ⟨cb, u, -, rfl, hres⟩⟩ := rxComplete_next h
  · exact stalledState_calls _ s
  · have hctl := ctlCallback_calls cb s.header (s.mem.readBytes (s.data_buf + 8) s.header.wLength.toNat) s
    rcases hres with ⟨-, rfl⟩ | ⟨-, rfl⟩ | ⟨-, -, rfl⟩
    · exact hctl.trans (statusQueued_calls _)
    · exact hctl.mono (by decide)
    · exact hctl.trans (stalledState_calls _ _)

/-- R110: a data packet is read, and the last one completes the payload. -/
theorem dataOut_calls {s t : State} (h : dataOut s = .next t) : Calls [1, 3, 2] s.trace t.trace := by
  have hread := packetRead_calls s.data_ptr s.chunkLen s
  obtain ⟨-, ⟨-, rfl⟩ | ⟨n, -, -, ⟨-, rfl⟩ | ⟨-, hc⟩⟩⟩ := dataOut_next h
  · exact hread.trans (stalledState_calls _ _)
  · exact hread.mono (by decide)
  · exact hread.trans (rxComplete_calls (s := advanced n (packetRead s.data_ptr s.chunkLen s)) hc)

/-- R126: the status packet is read, then the transfer ends. -/
theorem statusOutDone_calls {s t : State} (h : statusOutDone s = .next t) : Calls [1, 8, 7] s.trace t.trace := by
  have hread := packetRead_calls s.data_ptr 0 s
  obtain ⟨-, rfl⟩ | ⟨-, hc⟩ := statusOutDone_next h
  · exact hread.trans (stalledState_calls _ _)
  · exact hread.trans (complete_calls hc)

/-! #### What an instruction calls -/

/-- The kinds of call one step may make, in their order: a packet is read, the control callback and the handler are asked,
a packet is handed over, or the status stage ends. -/
def stepKinds : List Nat := [1, 3, 4, 5, 6, 2, 8, 7]

/-- R81: a row of the engine. -/
theorem rowRan_calls {s t : State} {k : EventKind} (h : RowRan s k t) : Calls stepKinds s.trace t.trace := by
  cases h with
  | setup t h => exact (setupStage_calls h).mono (by decide)
  | out t h => exact (dataOut_calls h).mono (by decide)
  | statusOut t h => exact (statusOutDone_calls h).mono (by decide)
  | chunk t h => exact (sendChunk_calls h).mono (by decide)
  | zlp => exact Calls.mono (ks := [2]) (.one _ rfl) (by decide)
  | last => exact (statusQueued_calls (s.arrives .eptx)).mono (by decide)
  | lastOut => exact .refl s.trace
  | statusIn t h => exact (complete_calls h).mono (by decide)
  | outOfSeq k => exact stalledState_calls _ (s.arrives k)

/-- Every instruction that completes. -/
theorem ran_calls {s t : State} {i : Instr} (h : Ran s i t) : Calls stepKinds s.trace t.trace := by
  cases h with
  | reset ep => exact eventCallback_calls _ _ (resetStatus s)
  | info _ k ep => exact eventCallback_calls _ _ s
  | user _ k ep cb => exact .uncounted _ rfl rfl
  | empty _ ep => exact .uncounted _ rfl rfl
  | engine _ j k ep _ _ _ hj h => exact rowRan_calls (row_ran hj h).1
  | row c k _ _ hr h => exact rowRan_calls (row_ran hr h).1
  | enable => exact .uncounted _ rfl rfl
  | disable => exact .uncounted _ rfl rfl
  | connect => exact .uncounted _ rfl rfl
  | disconnect => exact .uncounted _ rfl rfl
  | resetCmd => exact .refl s.trace
  | resFail => exact stalledState_calls _ s
  | resNak => exact .refl s.trace
  | resAckOut => exact (statusQueued_calls s).mono (by decide)
  | resAckIn => exact (firstChunkSent_calls _ _ s).mono (by decide)
  | nodata r _ h => exact (processRequest_calls h).mono (by decide)
  | outBig r => exact stalledState_calls _ (cursorSet r s)
  | outFits r => exact .refl s.trace
  | std _ r _ h => exact (served_calls h).mono (by decide)
  -- What is left is the request of the class IN, whose constructor's name is a keyword of Lean.
  | _ =>
    rename_i r h
    exact (processRequest_calls h).mono (by decide)

/-- Settles O52: the kinds a step may call are all different. -/
theorem aStepCallsEachOperationAtMostOnce : Obligations.AStepCallsEachOperationAtMostOnce := by
  intro s t i h
  obtain ⟨l, ht, hu, hl⟩ := ran_calls (exec_ran h)
  exact ⟨l, ht, hu, fun k hk => count_kind_le_one hl (by decide) hk⟩

end Sys2Proof.Machine

namespace Sys2Proof.Machine

/-! ### What an event of endpoint 0 can do (R95 to R131) -/

/-- R110: the state `s` once a data packet has arrived and been read at the cursor. -/
def dataRead (s : State) : State := packetRead s.data_ptr s.chunkLen (s.arrives .eprx)

/-- R126: the state `s` once the status packet has arrived and been read. -/
def statusRead (s : State) : State := packetRead s.data_ptr 0 (s.arrives .eprx)

/-- R112: the state `s` once `n` bytes of the data packet that has arrived are accounted for. -/
def gathered (n : Nat) (s : State) : State := advanced n (dataRead s)

/-- R113: the state `s` once the control callback `cb` has been offered the payload. -/
def payloadOffered (cb : Nat) (s : State) : State :=
  ctlCallback cb s.header (s.mem.readBytes (s.data_buf + 8) s.header.wLength.toNat) s

/-- R118: the state `s` once the next chunk has been handed over. -/
def chunkSent (s : State) : State :=
  { s with
    trace := s.trace ++ [.epWrite ep0In s.data_ptr s.chunkLen (s.mem.readBytes s.data_ptr s.chunkLen)]
    hab := { s.hab with tx_pending := some (s.mem.readBytes s.data_ptr s.chunkLen) }
    data_ptr := s.data_ptr + s.chunkLen
    data_count := BitVec.ofNat 16 (s.data_count.toNat - s.chunkLen)
    control_state := afterChunk s s.chunkLen }

/-- R120: the state `s` once the zero-length packet that ends a short response has been handed over. -/
def zlpSent (s : State) : State :=
  { s with
    trace := s.trace ++ [.epWrite ep0In s.data_ptr 0 []]
    hab := { s.hab with tx_pending := some [] }
    control_state := .lastdata }

/-- R97 to R99: the state `s` once a Setup packet has been read and the cursor set for its request. -/
def setupBegun (s : State) : State := cursorSet (setupRead s).header (setupRead s)

/-- Every end of an event of endpoint 0, by the control state `c` whose row has run and the token that is consumed: R97 to
R108 for a Setup, R110 to R116 and R126 for a packet received, R118 to R125 for a packet sent, R153 for an event the control
state does not await. -/
inductive EngineDone (s : State) (c : ControlState) : EventKind → State → Prop
  | badSetup : EngineDone s c .epsetup (stalledState .badSetup (setupRead s))
  | overflow : EngineDone s c .epsetup (stalledState .overflow (setupBegun s))
  | payloadDue (fits : (setupRead s).header.wLength.toNat ≤ s.data_maxsize.toNat) :
      EngineDone s c .epsetup { setupBegun s with control_state := .rxdata }
  | accepted (p : Response) (u : State) (h : Processed (setupRead s).header (setupBegun s) .ack p u) :
      EngineDone s c .epsetup (accepted (setupRead s).header p u)
  | deferred (p : Response) (u : State) (h : Processed (setupRead s).header (setupBegun s) .nak p u) :
      EngineDone s c .epsetup u
  | failed (p : Response) (u : State) (h : Processed (setupRead s).header (setupBegun s) .fail p u) :
      EngineDone s c .epsetup (stalledState .requestFailed u)
  | badDataOut (hc : c = .rxdata) : EngineDone s c .eprx (stalledState .badDataOut (dataRead s))
  | payloadPart (hc : c = .rxdata) (n : Nat) (hn : n ≤ s.chunkLen) : EngineDone s c .eprx (gathered n s)
  | payloadUnheard (hc : c = .rxdata) (n : Nat) (hn : n ≤ s.chunkLen) :
      EngineDone s c .eprx (stalledState .requestFailed (gathered n s))
  | payloadAcked (hc : c = .rxdata) (n : Nat) (hn : n ≤ s.chunkLen) (cb : Nat) :
      EngineDone s c .eprx (statusQueued (payloadOffered cb (gathered n s)))
  | payloadNaked (hc : c = .rxdata) (n : Nat) (hn : n ≤ s.chunkLen) (cb : Nat) :
      EngineDone s c .eprx (payloadOffered cb (gathered n s))
  | payloadFailed (hc : c = .rxdata) (n : Nat) (hn : n ≤ s.chunkLen) (cb : Nat) :
      EngineDone s c .eprx (stalledState .requestFailed (payloadOffered cb (gathered n s)))
  | badStatusOut (hc : c = .statusout) : EngineDone s c .eprx (stalledState .badStatusOut (statusRead s))
  | statusOutDone (hc : c = .statusout) : EngineDone s c .eprx (completedState (statusRead s))
  | chunk (hc : c = .txdata) : EngineDone s c .eptx (chunkSent (s.arrives .eptx))
  | zlp (hc : c = .ztxdata) : EngineDone s c .eptx (zlpSent s)
  | lastThenIn (hc : c = .lastdata) (hp : s.params.statusAfterIn = .statusin) :
      EngineDone s c .eptx (statusQueued (s.arrives .eptx))
  | lastThenOut (hc : c = .lastdata) (hp : s.params.statusAfterIn = .statusout) :
      EngineDone s c .eptx { s.arrives .eptx with control_state := .statusout }
  | statusInDone (hc : c = .statusin) : EngineDone s c .eptx (completedState (s.arrives .eptx))
  | outOfSequenceRx (hc : c ≠ .rxdata ∧ c ≠ .statusout) :
      EngineDone s c .eprx (stalledState .outOfSequence (s.arrives .eprx))
  | outOfSequenceTx (hc : c = .idle ∨ c = .rxdata ∨ c = .statusout) :
      EngineDone s c .eptx (stalledState .outOfSequence (s.arrives .eptx))

/-- R97 to R108: the ends of a Setup event. -/
theorem setupStage_done {s t : State} (c : ControlState) (h : setupStage (s.arrives .epsetup) = .next t) :
    EngineDone s c .epsetup t := by
  obtain ⟨-, ⟨-, rfl⟩ | ⟨-, -, hb⟩⟩ := setupStage_next h
  · exact .badSetup
  obtain ⟨res, p, u, hu, hf⟩ | ⟨-, -, -, rfl⟩ | ⟨-, -, hfits, rfl⟩ := setupBranch_next hb
  · obtain ⟨rfl, rfl⟩ | ⟨rfl, rfl⟩ | ⟨rfl, rfl⟩ := finish_next hf
    · exact .accepted p u hu
    · exact .deferred p _ hu
    · exact .failed p u hu
  · exact .overflow
  · exact .payloadDue hfits

/-- R110 to R116: the ends of a data packet in `rxdata`. -/
theorem dataOut_done {s t : State} {c : ControlState} (hc : c = .rxdata) (h : dataOut (s.arrives .eprx) = .next t) :
    EngineDone s c .eprx t := by
  obtain ⟨-, ⟨-, rfl⟩ | ⟨n, -, hn, ⟨-, rfl⟩ | ⟨-, hrx⟩⟩⟩ := dataOut_next h
  · exact .badDataOut hc
  · exact .payloadPart hc n hn
  obtain ⟨-, -, ⟨-, rfl⟩ | ⟨cb, u, -, rfl, ⟨-, rfl⟩ | ⟨-, rfl⟩ | ⟨-, -, rfl⟩⟩⟩ := rxComplete_next hrx
  · exact .payloadUnheard hc n hn
  · exact .payloadAcked (s := s) hc n hn cb
  · exact .payloadNaked (s := s) hc n hn cb
  · exact .payloadFailed (s := s) hc n hn cb

/-- R126: the ends of a status packet in `statusout`. -/
theorem statusOutDone_done {s t : State} {c : ControlState} (hc : c = .statusout)
    (h : statusOutDone (s.arrives .eprx) = .next t) : EngineDone s c .eprx t := by
  obtain ⟨-, rfl⟩ | ⟨-, hcomplete⟩ := statusOutDone_next h
  · exact .badStatusOut hc
  · obtain ⟨-, rfl⟩ := complete_next hcomplete
    exact .statusOutDone hc

/-- R118: a chunk handed over. -/
theorem sendChunk_chunkSent {s t : State} (h : sendChunk s = .next t) : t = chunkSent s := by
  rw [sendChunk_eq (sendChunk_next h)] at h
  exact (Host.Outcome.next.inj h).symm

/-- R95: a row ends in one of the ways `EngineDone` lists. -/
theorem engine_done {s t : State} {c : ControlState} {k : EventKind} {j : Instr} (hj : ep0Row c k = .ok j)
    (h : exec j s = .next t) : EngineDone s c k t := by
  obtain ⟨hrow, hrx, htx⟩ := row_ran hj h
  cases k with
  | epsetup =>
    cases hrow with
    | setup _ h => exact setupStage_done c h
    | outOfSeq _ hk => simp at hk
  | eprx =>
    obtain ⟨hc, h⟩ | ⟨hc, h⟩ | ⟨hnrx, hnout, rfl⟩ := hrx rfl
    · exact dataOut_done hc h
    · exact statusOutDone_done hc h
    · exact .outOfSequenceRx ⟨hnrx, hnout⟩
  | eptx =>
    obtain ⟨hc, h⟩ | ⟨hc, rfl⟩ | ⟨hc, ⟨hp, rfl⟩ | ⟨hp, rfl⟩⟩ | ⟨hc, h⟩ | ⟨hc, rfl⟩ := htx rfl
    · obtain rfl := sendChunk_chunkSent h
      exact .chunk hc
    · exact .zlp hc
    · exact .lastThenIn hc hp
    · exact .lastThenOut hc hp
    · obtain ⟨-, rfl⟩ := complete_next h
      exact .statusInDone hc
    · exact .outOfSequenceTx hc
  | reset | sof | suspend | wakeup | error | esof => cases hj

/-! ### The events and commands by which a step begins (R5, R64, R67) -/

/-- R64, R67: the instructions a token decodes to. -/
def fromToken : Instr → Bool
  | .evtReset _ | .evtSof _ | .evtSuspend _ | .evtWakeup _ | .evtEptx _ | .evtEprx _ | .evtEpsetup _ | .evtError _
  | .evtEsof _ | .cmdEnable | .cmdDisable | .cmdConnect | .cmdDisconnect | .cmdReset => true
  | _ => false

/-- R64: an event token decodes to an event. -/
theorem fromToken_of_decode_evt {w : BitVec 16} {i : Instr} (h : decode (.evt w) = .ok i) : fromToken i = true := by
  have h : decodeEvt w = .ok i := h
  unfold decodeEvt at h
  split at h <;> cases h <;> rfl

/-- R67: a command token decodes to a command. -/
theorem fromToken_of_decode_cmd {w : BitVec 8} {i : Instr} (h : decode (.cmd w) = .ok i) : fromToken i = true := by
  have h : decodeCmd w = .ok i := h
  unfold decodeCmd at h
  split at h <;> cases h <;> rfl

/-- R81: no token decodes to a row of the engine. -/
theorem fromToken_ep0Row {c : ControlState} {k : EventKind} {i : Instr} (h : ep0Row c k = .ok i) :
    fromToken i = false := by
  cases k <;> cases c <;> cases h <;> rfl

/-! ### The invariant of Device Status (R23) -/

/-- R7, R8: the control buffer lies in memory. -/
theorem Inv.buffer_fits {s : State} (hs : Inv s) : s.data_buf + 8 + s.data_maxsize.toNat ≤ 2 ^ s.params.ptrW := by
  have hp := hs.params_valid
  have hm := hs.maxsize
  simp only [Params.valid, Bool.and_eq_true, decide_eq_true_eq] at hp
  rw [hs.buf]
  omega

/-- The part of the invariant that speaks of the transfer in flight: (I2), (I3), R119, R26 and R27. -/
structure Flight (s : State) : Prop where
  rx_count : s.control_state = .rxdata → s.data_count.toNat ≤ s.data_maxsize.toNat
  rx_cursor : s.control_state = .rxdata →
    s.data_ptr + s.data_count.toNat = s.data_buf + 8 + s.header.wLength.toNat
  rx_low : s.control_state = .rxdata → s.data_buf + 8 ≤ s.data_ptr
  rx_high : s.control_state = .rxdata → s.data_ptr ≤ s.data_buf + 8 + s.data_maxsize.toNat
  rx_fits : s.control_state = .rxdata → s.header.wLength.toNat ≤ s.data_maxsize.toNat
  tx_cursor : s.control_state = .txdata ∨ s.control_state = .ztxdata →
    s.data_ptr + s.data_count.toNat = s.resp.ptr + min s.header.wLength.toNat s.resp.len.toNat
  tx_more : s.control_state = .txdata → 0 < s.data_count.toNat
  tx_done : s.control_state = .ztxdata ∨ s.control_state = .lastdata → s.data_count = 0
  tx_owed : s.control_state = .ztxdata → s.tx_short = true
  status_out : s.control_state = .statusout → s.params.statusAfterIn = .statusout

theorem Inv.flight {s : State} (hs : Inv s) : Flight s := { hs with }

/-- The rest of the invariant survives what leaves the loaded fields alone and keeps memory canonical. -/
theorem Inv.of_base {s t : State} (hs : Inv s) (hb : Base s t) (hf : Flight t) : Inv t :=
  { hf with
    params_valid := hb.params ▸ hs.params_valid
    buf := by rw [hb.buf, hb.params, hs.buf]
    packet := by rw [hb.packet, hb.params, hs.packet]
    maxsize := by rw [hb.maxsize, hb.params, hs.maxsize]
    mem_wf := hb.mem_wf hs.mem_wf
    mem_range := hb.params ▸ hb.mem_range hs.mem_range
    stalled_rising := hb.stalled hs.stalled_rising
    tokens := hb.inputs ▸ hs.tokens }

/-- No transfer is in flight in `idle`. -/
theorem Flight.of_idle {s : State} (h : s.control_state = .idle) : Flight s := by
  constructor <;> simp [h]

/-- Nothing is owed in `statusin`. -/
theorem Flight.of_statusin {s : State} (h : s.control_state = .statusin) : Flight s := by
  constructor <;> simp [h]

/-- From `s` to `t` nothing of the transfer in flight changes. -/
structure Still (s t : State) : Prop extends Base s t where
  control_state : t.control_state = s.control_state
  data_ptr : t.data_ptr = s.data_ptr
  data_count : t.data_count = s.data_count
  tx_short : t.tx_short = s.tx_short
  resp : t.resp = s.resp
  header : t.header = s.header

theorem Flight.of_still {s t : State} (hf : Flight s) (h : Still s t) : Flight t := by
  obtain ⟨hb, hc, hptr, hcount, hshort, hresp, hhead⟩ := h
  constructor <;> rw [hc]
  · rw [hcount, hb.maxsize]; exact hf.rx_count
  · rw [hptr, hcount, hb.buf, hhead]; exact hf.rx_cursor
  · rw [hptr, hb.buf]; exact hf.rx_low
  · rw [hptr, hb.buf, hb.maxsize]; exact hf.rx_high
  · rw [hhead, hb.maxsize]; exact hf.rx_fits
  · rw [hptr, hcount, hresp, hhead]; exact hf.tx_cursor
  · rw [hcount]; exact hf.tx_more
  · rw [hcount]; exact hf.tx_done
  · rw [hshort]; exact hf.tx_owed
  · rw [hb.params]; exact hf.status_out

theorem Still.refl (s : State) : Still s s := ⟨.refl s, rfl, rfl, rfl, rfl, rfl, rfl⟩

/-! #### What leaves the transfer alone -/

theorem still_call (c : Call) (s : State) : Still s (s.call c) :=
  ⟨.of_mem_hab rfl rfl rfl rfl rfl rfl rfl, rfl, rfl, rfl, rfl, rfl, rfl⟩

theorem still_eventCallback (k : EventKind) (ep : Byte) (s : State) : Still s (eventCallback k ep s) := by
  unfold eventCallback
  split
  · exact still_call _ s
  · exact .refl s

theorem still_epSetStall (ep : Byte) (b : Bool) (s : State) : Still s (epSetStall ep b s) :=
  ⟨⟨rfl, rfl, rfl, rfl, rfl, id, id, rise_set _ _ _⟩, rfl, rfl, rfl, rfl, rfl, rfl⟩

theorem still_habConnect (b : Bool) (s : State) : Still s (habConnect b s) :=
  ⟨.of_mem_hab rfl rfl rfl rfl rfl rfl rfl, rfl, rfl, rfl, rfl, rfl, rfl⟩

/-- R144, R145: enabling or disabling the device leaves the transfer alone. -/
theorem still_habEnable (b : Bool) (d : DeviceState) (s : State) :
    Still s { habEnable b s with device_state := d } :=
  ⟨.of_mem_hab rfl rfl rfl rfl rfl rfl rfl, rfl, rfl, rfl, rfl, rfl, rfl⟩

theorem still_arrives (k : EventKind) (s : State) : Still s (s.arrives k) :=
  ⟨⟨rfl, rfl, rfl, rfl, rfl, id, id, rise_event _ k⟩, rfl, rfl, rfl, rfl, rfl, rfl⟩

/-- R58 (c): the control callback rewrites the payload area only. -/
theorem still_ctlCallback (cb : Nat) (r : Request) (payload : List Byte) {s : State} (hm : s.mem.wf) :
    Still s (ctlCallback cb r payload s) :=
  ⟨base_ctl cb r payload s, ctlCallback_control_state s cb r payload, rfl, rfl, rfl, rfl,
    (kept_ctl cb r payload s hm).header (ctlCallback_data_buf s cb r payload)⟩

/-- R176: a registration fills a slot. -/
theorem still_register (slot : Slot) (cb : Option Nat) (s : State) : Still s (s.register cb slot) := by
  unfold State.register
  split <;> exact ⟨.of_mem_hab rfl rfl rfl rfl rfl rfl rfl, rfl, rfl, rfl, rfl, rfl, rfl⟩

/-- R58, R39: the environment writes outside the control buffer. -/
theorem still_write {s : State} {a : Nat} (hm : s.mem.wf) (ha : s.envOwns a = true) (v : Byte) :
    Still s { s with mem := s.mem.write a v } := by
  simp only [State.envOwns, Bool.and_eq_true, Bool.or_eq_true, decide_eq_true_eq] at ha
  obtain ⟨hlt, hout⟩ := ha
  refine ⟨⟨rfl, rfl, rfl, rfl, rfl, fun _ => Memory.wf_write a v hm, fun h => range_write h hlt, id⟩,
    rfl, rfl, rfl, rfl, rfl, header_congr rfl fun b _ _ => Memory.read_write_other v hm (by omega)⟩

/-! #### What moves the transfer -/

/-- R112: what is received stays inside the payload area. -/
theorem Inv.chunk_fits {s : State} (hs : Inv s) (hc : s.control_state = .rxdata) :
    s.data_buf + 8 ≤ s.data_ptr ∧ s.data_ptr + s.chunkLen ≤ s.data_buf + 8 + s.data_maxsize.toNat := by
  have hle : s.chunkLen ≤ s.data_count.toNat := Nat.min_le_left _ _
  have := hs.rx_cursor hc
  have := hs.rx_fits hc
  exact ⟨hs.rx_low hc, by omega⟩

/-- R110: the data packet lies above the header. -/
theorem still_dataRead {s : State} (hs : Inv s) (hc : s.control_state = .rxdata) : Still s (dataRead s) := by
  obtain ⟨hlow, hhigh⟩ := hs.chunk_fits hc
  have hfits := hs.buffer_fits
  have hlies : s.inMemory s.data_ptr (rxCount s.answers.rx s.chunkLen) = true :=
    inMemory_mono (inMemory_of_le (by omega)) (rxCount_le _ _)
  refine ⟨(still_arrives .eprx s).toBase.trans (base_packetRead hlies), rfl, rfl, rfl, rfl, rfl, ?_⟩
  exact header_congr rfl fun a _ ha => Memory.read_writeBytes_outside hs.mem_wf (.inl (by omega))

/-- R112: accounting for received bytes keeps the cursor inside the payload area. -/
theorem flight_advanced {s : State} (hf : Flight s) (hc : s.control_state = .rxdata) {n : Nat}
    (hn : n ≤ s.data_count.toNat) : Flight (advanced n s) := by
  have hcount : (advanced n s).data_count.toNat = s.data_count.toNat - n := by
    have h : (advanced n s).data_count = s.data_count - BitVec.ofNat 16 n := rfl
    rw [h, count_sub _ _ hn, BitVec.toNat_ofNat]
    omega
  have hptr : (advanced n s).data_ptr = s.data_ptr + n := rfl
  have hhead : (advanced n s).header = s.header := rfl
  have hc' : (advanced n s).control_state = .rxdata := hc
  have := hf.rx_count hc
  have := hf.rx_cursor hc
  have := hf.rx_low hc
  have := hf.rx_fits hc
  constructor <;> simp only [hc', hcount, hptr, hhead, reduceCtorEq, false_or, false_implies, forall_const]
  case rx_count => exact (Nat.sub_le _ _).trans ‹_›
  case rx_cursor => exact show _ = s.data_buf + 8 + _ by omega
  case rx_low => exact show s.data_buf + 8 ≤ _ by omega
  case rx_high => exact show _ ≤ s.data_buf + 8 + s.data_maxsize.toNat by omega
  case rx_fits => assumption

theorem flight_gathered {s : State} (hs : Inv s) (hc : s.control_state = .rxdata) {n : Nat} (hn : n ≤ s.chunkLen) :
    Flight (gathered n s) :=
  flight_advanced (hs.flight.of_still (still_dataRead hs hc)) hc (hn.trans (Nat.min_le_left _ _))

theorem base_gathered {s : State} (hs : Inv s) (hc : s.control_state = .rxdata) (n : Nat) : Base s (gathered n s) :=
  (still_dataRead hs hc).toBase.trans (.of_mem_hab rfl rfl rfl rfl rfl rfl rfl)

theorem base_payloadOffered {s : State} (hs : Inv s) (hc : s.control_state = .rxdata) (n cb : Nat) :
    Base s (payloadOffered cb (gathered n s)) := (base_gathered hs hc n).trans (base_ctl _ _ _ _)

/-- R118: the three control states after a chunk, by what is left of the response and what is owed after it. -/
theorem afterChunk_cases (s : State) (c : Nat) :
    (afterChunk s c = .txdata ∧ s.data_count.toNat - c ≠ 0) ∨
      (afterChunk s c = .ztxdata ∧ s.data_count.toNat - c = 0 ∧ s.tx_short = true) ∨
      (afterChunk s c = .lastdata ∧ s.data_count.toNat - c = 0) := by
  unfold afterChunk
  split
  · exact .inl ⟨rfl, ‹_›⟩
  · split
    · exact .inr (.inl ⟨rfl, by omega, ‹_ ∧ _›.2⟩)
    · exact .inr (.inr ⟨rfl, by omega⟩)

/-- R118: a chunk moves the cursor up and the count down, wherever both pointed into the response before. -/
theorem flight_chunkSent {s : State}
    (hcur : s.data_ptr + s.data_count.toNat = s.resp.ptr + min s.header.wLength.toNat s.resp.len.toNat) :
    Flight (chunkSent s) := by
  have hle : s.chunkLen ≤ s.data_count.toNat := Nat.min_le_left _ _
  have hcount : (chunkSent s).data_count.toNat = s.data_count.toNat - s.chunkLen := by
    have := s.data_count.isLt
    exact (BitVec.toNat_ofNat _ _).trans (Nat.mod_eq_of_lt (by omega))
  have hcur' : (chunkSent s).data_ptr + (chunkSent s).data_count.toNat =
      s.resp.ptr + min s.header.wLength.toNat s.resp.len.toNat := by
    rw [hcount]
    exact show s.data_ptr + s.chunkLen + _ = _ by omega
  have hzero (h : s.data_count.toNat - s.chunkLen = 0) : (chunkSent s).data_count = 0 :=
    BitVec.eq_of_toNat_eq (hcount.trans h)
  have hcs : (chunkSent s).control_state = afterChunk s s.chunkLen := rfl
  obtain ⟨hc, hn⟩ | ⟨hc, hn, hshort⟩ | ⟨hc, hn⟩ := afterChunk_cases s s.chunkLen <;> rw [hc] at hcs <;>
    constructor <;> intro h <;> simp only [hcs, reduceCtorEq, or_self] at h
  case inl.tx_cursor => exact hcur'
  case inl.tx_more => omega
  case inr.inl.tx_cursor => exact hcur'
  case inr.inl.tx_done => exact hzero hn
  case inr.inl.tx_owed => exact hshort
  case inr.inr.tx_done => exact hzero hn

/-- R104: the state `s` at the start of the IN data stage of the response `p`, of which the host wants `w` bytes. -/
def dataInBegun (w : BitVec 16) (p : Response) (s : State) : State :=
  { s with
    resp := p
    data_ptr := p.ptr
    data_count := clampLen w p.len
    tx_short := txShort w p.len
    control_state := .txdata }

/-- R104, R118: the first chunk is a chunk of the response at its start. -/
theorem firstChunkSent_eq (w : BitVec 16) (p : Response) (s : State) :
    firstChunkSent w p s = chunkSent (dataInBegun w p s) := by
  simp only [firstChunkSent, chunkSent, dataInBegun, State.chunkLen, clampLen_toNat, afterChunk, txShort]
  congr 1
  congr 1
  exact propext ⟨by omega, by omega⟩

/-- R101, R104: an acked request either sends its response from the start or waits for its status stage. -/
theorem flight_accepted {s : State} {r : Request} (hr : s.header = r) (p : Response) : Flight (accepted r p s) := by
  unfold accepted
  split
  · rw [firstChunkSent_eq]
    refine flight_chunkSent ?_
    exact show p.ptr + (clampLen r.wLength p.len).toNat = p.ptr + min s.header.wLength.toNat p.len.toNat by
      rw [clampLen_toNat, hr]
  · exact .of_statusin rfl

/-- R97, R98: the Setup packet lies in the control buffer. -/
theorem Inv.header_fits {s : State} (hs : Inv s) : s.inMemory s.data_buf 8 = true :=
  inMemory_of_le (by have := hs.buffer_fits; omega)

theorem Inv.setupRead_base {s : State} (hs : Inv s) : Base s (setupRead s) :=
  base_setupRead (inMemory_mono hs.header_fits (rxCount_le _ _))

theorem base_setupBegun {s : State} (hs : Inv s) : Base s (setupBegun s) :=
  hs.setupRead_base.trans (.of_mem_hab rfl rfl rfl rfl rfl rfl rfl)

/-- R100: while a request is processed its bytes stay in the header. -/
theorem processed_header {s u : State} {r : Request} {res : Res} {p : Response} (hs : Inv s)
    (h : Processed r (setupBegun s) res p u) : u.header = (setupRead s).header :=
  (kept_processed ((base_setupBegun hs).mem_wf hs.mem_wf) h).header (base_processed h).buf

/-- R99, R108: the OUT data stage begins with the whole payload ahead of the cursor. -/
theorem flight_payloadDue {s : State} (hfits : (setupRead s).header.wLength.toNat ≤ s.data_maxsize.toNat) :
    Flight { setupBegun s with control_state := .rxdata } := by
  constructor <;> simp only [reduceCtorEq, false_or, false_implies, forall_const]
  case rx_count => exact hfits
  case rx_cursor => rfl
  case rx_low => exact Nat.le_refl _
  case rx_high => exact Nat.le_add_right _ _
  case rx_fits => exact hfits

/-- R120: the zero-length packet leaves nothing to send. -/
theorem flight_zlpSent {s : State} (hf : Flight s) (hc : s.control_state = .ztxdata) : Flight (zlpSent s) := by
  have hdone : (zlpSent s).data_count = 0 := hf.tx_done (.inl hc)
  have hcs : (zlpSent s).control_state = .lastdata := rfl
  constructor <;> simp [hcs, hdone]

/-- R126: the status packet is read without storing a byte. -/
theorem still_statusRead (s : State) : Still s (statusRead s) := by
  have hmem : (statusRead s).mem = s.mem := packetRead_zero_mem s.data_ptr (s.arrives .eprx)
  have hnone : rxCount s.answers.rx 0 = 0 := Nat.le_zero.1 (rxCount_le _ _)
  have hlies : (s.arrives .eprx).inMemory s.data_ptr (rxCount (s.arrives .eprx).answers.rx 0) = true := by
    rw [arrives_answers, hnone, inMemory_zero]
  exact ⟨(still_arrives .eprx s).toBase.trans (base_packetRead hlies), rfl, rfl, rfl, rfl, rfl,
    header_congr rfl fun a _ _ => by rw [hmem]⟩

/-- R23 (I1): no event of endpoint 0 writes the loaded fields or stores outside memory. -/
theorem base_engineDone {s t : State} {k : EventKind} (hs : Inv s) (h : EngineDone s s.control_state k t) :
    Base s t := by
  have hrx := (still_arrives .eprx s).toBase
  have htx := (still_arrives .eptx s).toBase
  have hsetup := base_setupBegun hs
  cases h with
  | badSetup => exact hs.setupRead_base.trans (base_stalled _ _)
  | overflow => exact hsetup.trans (base_stalled _ _)
  | payloadDue => exact hsetup.trans (.of_mem_hab rfl rfl rfl rfl rfl rfl rfl)
  | accepted p u h => exact (hsetup.trans (base_processed h)).trans (base_accepted _ _ _)
  | deferred p u h => exact hsetup.trans (base_processed h)
  | failed p u h => exact (hsetup.trans (base_processed h)).trans (base_stalled _ _)
  | badDataOut hc => exact (still_dataRead hs hc).toBase.trans (base_stalled _ _)
  | payloadPart hc n => exact base_gathered hs hc n
  | payloadUnheard hc n => exact (base_gathered hs hc n).trans (base_stalled _ _)
  | payloadAcked hc n _ cb => exact (base_payloadOffered hs hc n cb).trans (base_statusQueued _)
  | payloadNaked hc n _ cb => exact base_payloadOffered hs hc n cb
  | payloadFailed hc n _ cb => exact (base_payloadOffered hs hc n cb).trans (base_stalled _ _)
  | badStatusOut => exact (still_statusRead s).toBase.trans (base_stalled _ _)
  | statusOutDone => exact (still_statusRead s).toBase.trans (base_completed _)
  | chunk => exact htx.trans (.of_mem_hab rfl rfl rfl rfl rfl rfl rfl)
  | zlp => exact .of_mem_hab rfl rfl rfl rfl rfl rfl rfl
  | lastThenIn => exact htx.trans (base_statusQueued _)
  | lastThenOut => exact htx.trans (.of_mem_hab rfl rfl rfl rfl rfl rfl rfl)
  | statusInDone => exact htx.trans (base_completed _)
  | outOfSequenceRx => exact hrx.trans (base_stalled _ _)
  | outOfSequenceTx => exact htx.trans (base_stalled _ _)

/-- R23 (I2), (I3), R119, R26, R27: an event of endpoint 0 leaves the cursor where the next one expects it. -/
theorem flight_engineDone {s t : State} {k : EventKind} (hs : Inv s) (h : EngineDone s s.control_state k t) :
    Flight t := by
  cases h with
  | payloadDue hfits => exact flight_payloadDue hfits
  | accepted p u h => exact flight_accepted (processed_header hs h) p
  | deferred p u h => exact .of_idle (cs_processed h)
  | payloadPart hc n hn => exact flight_gathered hs hc hn
  | payloadNaked hc n hn cb =>
    exact (flight_gathered hs hc hn).of_still (still_ctlCallback _ _ _ ((base_gathered hs hc n).mem_wf hs.mem_wf))
  | payloadAcked => exact .of_statusin rfl
  | chunk hc => exact flight_chunkSent (s := s.arrives .eptx) (hs.tx_cursor (.inl hc))
  | zlp hc => exact flight_zlpSent hs.flight hc
  | lastThenIn => exact .of_statusin rfl
  | lastThenOut hc hp => constructor <;> simp [hp]
  -- Every other end is a stall or the end of the transfer.
  | _ => exact .of_idle rfl

theorem base_resetStatus (s : State) : Base s (resetStatus s) := .of_mem_hab rfl rfl rfl rfl rfl rfl rfl

/-- R5: taking a delivery leaves the state the invariant speaks of alone. -/
theorem Inv.take {s : State} (hs : Inv s) {d : Delivery} {rest : List Delivery} (h : s.inputs = d :: rest) :
    Inv (s.take d rest) :=
  { hs with tokens := fun e he => hs.tokens e (h ▸ List.mem_cons_of_mem d he) }

/-- What the step of a delivery does, from the state in which it has been taken: it leaves the transfer in flight alone,
or forgets it, or it is an event of endpoint 0. -/
inductive StepDone (s t : State) : Prop
  | still (h : Still s t)
  | forgotten (hb : Base s t) (hc : t.control_state = .idle)
  | engine (k : EventKind) (h : EngineDone s s.control_state k t)

/-- R84 to R94, R143 to R149: what a token that completes has done. -/
theorem token_done {s t : State} {i : Instr} (hi : fromToken i = true) (h : exec i s = .next t) : StepDone s t := by
  cases exec_ran h with
  | reset ep =>
    exact .forgotten ((base_resetStatus s).trans (still_eventCallback .reset ep _).toBase)
      (eventCallback_control_state (resetStatus s) .reset ep)
  | info _ k ep => exact .still (still_eventCallback k ep s)
  | user _ k ep cb => exact .still (still_call _ s)
  | empty _ ep => exact .still (still_epSetStall ep true s)
  | engine _ j k ep _ _ _ hj h => exact .engine k (engine_done hj h)
  | row c k _ _ hr => rw [fromToken_ep0Row hr] at hi; cases hi
  | enable => exact .still (still_habEnable true _ s)
  | disable => exact .still (still_habEnable false _ s)
  | connect => exact .still (still_habConnect true s)
  | disconnect => exact .still (still_habConnect false s)
  | resetCmd => exact .forgotten (base_resetStatus s) rfl
  | std _ r _ _ hm =>
    refine absurd hi ((?_ : ∀ j ∈ (_ : List Instr), ¬fromToken j = true) i hm)
    simp [fromToken]
  -- The result codes and the Setup rows, whose instructions are no token's.
  | _ => cases hi

/-- R73, R74: a word that is rejected changes nothing. -/
theorem runWord_done {s t : State} {w : Word} (hw : ∀ i, decode w = .ok i → fromToken i = true)
    (h : runWord s w = .next t) : StepDone s t := by
  unfold runWord at h
  split at h
  · exact token_done (hw _ ‹_›) h
  · obtain rfl := Host.Outcome.next.inj h
    exact .still (.refl s)

/-- R5, R176: what the step of a token or of an action of the environment has done. -/
theorem fetch_done {s t : State} {d : Input} (hm : s.mem.wf) (hd : d.isToken = true)
    (h : fetch d s (runWord s) = .next t) : StepDone s t := by
  cases d with
  | evt w => exact runWord_done (fun _ => fromToken_of_decode_evt) h
  | cmd w => exact runWord_done (fun _ => fromToken_of_decode_cmd) h
  | env a =>
    have h : envStep a s = .next t := h
    unfold envStep at h
    split at h
    · obtain rfl := Host.Outcome.next.inj h
      exact .still (still_register _ _ s)
    · split at h
      · next ha =>
        obtain rfl := Host.Outcome.next.inj h
        exact .still (still_write hm ha _)
      · cases h
  | res | setup | std | ep0 => cases hd

theorem base_stepDone {s t : State} (hs : Inv s) (h : StepDone s t) : Base s t := by
  cases h with
  | still h => exact h.toBase
  | forgotten hb => exact hb
  | engine k h => exact base_engineDone hs h

theorem flight_stepDone {s t : State} (hs : Inv s) (h : StepDone s t) : Flight t := by
  cases h with
  | still h => exact hs.flight.of_still h
  | forgotten _ hc => exact .of_idle hc
  | engine k h => exact flight_engineDone hs h

/-- Settles O46: a step takes its delivery and then does one of the things `StepDone` lists. -/
theorem everyStepKeepsTheInvariant : Obligations.EveryStepKeepsTheInvariant := by
  intro s t hs h
  cases hin : s.inputs with
  | nil =>
    rw [step_of_no_input hin] at h
    obtain rfl := Host.Outcome.next.inj h
    exact hs
  | cons d rest =>
    rw [step_of_delivery hin] at h
    have htake := hs.take hin
    have hdone := fetch_done htake.mem_wf (hs.tokens d (hin ▸ List.mem_cons_self)) h
    exact htake.of_base (base_stepDone htake hdone) (flight_stepDone htake hdone)

/-! ### The OUT data stage and the control buffer (R58, R107, R110) -/

/-- R110, R58: the packet read lies in the payload area. -/
theorem dataRead_read_outside {s : State} (hs : Inv s) (hc : s.control_state = .rxdata) {a : Nat}
    (ha : a < s.data_buf + 8 ∨ s.data_buf + 8 + s.data_maxsize.toNat ≤ a) : (dataRead s).mem.read a = s.mem.read a := by
  obtain ⟨hlow, hhigh⟩ := hs.chunk_fits hc
  have hlen : (rxBytes s.answers.rx s.chunkLen).length ≤ s.chunkLen := by
    rw [rxBytes, length_firstBytes]
    exact rxCount_le _ _
  have hout : a < s.data_ptr ∨ s.data_ptr + (rxBytes s.answers.rx s.chunkLen).length ≤ a := by omega
  exact Memory.read_writeBytes_outside hs.mem_wf hout

/-- Settles O27: the packet read lies in the payload area, and the control callback writes nowhere else. -/
theorem theOutDataStageNeverOverflowsTheBuffer : Obligations.TheOutDataStageNeverOverflowsTheBuffer := by
  intro s t hs hc h a ha
  have hread : (dataRead s).mem.read a = s.mem.read a := dataRead_read_outside hs hc ha
  have hoffered (n : Nat) (hn : n ≤ s.chunkLen) (cb : Nat) :
      (payloadOffered cb (gathered n s)).mem.read a = s.mem.read a :=
    (ctlCallback_read_outside ((base_gathered hs hc n).mem_wf hs.mem_wf) _ _ _ ha).trans hread
  cases dataOut_done (c := .rxdata) rfl h with
  | badDataOut => exact hread
  | payloadPart => exact hread
  | payloadUnheard => exact hread
  | payloadAcked _ n hn cb => exact hoffered n hn cb
  | payloadNaked _ n hn cb => exact hoffered n hn cb
  | payloadFailed _ n hn cb => exact hoffered n hn cb
  | badStatusOut hout => cases hout
  | statusOutDone hout => cases hout
  | outOfSequenceRx hne => exact absurd rfl hne.1

/-! ### Power-on (R168) -/

/-- R168: with any valid parameters the state after initialisation meets the invariant. -/
theorem inv_init {p : Params} (hp : p.valid = true) : Inv (State.init p) := by
  have hsize : (BitVec.ofNat 16 (p.bufSize - 8)).toNat + 8 = p.bufSize := by
    simp only [Params.valid, Bool.and_eq_true, decide_eq_true_eq] at hp
    rw [BitVec.toNat_ofNat]
    omega
  have hf : Flight (State.init p) := .of_idle rfl
  exact { hf with
    params_valid := hp
    buf := rfl
    packet := rfl
    maxsize := hsize
    mem_wf := ⟨.nil, nofun⟩
    mem_range := nofun
    stalled_rising := .nil
    tokens := nofun }

/-- Settles O44: the parameter values of log 1 are valid. -/
theorem powerOnMeetsTheInvariant : Obligations.PowerOnMeetsTheInvariant := inv_init (by decide)

/-! ### The events of endpoint 0 complete (R43, R89 to R95) -/

/-- R43: the responses the environment answers with the step under way lie in memory. -/
structure AnswersFit (s : State) : Prop where
  ctl : Response.fits s.params s.ctlResponse
  dsc : Response.fits s.params s.dscResponse

theorem AnswersFit.of_eq {s t : State} (h : AnswersFit s) (hp : t.params = s.params) (ha : t.answers = s.answers) :
    AnswersFit t := by
  obtain ⟨hc, hd⟩ := h
  constructor
  · simpa [State.ctlResponse, State.addr, hp, ha] using hc
  · simpa [State.dscResponse, State.addr, hp, ha] using hd

/-- R7: the payload area lies in memory. -/
def BufferFits (s : State) : Prop := s.data_buf + 8 + s.data_maxsize.toNat ≤ 2 ^ s.params.ptrW

theorem epRead_completes {buf len : Nat} {s : State} {k : BitVec 32 → State → Result} (h : s.inMemory buf len = true)
    (hk : Completes (k s.answers.rx.result (packetRead buf len s))) : Completes (epRead ep0Out buf len s k) := by
  rwa [epRead_eq h]

theorem withRequest_completes {s : State} {k : Request → Result} (h : s.inMemory s.data_buf 8 = true)
    (hk : Completes (k s.header)) : Completes (withRequest s k) := by
  rwa [withRequest_eq h]

/-- R104: a response in memory completes whatever its request's result. -/
theorem finish_completes (r : Request) (res : Res) {p : Response} {s : State} (h : Response.fits s.params p) :
    Completes (finish (stageOf r) res p s) := by
  cases res with
  | ack => exact ⟨_, finish_ack fun _ _ => le_trans (by omega) h⟩
  | nak => exact ⟨_, finish_nak _ _ _⟩
  | fail => exact ⟨_, finish_fail _ _ _⟩

theorem unserved_completes (r : Request) (s : State) : Completes (unserved r s) := ⟨_, unserved_eq r s⟩

theorem served_completes (r : Request) (s : State) : Completes (served r s) := ⟨_, served_eq r s⟩

theorem recognised_completes (r : Request) (s : State) {k : Result} (hk : Completes k) :
    Completes (recognised r s k) := by
  unfold recognised
  split
  · exact hk
  · exact unserved_completes r s

/-- R141: a built-in response `bs` is stored in the payload area, and sent from there. -/
theorem storedResponse_completes (r : Request) {bs : List Byte} {s : State} (len : BitVec 16)
    (hl : len.toNat = bs.length) (h : s.data_buf + 8 + bs.length ≤ 2 ^ s.params.ptrW) :
    Completes (writeMem (s.data_buf + 8) bs s fun u =>
      finish (stageOf r) .ack { ptr := s.data_buf + 8, len := len } u) := by
  rw [writeMem_eq (inMemory_of_le h)]
  have hfits : Response.fits s.params { ptr := s.data_buf + 8, len := len } := by
    unfold Response.fits
    rwa [hl]
  exact finish_completes r .ack hfits

theorem respondStatus_completes (r : Request) (w : BitVec 16) {s : State} (h : BufferFits s) :
    Completes (respondStatus r w s) := by
  unfold respondStatus
  split
  · exact unserved_completes r s
  · refine storedResponse_completes r 2 rfl (le_trans ?_ h)
    exact Nat.add_le_add_left (by simp only [statusBytes, List.length_cons, List.length_nil]; omega) _

theorem setHalt_completes (b : Bool) (r : Request) (s : State) : Completes (setHalt b r s) := by
  unfold setHalt
  split
  · exact served_completes _ _
  · exact unserved_completes _ _

theorem execStdGetStatus_completes (r : Request) {s : State} (h : BufferFits s) : Completes (execStdGetStatus r s) := by
  refine recognised_completes r s ?_
  split
  · exact respondStatus_completes r _ h
  · exact respondStatus_completes r _ h
  · exact unserved_completes r s

theorem execStdGetDescriptor_completes (r : Request) {s : State} (h : AnswersFit s) :
    Completes (execStdGetDescriptor r s) := by
  refine recognised_completes r s ?_
  split
  · exact finish_completes r _ h.dsc
  · exact unserved_completes r s

theorem execStdGetConfiguration_completes (r : Request) {s : State} (h : BufferFits s) :
    Completes (execStdGetConfiguration r s) := by
  refine recognised_completes r s ?_
  split
  · exact unserved_completes r s
  · refine storedResponse_completes r 1 rfl (le_trans ?_ h)
    exact Nat.add_le_add_left (by simp only [List.length_cons, List.length_nil]; omega) _

theorem execStdSetConfiguration_completes (r : Request) (s : State) : Completes (execStdSetConfiguration r s) := by
  refine recognised_completes r s ?_
  split
  · split
    · exact served_completes _ _
    · exact unserved_completes _ _
    · exact unserved_completes _ _
  · exact unserved_completes r s

/-- R132: every case of the built-in handler completes. -/
theorem stdRequest_completes (r : Request) {s : State} (hb : BufferFits s) (ha : AnswersFit s) :
    Completes (stdRequest r s) := by
  unfold stdRequest
  split
  · exact execStdGetStatus_completes r hb
  · exact setHalt_completes _ _ _
  · exact unserved_completes _ _
  · exact setHalt_completes _ _ _
  · exact unserved_completes _ _
  · exact recognised_completes _ _ (served_completes _ _)
  · exact execStdGetDescriptor_completes r ha
  · exact unserved_completes _ _
  · exact execStdGetConfiguration_completes r hb
  · exact execStdSetConfiguration_completes r s
  all_goals exact unserved_completes _ _

/-- R100: a request completes, whoever answers it. -/
theorem processRequest_completes (r : Request) {s : State} (hb : BufferFits s) (ha : AnswersFit s) :
    Completes (processRequest (stageOf r) r s) := by
  unfold processRequest
  split
  · next cb _ =>
    split
    · exact finish_completes r _ ha.ctl
    · exact finish_completes r _ ha.ctl
    · exact stdRequest_completes r (s := ctlCallback cb r [] s) hb (ha.of_eq rfl rfl)
  · exact stdRequest_completes r hb ha

theorem setupBranch_completes (r : Request) {s : State} (hb : BufferFits s) (ha : AnswersFit s) :
    Completes (setupBranch r s) := by
  have hreq := processRequest_completes r (s := cursorSet r s) hb (ha.of_eq rfl rfl)
  unfold setupBranch
  split
  · next hw => rwa [stageOf_noData hw] at hreq
  split
  · next hw hd => rwa [stageOf_in hw hd] at hreq
  · unfold execSetupOut
    split <;> exact ⟨_, rfl⟩

/-- R97, R98: a Setup event completes. -/
theorem setupStage_completes {s : State} (hs : Inv s) (ha : AnswersFit s) :
    Completes (setupStage (s.arrives .epsetup)) := by
  unfold setupStage readSetup
  refine epRead_completes (s := restart (s.arrives .epsetup)) hs.header_fits ?_
  split
  · exact ⟨_, rfl⟩
  · exact withRequest_completes (s := setupRead s) hs.header_fits
      (setupBranch_completes _ hs.buffer_fits (ha.of_eq rfl rfl))

/-- R127: the end of a transfer completes. -/
theorem complete_completes {s : State} (h : s.inMemory s.data_buf 8 = true) : Completes (complete s) :=
  ⟨_, complete_eq (.inr h)⟩

theorem statusOutDone_completes {s : State} (h : s.inMemory s.data_buf 8 = true) : Completes (statusOutDone s) := by
  refine epRead_completes (inMemory_zero _ _) ?_
  split
  · exact ⟨_, rfl⟩
  · exact complete_completes h

/-- R113: a payload that lies in the payload area is offered, and its result completes. -/
theorem rxComplete_completes {s : State} (hs : Inv s) (hc : s.control_state = .rxdata) : Completes (rxComplete s) := by
  have hfits := hs.rx_fits hc
  have hbuf := hs.buffer_fits
  unfold rxComplete
  rw [withRequest_eq hs.header_fits, readMem_eq (inMemory_of_le (by omega))]
  split
  · unfold payloadResult
    split
    · exact ⟨_, enterStatusIn_eq _⟩
    · exact ⟨_, rfl⟩
    · exact ⟨_, rfl⟩
  · exact ⟨_, rfl⟩

/-- R110 to R116: a data packet completes. -/
theorem dataOut_completes {s : State} (hs : Inv s) (hc : s.control_state = .rxdata) :
    Completes (dataOut (s.arrives .eprx)) := by
  obtain ⟨hlow, hhigh⟩ := hs.chunk_fits hc
  have hfits := hs.buffer_fits
  have hlies : s.inMemory s.data_ptr s.chunkLen = true := inMemory_of_le (by omega)
  refine epRead_completes (s := s.arrives .eprx) hlies ?_
  split
  · exact ⟨_, rfl⟩
  next hgood =>
  obtain ⟨n, hn, hle⟩ := badDataOut_false (Bool.eq_false_iff.2 hgood)
  have hr : (rxResult (s.arrives .eprx).answers.rx.result).toNat = n := by rw [rxResult, hn]; rfl
  rw [hr]
  unfold accumulate
  split
  · exact ⟨_, rfl⟩
  · exact rxComplete_completes (hs.of_base (base_gathered hs hc n) (flight_gathered hs hc hle)) hc

/-- R118: a chunk of a response in memory completes. -/
theorem sendChunk_completes {s : State} (hs : Inv s) (hc : s.control_state = .txdata)
    (hf : Response.fits s.params s.resp) :
    Completes (sendChunk (s.arrives .eptx)) := by
  have hle : s.chunkLen ≤ s.data_count.toNat := Nat.min_le_left _ _
  have hlies : s.data_ptr + s.chunkLen ≤ 2 ^ s.params.ptrW :=
    calc s.data_ptr + s.chunkLen ≤ s.data_ptr + s.data_count.toNat := Nat.add_le_add_left hle _
      _ = s.resp.ptr + min s.header.wLength.toNat s.resp.len.toNat := hs.tx_cursor (.inl hc)
      _ ≤ s.resp.ptr + s.resp.len.toNat := Nat.add_le_add_left (Nat.min_le_right _ _) _
      _ ≤ 2 ^ s.params.ptrW := hf
  exact ⟨_, sendChunk_eq (s := s.arrives .eptx) (inMemory_of_le hlies)⟩

theorem lastDataDone_completes (s : State) : Completes (lastDataDone s) := by
  unfold lastDataDone
  split
  · exact ⟨_, enterStatusIn_eq s⟩
  · exact ⟨_, rfl⟩

/-- R91, R97: a Setup event reads its packet in every control state. -/
theorem engineEpsetup_completes {s : State} (hs : Inv s) (ha : AnswersFit s) : Completes (engineEpsetup s) := by
  have h := setupStage_completes hs ha
  unfold engineEpsetup
  split <;> exact h

/-- R90, R110, R126, R153: a packet received completes. -/
theorem engineEprx_completes {s : State} (hs : Inv s) : Completes (engineEprx s) := by
  have hstall : Completes (outOfSequence (s.arrives .eprx)) := ⟨_, rfl⟩
  unfold engineEprx
  cases hc : s.control_state with
  | rxdata => exact dataOut_completes hs hc
  | statusout => exact statusOutDone_completes (s := s.arrives .eprx) hs.header_fits
  | idle | txdata | ztxdata | lastdata | statusin => exact hstall

/-- R89, R118 to R125, R153: a packet sent completes. -/
theorem engineEptx_completes {s : State} (hs : Inv s)
    (hf : s.control_state = .txdata → Response.fits s.params s.resp) : Completes (engineEptx s) := by
  have hstall : Completes (outOfSequence (s.arrives .eptx)) := ⟨_, rfl⟩
  unfold engineEptx
  cases hc : s.control_state with
  | txdata => exact sendChunk_completes hs hc (hf hc)
  | ztxdata => exact ⟨_, sendZlp_eq _⟩
  | lastdata => exact lastDataDone_completes _
  | statusin => exact complete_completes (s := s.arrives .eptx) hs.header_fits
  | idle | rxdata | statusout => exact hstall

/-- R94: every slot but the engine's takes its event without a condition. -/
theorem route_completes (k : EventKind) (e : State → Result) (ep : Byte) {s : State} (h : Completes (e s)) :
    Completes (route k e ep s) := by
  unfold route
  split
  · exact h
  · exact ⟨_, rfl⟩
  · exact ⟨_, rfl⟩

/-- R43, R89 to R91: in a state of the invariant a token completes, whatever the environment answers in memory. -/
theorem token_completes {s : State} {i : Instr} (hi : fromToken i = true) (hs : Inv s) (ha : AnswersFit s)
    (hf : s.control_state = .txdata → Response.fits s.params s.resp) : Completes (exec i s) := by
  cases i with
  | evtEptx ep => exact route_completes _ _ ep (engineEptx_completes hs hf)
  | evtEprx ep => exact route_completes _ _ ep (engineEprx_completes hs)
  | evtEpsetup ep => exact route_completes _ _ ep (engineEpsetup_completes hs ha)
  | evtReset | evtSof | evtSuspend | evtWakeup | evtError | evtEsof => exact ⟨_, rfl⟩
  | cmdEnable | cmdDisable | cmdConnect | cmdDisconnect | cmdReset => exact ⟨_, rfl⟩
  | _ => cases hi

/-- Settles O43: the three events are tokens. -/
theorem endpointZeroEventsComplete : Obligations.EndpointZeroEventsComplete := by
  intro s ep i _ hi hs hctl hdsc hresp
  have hi : fromToken i = true := by
    simp only [List.mem_cons, List.not_mem_nil, or_false] at hi
    rcases hi with rfl | rfl | rfl <;> rfl
  exact token_completes hi hs ⟨hctl, hdsc⟩ hresp

/-! ### A dutiful environment (R43, R58) -/

theorem dutiful_of_base {s t : State} {d : Delivery} (hb : Base s t) (h : d.dutiful s) : d.dutiful t := by
  unfold Delivery.dutiful State.addr State.envOwns at *
  rwa [hb.params, hb.buf, hb.maxsize]

/-- R43: the response being sent lies in memory. -/
def SendingFits (s : State) : Prop :=
  s.control_state = .txdata ∨ s.control_state = .ztxdata → Response.fits s.params s.resp

theorem SendingFits.of_still {s t : State} (hf : SendingFits s) (h : Still s t) : SendingFits t := by
  unfold SendingFits
  rw [h.control_state, h.resp, h.params]
  exact hf

/-- Outside `txdata` and `ztxdata` no response is being sent. -/
theorem SendingFits.of_other {s : State} {c : ControlState} (h : s.control_state = c)
    (hc : ¬(c = .txdata ∨ c = .ztxdata)) : SendingFits s := fun hs => absurd (h ▸ hs) hc

/-- R132 to R142: the response of the built-in handler lies in memory. -/
theorem handled_fits {row : Nat → Prop} {r : Request} {s u : State} {res : Res} {p : Response} (ha : AnswersFit s)
    (h : Handled row r s res p u) : Response.fits s.params p := by
  have hempty : Response.fits s.params s.emptyResponse := le_of_lt (Nat.mod_lt _ (Nat.two_pow_pos _))
  have hzero : Response.fits s.params ⟨0, 0⟩ := Nat.zero_le _
  cases h with
  | unserved => exact hzero
  | asked => exact hzero
  | status _ _ _ _ lies => exact ((inMemory_iff _ _ _).1 lies).resolve_left (by decide)
  | halt => exact hempty
  | address => exact hempty
  | descriptor => exact ha.dsc
  | current _ lies => exact ((inMemory_iff _ _ _).1 lies).resolve_left (by decide)
  | configured => exact hempty
  | notConfigured => exact hzero

/-- R100: the response of a processed request lies in memory. -/
theorem processed_fits {r : Request} {s u : State} {res : Res} {p : Response} (ha : AnswersFit s)
    (h : Processed r s res p u) : Response.fits s.params p := by
  cases h with
  | control => exact ha.ctl
  | fallback cb _ _ _ _ hh => exact handled_fits (s := ctlCallback cb r [] s) (ha.of_eq rfl rfl) hh
  | builtin _ _ _ hh => exact handled_fits ha hh

theorem accepted_sendingFits {r : Request} {p : Response} {u : State} (h : Response.fits u.params p) :
    SendingFits (accepted r p u) := by
  unfold accepted
  split
  · exact fun _ => h
  · exact fun h => h.elim nofun nofun

/-- R43: what an event of endpoint 0 leaves being sent is a response the environment answered, or the one before. -/
theorem engineDone_sendingFits {s t : State} {k : EventKind} (ha : AnswersFit s) (hf : SendingFits s)
    (h : EngineDone s s.control_state k t) : SendingFits t := by
  cases h with
  | accepted p u h =>
    have hbase : u.params = s.params := (base_processed h).params
    exact accepted_sendingFits (hbase ▸ processed_fits (s := setupBegun s) (ha.of_eq rfl rfl) h)
  | deferred p u h => exact .of_other (c := .idle) (cs_processed h) (by decide)
  | payloadPart hc => exact .of_other hc (by decide)
  | payloadNaked hc => exact .of_other hc (by decide)
  | chunk hc => exact fun _ => hf (.inl hc)
  | _ => exact fun h => h.elim nofun nofun

theorem stepDone_sendingFits {s t : State} (ha : AnswersFit s) (hf : SendingFits s) (h : StepDone s t) :
    SendingFits t := by
  cases h with
  | still h => exact hf.of_still h
  | forgotten _ hc => exact .of_other hc (by decide)
  | engine k h => exact engineDone_sendingFits ha hf h

/-- R73, R74: a word of a token completes, decoded or rejected. -/
theorem runWord_completes {s : State} {w : Word} (hw : ∀ i, decode w = .ok i → fromToken i = true) (hs : Inv s)
    (ha : AnswersFit s) (hf : SendingFits s) : Completes (runWord s w) := by
  unfold runWord
  split
  · exact token_completes (hw _ ‹_›) hs ha fun hc => hf (.inl hc)
  · exact ⟨s, rfl⟩

/-- R5, R39: the step of a token completes, and so does that of an environment that writes only what it owns. -/
theorem fetch_completes {s : State} {d : Input} (hd : d.isToken = true) (hs : Inv s) (ha : AnswersFit s)
    (hf : SendingFits s) (hw : ∀ a v, d = .env (.write a v) → s.envOwns a = true) :
    Completes (fetch d s (runWord s)) := by
  cases d with
  | evt w => exact runWord_completes (fun _ => fromToken_of_decode_evt) hs ha hf
  | cmd w => exact runWord_completes (fun _ => fromToken_of_decode_cmd) hs ha hf
  | env a =>
    cases a with
    | register slot cb => exact ⟨_, rfl⟩
    | write a v => exact ⟨_, if_pos (hw a v rfl)⟩
  | res | setup | std | ep0 => cases hd

/-- Settles O47: the answers of the delivery and the response being sent lie in memory, so the step completes
(`fetch_completes`), and neither what it leaves being sent nor what is still to come owes more than before. -/
theorem withADutifulEnvironmentNoStepStops : Obligations.WithADutifulEnvironmentNoStepStops := by
  intro s hs ⟨hdel, hsend⟩
  cases hin : s.inputs with
  | nil => exact ⟨s, step_of_no_input hin, hdel, hsend⟩
  | cons d rest =>
    have hmem : d ∈ s.inputs := hin ▸ List.mem_cons_self
    have htake := hs.take hin
    obtain ⟨hctl, hdsc, hwrite⟩ := hdel d hmem
    have ha : AnswersFit (s.take d rest) := ⟨hctl, hdsc⟩
    obtain ⟨t, ht⟩ := fetch_completes (s := s.take d rest) (hs.tokens d hmem) htake ha hsend hwrite
    have hdone := fetch_done htake.mem_wf (hs.tokens d hmem) ht
    have hb := base_stepDone htake hdone
    refine ⟨t, (step_of_delivery hin).trans ht, fun e he => ?_, stepDone_sendingFits ha hsend hdone⟩
    have he : e ∈ rest := by rwa [hb.inputs] at he
    exact dutiful_of_base hb (hdel e (hin ▸ List.mem_cons_of_mem d he) : e.dutiful (s.take d rest))

/-! ### The control state (R96) -/

/-- R101, R104: an acked request is in its IN data stage or in its status stage. -/
theorem accepted_control_state (r : Request) (p : Response) (s : State) :
    (accepted r p s).control_state ∈ [ControlState.txdata, .ztxdata, .lastdata, .statusin] := by
  unfold accepted
  split
  · rw [firstChunkSent_eq]
    have hcs := afterChunk_cases (dataInBegun r.wLength p s) (dataInBegun r.wLength p s).chunkLen
    obtain ⟨h, -⟩ | ⟨h, -⟩ | ⟨h, -⟩ := hcs <;> simp [chunkSent, h]
  · simp

/-- R101, R104: an acked request hands over one packet. -/
theorem accepted_calls (r : Request) (p : Response) (s : State) : Calls [2] s.trace (accepted r p s).trace := by
  unfold accepted
  split
  · exact firstChunkSent_calls _ p s
  · exact statusQueued_calls _

/-- R96: an event of endpoint 0 moves the control state along the transition table. -/
theorem engineDone_controlStep {s t : State} {k : EventKind} (h : EngineDone s s.control_state k t) :
    controlStep s.params.statusAfterIn k s.control_state t.control_state = true := by
  cases h with
  | badSetup => rfl
  | overflow => rfl
  | payloadDue => rfl
  | accepted p u h =>
    have := accepted_control_state (setupRead s).header p u
    simp only [List.mem_cons, List.not_mem_nil, or_false] at this
    obtain h | h | h | h := this <;> rw [h] <;> rfl
  | deferred p u h => rw [cs_processed h]; rfl
  | failed => rfl
  | badDataOut hc => rw [hc]; rfl
  | payloadPart hc n =>
    have hcs : (gathered n s).control_state = s.control_state := rfl
    rw [hcs, hc]
    rfl
  | payloadUnheard hc => rw [hc]; rfl
  | payloadAcked hc => rw [hc]; rfl
  | payloadNaked hc n _ cb =>
    have hcs : (payloadOffered cb (gathered n s)).control_state = s.control_state := rfl
    rw [hcs, hc]
    rfl
  | payloadFailed hc => rw [hc]; rfl
  | badStatusOut hc => rw [hc]; rfl
  | statusOutDone hc => rw [hc]; rfl
  | chunk hc =>
    have hcs : (chunkSent (s.arrives .eptx)).control_state = afterChunk (s.arrives .eptx) s.chunkLen := rfl
    obtain ⟨h, -⟩ | ⟨h, -⟩ | ⟨h, -⟩ := afterChunk_cases (s.arrives .eptx) s.chunkLen <;> rw [hcs, h, hc] <;> rfl
  | zlp hc => rw [hc]; rfl
  | lastThenIn hc hp => rw [hc, hp]; rfl
  | lastThenOut hc hp => rw [hc, hp]; rfl
  | statusInDone hc => rw [hc]; rfl
  | outOfSequenceRx => cases s.control_state <;> rfl
  | outOfSequenceTx hc => obtain hc | hc | hc := hc <;> rw [hc] <;> rfl

/-- R94: endpoint number 0 is the engine's. -/
theorem route_zero {ep : Byte} (h : ep.extractLsb' 0 3 = 0) (k : EventKind) (e : State → Result) (s : State) :
    route k e ep s = e s := by
  unfold route epNumber
  rw [h]
  rfl

/-- R95: an endpoint event of endpoint 0 ends in one of the ways `EngineDone` lists. -/
theorem endpointEvent_done {s t : State} {ep : Byte} (h0 : ep.extractLsb' 0 3 = 0) :
    (exec (.evtEptx ep) s = .next t → EngineDone s s.control_state .eptx t) ∧
      (exec (.evtEprx ep) s = .next t → EngineDone s s.control_state .eprx t) ∧
      (exec (.evtEpsetup ep) s = .next t → EngineDone s s.control_state .epsetup t) := by
  refine ⟨fun h => ?_, fun h => ?_, fun h => ?_⟩
  · obtain ⟨j, hj, h⟩ := engineEptx_row ((route_zero h0 _ _ s).symm.trans h)
    exact engine_done hj h
  · obtain ⟨j, hj, h⟩ := engineEprx_row ((route_zero h0 _ _ s).symm.trans h)
    exact engine_done hj h
  · obtain ⟨j, hj, h⟩ := engineEpsetup_row ((route_zero h0 _ _ s).symm.trans h)
    exact engine_done hj h

/-- R84: an informational event leaves the control state. -/
theorem eventCallback_controlStep {s t : State} {ep : Byte} {k : EventKind}
    (hk : k ∈ [EventKind.sof, .suspend, .wakeup, .error, .esof])
    (h : Host.Outcome.next (eventCallback k ep s) = (.next t : Result)) :
    controlStep s.params.statusAfterIn k s.control_state t.control_state = true := by
  obtain rfl := Host.Outcome.next.inj h
  rw [eventCallback_control_state]
  simp only [List.mem_cons, List.not_mem_nil, or_false] at hk
  obtain rfl | rfl | rfl | rfl | rfl := hk <;> simp [controlStep]

/-- Settles O48: the endpoint events by `engineDone_controlStep`, the others by what their callback leaves. -/
theorem controlStateMovesOnlyAsTheTransferAllows : Obligations.ControlStateMovesOnlyAsTheTransferAllows := by
  intro s t ep i k h0 hi h
  obtain ⟨htx, hrx, hsetup⟩ := endpointEvent_done (s := s) (t := t) h0
  simp only [List.mem_cons, List.not_mem_nil, or_false, Prod.mk.injEq] at hi
  obtain ⟨rfl, rfl⟩ | ⟨rfl, rfl⟩ | ⟨rfl, rfl⟩ | ⟨rfl, rfl⟩ | ⟨rfl, rfl⟩ | ⟨rfl, rfl⟩ | ⟨rfl, rfl⟩ | ⟨rfl, rfl⟩ |
    ⟨rfl, rfl⟩ := hi
  · obtain rfl := Host.Outcome.next.inj h
    rw [eventCallback_control_state]
    rfl
  · exact eventCallback_controlStep (by decide) h
  · exact eventCallback_controlStep (by decide) h
  · exact eventCallback_controlStep (by decide) h
  · exact engineDone_controlStep (htx h)
  · exact engineDone_controlStep (hrx h)
  · exact engineDone_controlStep (hsetup h)
  · exact eventCallback_controlStep (by decide) h
  · exact eventCallback_controlStep (by decide) h

/-! ### What changes the device state (R161) -/

/-- R139: the configuration callback has acked a configuration, and the device state follows it. -/
def ConfigApplied (s t : State) : Prop :=
  ∃ cb c l, s.cfg_cb = some cb ∧ t.trace = s.trace ++ l ∧ .cfgCb cb c 1 ∈ l ∧ t.device_cfg = c ∧
    t.device_state = if c ≠ 0 then .configured else .addressed

/-- From `s` to `t` the device state is left alone, or follows a configuration that was acked. -/
def StateFollowsConfig (s t : State) : Prop := t.device_state = s.device_state ∨ ConfigApplied s t

/-- What comes before the configuration only adds calls. -/
theorem StateFollowsConfig.after {r s t : State} {ks : List Nat} (h : StateFollowsConfig s t)
    (hcalls : Calls ks r.trace s.trace) (hcb : s.cfg_cb = r.cfg_cb) (hd : s.device_state = r.device_state) :
    StateFollowsConfig r t := by
  obtain h | ⟨cb, c, l, hs, ht, hmem, hcfg⟩ := h
  · exact .inl (h.trans hd)
  · obtain ⟨l', hl', -⟩ := hcalls
    refine .inr ⟨cb, c, l' ++ l, hcb ▸ hs, ?_, List.mem_append_right _ hmem, hcfg⟩
    rw [ht, hl', List.append_assoc]

/-- What comes after the configuration only adds calls. -/
theorem StateFollowsConfig.before {s t u : State} {ks : List Nat} (h : StateFollowsConfig s t)
    (hcalls : Calls ks t.trace u.trace) (hcfg : u.device_cfg = t.device_cfg) (hd : u.device_state = t.device_state) :
    StateFollowsConfig s u := by
  obtain h | ⟨cb, c, l, hs, ht, hmem, hc, hdev⟩ := h
  · exact .inl (hd.trans h)
  · obtain ⟨l', hl', -⟩ := hcalls
    refine .inr ⟨cb, c, l ++ l', hs, ?_, List.mem_append_left _ hmem, hcfg.trans hc, hd.trans hdev⟩
    rw [hl', ht, List.append_assoc]

/-- R132 to R142: of the handler's cases only SET_CONFIGURATION changes the device state. -/
theorem handled_followsConfig {row : Nat → Prop} {r : Request} {s u : State} {res : Res} {p : Response}
    (h : Handled row r s res p u) : StateFollowsConfig s u := by
  cases h with
  | status u w hu => obtain rfl | rfl := hu <;> exact .inl rfl
  | configured cb slot acked =>
    refine .inr ⟨cb, configOf r, [.cfgCb cb (configOf r) 1], slot, ?_, List.mem_singleton_self _, rfl, rfl⟩
    exact acked ▸ cfgCallback_trace s cb (configOf r)
  | _ => exact .inl rfl

/-- R101 to R106: a result leaves the configuration and the device state alone. -/
theorem finish_keeps_device {stage : Stage} {res : Res} {p : Response} {u t : State}
    (h : finish stage res p u = .next t) : t.device_cfg = u.device_cfg ∧ t.device_state = u.device_state := by
  have hq (h : enterStatusIn { u with resp := p } = .next t) :
      t.device_cfg = u.device_cfg ∧ t.device_state = u.device_state := by
    rw [enterStatusIn_eq] at h
    obtain rfl := Host.Outcome.next.inj h
    exact ⟨rfl, rfl⟩
  cases res with
  | ack =>
    cases stage with
    | noData => exact hq h
    | outData => exact hq h
    | inData w =>
      obtain ⟨-, rfl⟩ := beginDataIn_next h
      exact ⟨rfl, rfl⟩
  | nak =>
    obtain rfl := Host.Outcome.next.inj h
    exact ⟨rfl, rfl⟩
  | fail =>
    rw [finish_fail] at h
    obtain rfl := Host.Outcome.next.inj h
    exact ⟨rfl, rfl⟩

theorem served_followsConfig {row : Nat → Prop} {r : Request} {s t : State} (h : Served row r s t) :
    StateFollowsConfig s t := by
  obtain ⟨res, p, u, hu, hf⟩ := h
  exact (handled_followsConfig hu).before (finish_calls hf) (finish_keeps_device hf).1 (finish_keeps_device hf).2

/-- R100: the control callback leaves the device state to the handler. -/
theorem processRequest_followsConfig {stage : Stage} {r : Request} {s t : State}
    (h : processRequest stage r s = .next t) : StateFollowsConfig s t := by
  unfold processRequest at h
  split at h
  · next cb _ =>
    split at h
    · exact .inl (finish_keeps_device h).2
    · exact .inl (finish_keeps_device h).2
    · exact (served_followsConfig (stdRequest_served h)).after (ctlCallback_calls cb r [] s) rfl rfl
  · exact served_followsConfig (stdRequest_served h)

theorem processed_followsConfig {r : Request} {s u : State} {res : Res} {p : Response}
    (h : Processed r (setupBegun s) res p u) : StateFollowsConfig s u := by
  have hread : Calls [1] s.trace (setupBegun s).trace := .one _ rfl
  refine StateFollowsConfig.after ?_ hread rfl rfl
  cases h with
  | control => exact .inl rfl
  | fallback cb _ _ _ _ hh => exact (handled_followsConfig hh).after (ctlCallback_calls cb r [] _) rfl rfl
  | builtin _ _ _ hh => exact handled_followsConfig hh

/-- R127, R128: the pending address has been applied, and the device state follows it. -/
def AddressApplied (s t : State) : Prop :=
  s.pend_addr_v = true ∧ t.device_state = (if s.pend_addr ≠ 0 then .addressed else .default) ∧
    ∃ l, t.trace = s.trace ++ l ∧ .setAddress (s.pend_addr.setWidth 8) ∈ l

/-- R127: the end of a transfer changes the device state for a pending address only. -/
theorem completedState_device (s : State) :
    (completedState s).device_state = s.device_state ∨ AddressApplied s (completedState s) := by
  cases hv : s.pend_addr_v with
  | false => exact .inl (by simp [completedState, hv])
  | true =>
    refine .inr ⟨hv, by simp [completedState, hv], _, List.append_assoc _ _ _, ?_⟩
    simp [hv]

/-- R126: the status packet is read before the transfer ends. -/
theorem statusRead_completed_device (s : State) :
    (completedState (statusRead s)).device_state = s.device_state ∨
      AddressApplied s (completedState (statusRead s)) := by
  obtain h | ⟨hv, hd, l, hl, hmem⟩ := completedState_device (statusRead s)
  · exact .inl h
  · exact .inr ⟨hv, hd, _, hl.trans (List.append_assoc _ _ _), List.mem_append_right _ hmem⟩

/-- R161: an event of endpoint 0 changes the device state by a configuration or a pending address only. -/
theorem engineDone_device {s t : State} {c : ControlState} {k : EventKind} (h : EngineDone s c k t) :
    StateFollowsConfig s t ∨ AddressApplied s t := by
  cases h with
  | accepted p u h =>
    refine .inl ((processed_followsConfig h).before (accepted_calls _ p u) ?_ ?_) <;> unfold accepted <;> split <;> rfl
  | deferred p u h => exact .inl (processed_followsConfig h)
  | failed p u h => exact .inl ((processed_followsConfig h).before (ks := []) (stalledState_calls _ u) rfl rfl)
  | statusOutDone => exact (statusRead_completed_device s).imp .inl id
  | statusInDone => exact (completedState_device (s.arrives .eptx)).imp .inl id
  | _ => exact .inl (.inl rfl)

/-- R161: the triggers of a change of the device state, each with the state it leads to. -/
def DeviceMove (i : Instr) (s t : State) : Prop :=
  t.device_state = s.device_state ∨ (i = .cmdEnable ∧ t.device_state = .disconnected) ∨
    (i = .cmdDisable ∧ t.device_state = .disabled) ∨ (i = .cmdReset ∧ t.device_state = .default) ∨
    (∃ ep, i = .evtReset ep ∧ t.device_state = .default) ∨ AddressApplied s t ∨ ConfigApplied s t

theorem DeviceMove.of_engine {i : Instr} {s t : State} (h : StateFollowsConfig s t ∨ AddressApplied s t) :
    DeviceMove i s t := by
  obtain (h | h) | h := h
  · exact .inl h
  · exact .inr (.inr (.inr (.inr (.inr (.inr h)))))
  · exact .inr (.inr (.inr (.inr (.inr (.inl h)))))

/-- Settles O49: the commands and the reset by what they write, everything else by what a request or the end of a
transfer does. -/
theorem deviceStateMovesOnlyForItsTriggers : Obligations.DeviceStateMovesOnlyForItsTriggers := by
  intro s t i h
  show DeviceMove i s t
  cases exec_ran h with
  | reset ep =>
    exact .inr (.inr (.inr (.inr (.inl ⟨ep, rfl, eventCallback_device_state (resetStatus s) .reset ep⟩))))
  | info _ k ep => exact .inl (eventCallback_device_state s k ep)
  | engine _ j k ep _ _ _ hj h => exact .of_engine (engineDone_device (engine_done hj h))
  | row c k _ _ hr h => exact .of_engine (engineDone_device (engine_done hr h))
  | enable => exact .inr (.inl ⟨rfl, rfl⟩)
  | disable => exact .inr (.inr (.inl ⟨rfl, rfl⟩))
  | resetCmd => exact .inr (.inr (.inr (.inl ⟨rfl, rfl⟩)))
  | nodata r _ h => exact .of_engine (.inl (processRequest_followsConfig (s := cursorSet r s) h))
  | std _ r _ h => exact .of_engine (.inl (served_followsConfig h))
  | user | empty | connect | disconnect | resFail | resNak | resAckOut | resAckIn | outBig | outFits => exact .inl rfl
  -- What is left is the request of the class IN, whose constructor's name is a keyword of Lean.
  | _ =>
    rename_i r h
    exact .of_engine (.inl (processRequest_followsConfig (s := cursorSet r s) h))

/-! ### The device state gates nothing (R162)

`Alike a b s s'` says that two runs from the device states `a` and `b` have come to `s` and `s'`; every operation takes
states that are alike to results that are alike. -/

/-- The state `s` in the device state `d`. -/
def State.inDevice (s : State) (d : DeviceState) : State := { s with device_state := d }

/-- `s'` is `s`, or differs from it in the device state alone, which neither run has written. -/
structure Alike (a b : DeviceState) (s s' : State) : Prop where
  frame : s' = s.inDevice s'.device_state
  moved : s'.device_state = s.device_state ∨ s.device_state = a ∧ s'.device_state = b

/-- Both results are next states that are alike, or both are the same fault. -/
inductive AlikeResults (a b : DeviceState) : Result → Result → Prop
  | next {s s' : State} (h : Alike a b s s') : AlikeResults a b (.next s) (.next s')
  | fault (f : Fault) : AlikeResults a b (.fault f) (.fault f)

section

variable {a b : DeviceState} {s s' : State}

theorem Alike.refl (s : State) : Alike a b s s := ⟨rfl, .inl rfl⟩

/-- What does not look at the device state reads the same in both. -/
theorem Alike.same {α : Type} (h : Alike a b s s') (g : State → α) (hg : ∀ s d, g (s.inDevice d) = g s) :
    g s' = g s := by
  rw [h.frame, hg]

/-- An update that does not look at the device state and leaves it alone. -/
theorem Alike.map (h : Alike a b s s') (f : State → State) (hf : ∀ s d, f (s.inDevice d) = (f s).inDevice d) :
    Alike a b (f s) (f s') := by
  have hkeep (s : State) : (f s).device_state = s.device_state :=
    calc (f s).device_state = (f (s.inDevice s.device_state)).device_state := rfl
      _ = ((f s).inDevice s.device_state).device_state := by rw [hf]
      _ = s.device_state := rfl
  refine ⟨?_, by rw [hkeep, hkeep]; exact h.moved⟩
  calc f s' = f (s.inDevice s'.device_state) := congrArg f h.frame
    _ = (f s).inDevice s'.device_state := hf _ _
    _ = (f s).inDevice (f s').device_state := by rw [hkeep]

/-- An update that writes the device state without looking at it. -/
theorem Alike.overwrite (h : Alike a b s s') (f : State → State) (hf : ∀ s d, f (s.inDevice d) = f s) :
    Alike a b (f s) (f s') := by
  rw [h.same f hf]
  exact .refl _

/-! #### Accesses and calls -/

theorem readMem_alike (h : Alike a b s s') {p p' n n' : Nat} (hp : p' = p) (hn : n' = n) {k k' : List Byte → Result}
    (hk : ∀ bs, AlikeResults a b (k bs) (k' bs)) : AlikeResults a b (readMem p n s k) (readMem p' n' s' k') := by
  subst hp hn
  unfold readMem
  rw [h.same (·.inMemory p' n') fun _ _ => rfl, h.same (·.mem) fun _ _ => rfl]
  split
  · exact hk _
  · exact .fault _

theorem writeMem_alike (h : Alike a b s s') {p p' : Nat} {bs bs' : List Byte} (hp : p' = p) (hbs : bs' = bs)
    {k k' : State → Result} (hk : ∀ u u', Alike a b u u' → AlikeResults a b (k u) (k' u')) :
    AlikeResults a b (writeMem p bs s k) (writeMem p' bs' s' k') := by
  subst hp hbs
  have hwritten := h.map (fun s => { s with mem := s.mem.writeBytes p' bs' }) fun _ _ => rfl
  unfold writeMem
  rw [h.same (·.inMemory p' bs'.length) fun _ _ => rfl]
  split
  · exact hk _ _ hwritten
  · exact .fault _

theorem withRequest_alike (h : Alike a b s s') {k k' : Request → Result}
    (hk : ∀ r, AlikeResults a b (k r) (k' r)) : AlikeResults a b (withRequest s k) (withRequest s' k') :=
  readMem_alike h (h.same (·.data_buf) fun _ _ => rfl) rfl fun _ => hk _

theorem epRead_alike (h : Alike a b s s') {buf buf' len len' : Nat} (hbuf : buf' = buf) (hlen : len' = len)
    {k k' : BitVec 32 → State → Result}
    (hk : ∀ u u', Alike a b u u' → AlikeResults a b (k s.answers.rx.result u) (k' s.answers.rx.result u')) :
    AlikeResults a b (epRead ep0Out buf len s k) (epRead ep0Out buf' len' s' k') := by
  subst hbuf hlen
  unfold epRead
  rw [h.same (·.answers) fun _ _ => rfl, h.same (·.hab) fun _ _ => rfl]
  exact writeMem_alike h rfl rfl fun u u' hu => hk _ _ (hu.map
    (fun u => { u.call (.epRead ep0Out buf' len' s.answers.rx.result) with hab := { s.hab with rx_waiting := false } })
    fun _ _ => rfl)

theorem enterStatusIn_alike (h : Alike a b s s') : AlikeResults a b (enterStatusIn s) (enterStatusIn s') := by
  rw [enterStatusIn_eq, enterStatusIn_eq]
  exact .next (h.map statusQueued fun _ _ => rfl)

theorem stall_alike (h : Alike a b s s') (c : StallCause) :
    AlikeResults a b (.next (stall c s)) (.next (stall c s')) := .next (h.map (stall c) fun _ _ => rfl)

/-- R118: a chunk is handed over where it lies in memory. -/
theorem sendChunk_ite (s : State) : sendChunk s =
    if s.inMemory s.data_ptr s.chunkLen then .next (chunkSent s) else .fault .readOutsideMemory := by
  split
  · next hm => exact sendChunk_eq hm
  · next hm => exact if_neg hm

theorem sendChunk_alike (h : Alike a b s s') : AlikeResults a b (sendChunk s) (sendChunk s') := by
  rw [sendChunk_ite, sendChunk_ite, h.same (fun s => s.inMemory s.data_ptr s.chunkLen) fun _ _ => rfl]
  split
  · exact .next (h.map chunkSent fun _ _ => rfl)
  · exact .fault _

theorem sendZlp_alike (h : Alike a b s s') : AlikeResults a b (sendZlp s) (sendZlp s') := by
  rw [sendZlp_eq, sendZlp_eq]
  exact .next (h.map zlpSent fun _ _ => rfl)

theorem lastDataDone_alike (h : Alike a b s s') : AlikeResults a b (lastDataDone s) (lastDataDone s') := by
  unfold lastDataDone
  rw [h.same (·.params.statusAfterIn) fun _ _ => rfl]
  split
  · exact enterStatusIn_alike h
  · exact .next (h.map (fun s => { s with control_state := .statusout }) fun _ _ => rfl)

/-- R127: the device state a pending address leads to is written without looking at the old one. -/
theorem applyPendingAddress_alike (h : Alike a b s s') :
    Alike a b (applyPendingAddress s) (applyPendingAddress s') := by
  have happlied := h.overwrite (fun s => { setAddress (s.pend_addr.setWidth 8) s with
    device_state := stateForAddress s.pend_addr, pend_addr_v := false }) fun _ _ => rfl
  unfold applyPendingAddress
  rw [h.same (·.pend_addr_v) fun _ _ => rfl]
  split
  · exact happlied
  · exact h

theorem finishTransfer_alike (h : Alike a b s s') : AlikeResults a b (finishTransfer s) (finishTransfer s') := by
  unfold finishTransfer
  rw [h.same (·.complete_cb) fun _ _ => rfl]
  split
  · next cb _ =>
    exact withRequest_alike h fun req => .next (h.map
      (fun u => { { u with complete_cb := none }.call (.completeCb cb req) with control_state := .idle })
      fun _ _ => rfl)
  · exact .next (h.map (fun u => { u with complete_cb := s.complete_cb, control_state := .idle }) fun _ _ => rfl)

theorem complete_alike (h : Alike a b s s') : AlikeResults a b (complete s) (complete s') :=
  finishTransfer_alike (applyPendingAddress_alike h)

/-! #### Results and the built-in handler -/

theorem resultAck_alike (h : Alike a b s s') (stage : Stage) :
    AlikeResults a b (resultAck stage s) (resultAck stage s') := by
  cases stage with
  | noData => exact enterStatusIn_alike h
  | outData => exact enterStatusIn_alike h
  | inData w => exact sendChunk_alike (h.map (fun s => dataInBegun w s.resp s) fun _ _ => rfl)

theorem finish_alike (h : Alike a b s s') (stage : Stage) (res : Res) {p p' : Response} (hp : p' = p) :
    AlikeResults a b (finish stage res p s) (finish stage res p' s') := by
  subst hp
  cases res with
  | ack => exact resultAck_alike (h.map (fun s => { s with resp := p' }) fun _ _ => rfl) stage
  | nak => exact .next h
  | fail => exact stall_alike h _

theorem unserved_alike (h : Alike a b s s') (r : Request) : AlikeResults a b (unserved r s) (unserved r s') :=
  finish_alike h _ _ rfl

theorem served_alike (h : Alike a b s s') (r : Request) : AlikeResults a b (served r s) (served r s') :=
  finish_alike (h.map (fun s => { s with draws := s.draws + 1 }) fun _ _ => rfl) _ _
    (h.same State.emptyResponse fun _ _ => rfl)

theorem recognised_alike (h : Alike a b s s') (r : Request) {k k' : Result} (hk : AlikeResults a b k k') :
    AlikeResults a b (recognised r s k) (recognised r s' k') := by
  unfold recognised
  split
  · exact hk
  · exact unserved_alike h r

/-- R141: a response is stored at the same place and sent from there. -/
theorem storedResponse_alike (h : Alike a b s s') (r : Request) {bs bs' : List Byte} (hbs : bs' = bs)
    (len : BitVec 16) :
    AlikeResults a b
      (writeMem (s.data_buf + 8) bs s fun u =>
        finish (stageOf r) .ack { ptr := s.data_buf + 8, len := len } u)
      (writeMem (s'.data_buf + 8) bs' s' fun u =>
        finish (stageOf r) .ack { ptr := s'.data_buf + 8, len := len } u) := by
  rw [h.same (·.data_buf) fun _ _ => rfl]
  exact writeMem_alike h rfl hbs fun _ _ hu => finish_alike hu _ _ rfl

theorem respondStatus_alike (h : Alike a b s s') (r : Request) {w w' : BitVec 16} (hw : w' = w) :
    AlikeResults a b (respondStatus r w s) (respondStatus r w' s') := by
  unfold respondStatus
  rw [h.same (·.data_maxsize) fun _ _ => rfl]
  split
  · exact unserved_alike h r
  · exact storedResponse_alike h r (congrArg statusBytes hw) 2

theorem execStdGetStatus_alike (h : Alike a b s s') (r : Request) :
    AlikeResults a b (execStdGetStatus r s) (execStdGetStatus r s') := by
  refine recognised_alike h r ?_
  rw [h.same (·.params) fun _ _ => rfl]
  split
  · exact respondStatus_alike h r rfl
  · next ep _ =>
    exact respondStatus_alike (h.map (isStalledCall ep) fun _ _ => rfl) r
      (h.same (fun s => if s.answers.stalled then (1 : BitVec 16) else 0) fun _ _ => rfl)
  · exact unserved_alike h r

theorem setHalt_alike (h : Alike a b s s') (halted : Bool) (r : Request) :
    AlikeResults a b (setHalt halted r s) (setHalt halted r s') := by
  unfold setHalt
  split
  · exact served_alike (h.map (epSetStall (endpointOf r) halted) fun _ _ => rfl) r
  · exact unserved_alike h r

theorem execStdSetAddress_alike (h : Alike a b s s') (r : Request) :
    AlikeResults a b (execStdSetAddress r s) (execStdSetAddress r s') :=
  recognised_alike h r (served_alike
    (h.map (fun s => { s with pend_addr := addressOf r, pend_addr_v := true }) fun _ _ => rfl) r)

theorem execStdGetDescriptor_alike (h : Alike a b s s') (r : Request) :
    AlikeResults a b (execStdGetDescriptor r s) (execStdGetDescriptor r s') := by
  refine recognised_alike h r ?_
  rw [h.same (·.dsc_cb) fun _ _ => rfl, h.same (·.answers) fun _ _ => rfl]
  split
  · next cb _ =>
    exact finish_alike (h.map (dscCallback cb r) fun _ _ => rfl) _ _ (h.same State.dscResponse fun _ _ => rfl)
  · exact unserved_alike h r

theorem execStdGetConfiguration_alike (h : Alike a b s s') (r : Request) :
    AlikeResults a b (execStdGetConfiguration r s) (execStdGetConfiguration r s') := by
  refine recognised_alike h r ?_
  rw [h.same (·.data_maxsize) fun _ _ => rfl]
  split
  · exact unserved_alike h r
  · exact storedResponse_alike h r (h.same (fun s => [s.device_cfg]) fun _ _ => rfl) 1

/-- R139: the device state a configuration leads to is written without looking at the old one. -/
theorem execStdSetConfiguration_alike (h : Alike a b s s') (r : Request) :
    AlikeResults a b (execStdSetConfiguration r s) (execStdSetConfiguration r s') := by
  refine recognised_alike h r ?_
  have happlied (cb : Nat) := h.overwrite (fun s => { cfgCallback cb (configOf r) s with
    device_cfg := configOf r, device_state := stateForConfig (configOf r) }) fun _ _ => rfl
  have hasked (cb : Nat) := h.map (cfgCallback cb (configOf r)) fun _ _ => rfl
  rw [h.same (·.cfg_cb) fun _ _ => rfl, h.same (·.answers) fun _ _ => rfl]
  split
  · next cb _ =>
    split
    · exact served_alike (happlied cb) r
    · exact unserved_alike (hasked cb) r
    · exact unserved_alike (hasked cb) r
  · exact unserved_alike h r

/-- R132: every case of the built-in handler. -/
theorem stdRequest_alike (h : Alike a b s s') (r : Request) : AlikeResults a b (stdRequest r s) (stdRequest r s') := by
  unfold stdRequest
  split
  · exact execStdGetStatus_alike h r
  · exact setHalt_alike h _ r
  · exact unserved_alike h r
  · exact setHalt_alike h _ r
  · exact unserved_alike h r
  · exact execStdSetAddress_alike h r
  · exact execStdGetDescriptor_alike h r
  · exact unserved_alike h r
  · exact execStdGetConfiguration_alike h r
  · exact execStdSetConfiguration_alike h r
  all_goals exact unserved_alike h r

/-! #### The stages of a transfer -/

theorem ctlCallback_alike (h : Alike a b s s') (cb : Nat) (r : Request) (payload : List Byte) :
    Alike a b (ctlCallback cb r payload s) (ctlCallback cb r payload s') :=
  h.map (ctlCallback cb r payload) fun _ _ => rfl

theorem processRequest_alike (h : Alike a b s s') (stage : Stage) (r : Request) :
    AlikeResults a b (processRequest stage r s) (processRequest stage r s') := by
  have hresp := h.same State.ctlResponse fun _ _ => rfl
  unfold processRequest
  rw [h.same (·.ctl_cb) fun _ _ => rfl, h.same (·.answers) fun _ _ => rfl]
  split
  · next cb _ =>
    have hasked := ctlCallback_alike h cb r []
    split
    · exact finish_alike hasked _ _ hresp
    · exact finish_alike hasked _ _ hresp
    · exact stdRequest_alike hasked r
  · exact stdRequest_alike h r

theorem startCursor_alike (h : Alike a b s s') (r : Request) : Alike a b (startCursor r s) (startCursor r s') :=
  h.map (startCursor r) fun _ _ => rfl

theorem execSetupOut_alike (h : Alike a b s s') (r : Request) :
    AlikeResults a b (execSetupOut r s) (execSetupOut r s') := by
  have hbegun := startCursor_alike h r
  unfold execSetupOut
  rw [h.same (outOverflow · r) fun _ _ => rfl]
  split
  · exact stall_alike hbegun _
  · exact .next (hbegun.map (fun s => { s with control_state := .rxdata }) fun _ _ => rfl)

theorem setupBranch_alike (h : Alike a b s s') (r : Request) :
    AlikeResults a b (setupBranch r s) (setupBranch r s') := by
  unfold setupBranch
  split
  · exact processRequest_alike (startCursor_alike h r) _ r
  split
  · exact processRequest_alike (startCursor_alike h r) _ r
  · exact execSetupOut_alike h r

theorem arrives_alike (h : Alike a b s s') (k : EventKind) : Alike a b (s.arrives k) (s'.arrives k) :=
  h.map (·.arrives k) fun _ _ => rfl

theorem setupStage_alike (h : Alike a b s s') : AlikeResults a b (setupStage s) (setupStage s') := by
  unfold setupStage readSetup
  refine epRead_alike (h.map restart fun _ _ => rfl) (h.same (·.data_buf) fun _ _ => rfl) rfl fun u u' hu => ?_
  split
  · exact stall_alike hu _
  · exact withRequest_alike hu fun req => setupBranch_alike hu req

theorem payloadResult_alike (h : Alike a b s s') (cb : Nat) (r : Request) (payload : List Byte) :
    AlikeResults a b (payloadResult cb r payload s) (payloadResult cb r payload s') := by
  have hasked := ctlCallback_alike h cb r payload
  unfold payloadResult
  rw [h.same (·.answers) fun _ _ => rfl]
  split
  · exact resultAck_alike hasked _
  · exact .next hasked
  · exact stall_alike hasked _

theorem rxComplete_alike (h : Alike a b s s') : AlikeResults a b (rxComplete s) (rxComplete s') := by
  refine withRequest_alike h fun req => ?_
  refine readMem_alike h (h.same (·.data_buf + 8) fun _ _ => rfl) rfl fun payload => ?_
  rw [h.same (·.ctl_cb) fun _ _ => rfl]
  split
  · exact payloadResult_alike h _ req payload
  · exact stall_alike h _

theorem accumulate_alike (h : Alike a b s s') (n : Nat) : AlikeResults a b (accumulate n s) (accumulate n s') := by
  have hadvanced := h.map (advanced n) fun _ _ => rfl
  have hcount := h.same (·.data_count.toNat - n ≠ 0) fun _ _ => rfl
  unfold accumulate
  by_cases hne : s.data_count.toNat - n ≠ 0
  · rw [if_pos hne, if_pos (hcount ▸ hne)]
    exact .next hadvanced
  · rw [if_neg hne, if_neg (hcount ▸ hne)]
    exact rxComplete_alike hadvanced

theorem dataOut_alike (h : Alike a b s s') : AlikeResults a b (dataOut s) (dataOut s') := by
  have hlen := h.same State.chunkLen fun _ _ => rfl
  refine epRead_alike h (h.same (·.data_ptr) fun _ _ => rfl) hlen fun u u' hu => ?_
  rw [hlen]
  split
  · exact stall_alike hu _
  · exact accumulate_alike hu _

theorem statusOutDone_alike (h : Alike a b s s') : AlikeResults a b (statusOutDone s) (statusOutDone s') := by
  refine epRead_alike h (h.same (·.data_ptr) fun _ _ => rfl) rfl fun u u' hu => ?_
  split
  · exact stall_alike hu _
  · exact complete_alike hu

/-! #### The engine, the dispatcher and the instructions -/

theorem engineEpsetup_alike (h : Alike a b s s') : AlikeResults a b (engineEpsetup s) (engineEpsetup s') := by
  have hsetup := setupStage_alike (arrives_alike h .epsetup)
  unfold engineEpsetup
  rw [h.same (·.control_state) fun _ _ => rfl]
  cases s.control_state <;> exact hsetup

theorem engineEprx_alike (h : Alike a b s s') : AlikeResults a b (engineEprx s) (engineEprx s') := by
  have ha := arrives_alike h .eprx
  unfold engineEprx
  rw [h.same (·.control_state) fun _ _ => rfl]
  cases s.control_state with
  | rxdata => exact dataOut_alike ha
  | statusout => exact statusOutDone_alike ha
  | idle | txdata | ztxdata | lastdata | statusin => exact stall_alike ha _

theorem engineEptx_alike (h : Alike a b s s') : AlikeResults a b (engineEptx s) (engineEptx s') := by
  have ha := arrives_alike h .eptx
  unfold engineEptx
  rw [h.same (·.control_state) fun _ _ => rfl]
  cases s.control_state with
  | txdata => exact sendChunk_alike ha
  | ztxdata => exact sendZlp_alike ha
  | lastdata => exact lastDataDone_alike ha
  | statusin => exact complete_alike ha
  | idle | rxdata | statusout => exact stall_alike ha _

theorem call_alike (h : Alike a b s s') (c : Call) : AlikeResults a b (.next (s.call c)) (.next (s'.call c)) :=
  .next (h.map (·.call c) fun _ _ => rfl)

theorem route_alike (h : Alike a b s s') (k : EventKind) (e : State → Result) (ep : Byte)
    (hengine : AlikeResults a b (e s) (e s')) : AlikeResults a b (route k e ep s) (route k e ep s') := by
  unfold route
  rw [h.same (·.epSlot (epNumber ep)) fun _ _ => rfl]
  split
  · exact hengine
  · exact call_alike h _
  · exact .next (h.map (epSetStall ep true) fun _ _ => rfl)

theorem eventCallback_alike (h : Alike a b s s') (k : EventKind) (ep : Byte) :
    AlikeResults a b (.next (eventCallback k ep s)) (.next (eventCallback k ep s')) := by
  unfold eventCallback
  rw [h.same (·.evtSlot k) fun _ _ => by cases k <;> rfl]
  split
  · exact call_alike h _
  · exact .next h

theorem withStage_alike (h : Alike a b s s') {k k' : Stage → Result}
    (hk : ∀ stage, AlikeResults a b (k stage) (k' stage)) : AlikeResults a b (withStage s k) (withStage s' k') := by
  unfold withStage
  rw [h.same (·.control_state) fun _ _ => rfl]
  split
  · exact hk _
  all_goals exact withRequest_alike h fun r => hk (stageOf r)

/-- R162: no instruction looks at the device state. -/
theorem exec_alike (h : Alike a b s s') (i : Instr) : AlikeResults a b (exec i s) (exec i s') := by
  have hsetup := setupStage_alike (arrives_alike h .epsetup)
  have hrx := arrives_alike h .eprx
  have htx := arrives_alike h .eptx
  have hreset : Alike a b (resetStatus s) (resetStatus s') := h.overwrite resetStatus fun _ _ => rfl
  cases i with
  | evtReset ep => exact eventCallback_alike hreset _ ep
  | evtSof ep => exact eventCallback_alike h _ ep
  | evtSuspend ep => exact eventCallback_alike h _ ep
  | evtWakeup ep => exact eventCallback_alike h _ ep
  | evtError ep => exact eventCallback_alike h _ ep
  | evtEsof ep => exact eventCallback_alike h _ ep
  | evtEptx ep => exact route_alike h _ _ ep (engineEptx_alike h)
  | evtEprx ep => exact route_alike h _ _ ep (engineEprx_alike h)
  | evtEpsetup ep => exact route_alike h _ _ ep (engineEpsetup_alike h)
  | cmdEnable =>
    exact .next (h.overwrite (fun s => { habEnable true s with device_state := .disconnected }) fun _ _ => rfl)
  | cmdDisable =>
    exact .next (h.overwrite (fun s => { habEnable false s with device_state := .disabled }) fun _ _ => rfl)
  | cmdConnect => exact .next (h.map (habConnect true) fun _ _ => rfl)
  | cmdDisconnect => exact .next (h.map (habConnect false) fun _ _ => rfl)
  | cmdReset => exact .next hreset
  | resFail => exact stall_alike h _
  | resAck => exact withStage_alike h fun stage => resultAck_alike h stage
  | resNak => exact .next h
  | setupNodata r => exact processRequest_alike (startCursor_alike h r) _ r
  | setupIn r => exact processRequest_alike (startCursor_alike h r) _ r
  | setupOut r => exact execSetupOut_alike h r
  | stdGetStatus r => exact execStdGetStatus_alike h r
  | stdClearFeature r => exact setHalt_alike h _ r
  | stdSetFeature r => exact setHalt_alike h _ r
  | stdSetAddress r => exact execStdSetAddress_alike h r
  | stdGetDescriptor r => exact execStdGetDescriptor_alike h r
  | stdGetConfiguration r => exact execStdGetConfiguration_alike h r
  | stdSetConfiguration r => exact execStdSetConfiguration_alike h r
  | stdReserved2 r | stdReserved4 r | stdSetDescriptor r | stdGetInterface r | stdSetInterface r | stdSynchFrame r
  | stdOther r | nonstdClass r | nonstdVendor r | nonstdTypeReserved r => exact unserved_alike h r
  | ep0IdleEpsetup | ep0RxdataEpsetup | ep0TxdataEpsetup | ep0ZtxdataEpsetup | ep0LastdataEpsetup
  | ep0StatusinEpsetup | ep0StatusoutEpsetup => exact hsetup
  | ep0RxdataEprx => exact dataOut_alike hrx
  | ep0StatusoutEprx => exact statusOutDone_alike hrx
  | ep0IdleEprx | ep0TxdataEprx | ep0ZtxdataEprx | ep0LastdataEprx | ep0StatusinEprx => exact stall_alike hrx _
  | ep0TxdataEptx => exact sendChunk_alike htx
  | ep0ZtxdataEptx => exact sendZlp_alike htx
  | ep0LastdataEptx => exact lastDataDone_alike htx
  | ep0StatusinEptx => exact complete_alike htx
  | ep0IdleEptx | ep0RxdataEptx | ep0StatusoutEptx => exact stall_alike htx _

/-- Results that are alike, taken apart. -/
theorem AlikeResults.cases {x y : Result} (h : AlikeResults a b x y) :
    (∀ t, x = .next t → ∃ e, y = .next (t.inDevice e) ∧ (e = t.device_state ∨ t.device_state = a ∧ e = b)) ∧
      (∀ f, x = .fault f → y = .fault f) ∧ ∀ f, x ≠ .refused f := by
  cases h with
  | @next u u' h =>
    refine ⟨fun t ht => ?_, nofun, nofun⟩
    obtain rfl := Host.Outcome.next.inj ht
    exact ⟨u'.device_state, congrArg Host.Outcome.next h.frame, h.moved⟩
  | fault f =>
    refine ⟨fun t ht => (by cases ht), fun g hg => ?_, nofun⟩
    obtain rfl := Host.Outcome.fault.inj hg
    rfl

end

/-- Settles O50: from `s` and from `s` in the device state `d` the results are alike (`exec_alike`), and no refusal is
like another result. -/
theorem deviceStateGatesNothing : Obligations.DeviceStateGatesNothing := by
  intro s d i
  have h : Alike s.device_state d s (s.inDevice d) := ⟨rfl, .inr ⟨rfl, rfl⟩⟩
  exact (exec_alike h i).cases

end Sys2Proof.Machine

namespace Sys2Proof.Machine

/-! ### GET_STATUS (R133, R141) -/

/-- R7, R133: a pair of GET_STATUS_WORD's table has the table's word. -/
theorem statusSource_of_lookup {p : Params} {r : Request} {w : BitVec 16}
    (h : p.getStatusWord.lookup (r.recipient, r.wIndex) = some w) : statusSource p r = .word w := by
  unfold statusSource
  rw [h]

/-- R133: by default the word of the device and of an interface is zero. -/
theorem statusSource_zero {p : Params} {r : Request} (h : p.getStatusWord.lookup (r.recipient, r.wIndex) = none)
    (hr : r.recipient = 0 ∨ r.recipient = 1) : statusSource p r = .word 0 := by
  unfold statusSource
  rw [h]
  obtain hr | hr := hr <;> rw [hr] <;> rfl

/-- R133: by default the word of an endpoint is its halt bit. -/
theorem statusSource_halt {p : Params} {r : Request} (h : p.getStatusWord.lookup (r.recipient, r.wIndex) = none)
    (hr : r.recipient = 2) : statusSource p r = .halt (endpointOf r) := by
  unfold statusSource
  rw [h, hr]
  rfl

/-- R76, R133: to a recipient it knows the handler answers with what its source says. -/
theorem execStdGetStatus_of_word {s : State} {r : Request} {w : BitVec 16} (hr : r.recipient.toNat < 4)
    (h : statusSource s.params r = .word w) : execStdGetStatus r s = respondStatus r w s := by
  unfold execStdGetStatus
  rw [recognised_eq hr, h]

/-- R76, R133: for the halt bit the handler asks `ep_is_stalled` first. -/
theorem execStdGetStatus_of_halt {s : State} {r : Request} {ep : Byte} (hr : r.recipient.toNat < 4)
    (h : statusSource s.params r = .halt ep) :
    execStdGetStatus r s = respondStatus r (if s.answers.stalled then 1 else 0) (isStalledCall ep s) := by
  unfold execStdGetStatus
  rw [recognised_eq hr, h]

/-- R141: a status word for which there is no room fails. -/
theorem respondStatus_no_room {s : State} (h : s.data_maxsize.toNat < 2) (r : Request) (w : BitVec 16) :
    respondStatus r w s = .next (stalledState .requestFailed s) := by
  unfold respondStatus
  rw [if_pos h, unserved_eq]

/-- R133, R141: a status word for which there is room is stored in the payload area and sent from there. -/
theorem respondStatus_room {s : State} (h : 2 ≤ s.data_maxsize.toNat) (hm : s.data_buf + 10 ≤ 2 ^ s.params.ptrW)
    (r : Request) (w : BitVec 16) :
    respondStatus r w s = .next (accepted r ⟨s.data_buf + 8, 2⟩
      { s with mem := s.mem.writeBytes (s.data_buf + 8) (statusBytes w) }) := by
  have hlies : s.inMemory (s.data_buf + 8) (statusBytes w).length = true := inMemory_of_le hm
  unfold respondStatus
  rw [if_neg (Nat.not_lt.2 h), writeMem_eq hlies]
  refine finish_ack fun _ _ => ?_
  have hlen : (2 : BitVec 16).toNat = 2 := rfl
  unfold firstChunkFits
  simp only [hlen]
  omega

/-- Settles O34: each source of the word runs `respondStatus`, in the state itself or after `ep_is_stalled`. -/
theorem getStatusAnswersTheStatusWord : Obligations.GetStatusAnswersTheStatusWord := by
  intro s u r w hr hsource
  obtain ⟨hrun, hu⟩ : exec (.stdGetStatus r) s = respondStatus r w u ∧
      (u = s ∨ u = isStalledCall (endpointOf r) s) := by
    obtain ⟨htable, rfl⟩ | ⟨hnone, ⟨hrec, rfl, rfl⟩ | ⟨hrec, rfl, rfl⟩⟩ := hsource
    · exact ⟨execStdGetStatus_of_word hr (statusSource_of_lookup htable), .inl rfl⟩
    · exact ⟨execStdGetStatus_of_word hr (statusSource_zero hnone hrec), .inl rfl⟩
    · exact ⟨execStdGetStatus_of_halt hr (statusSource_halt hnone hrec), .inr rfl⟩
  rw [hrun]
  obtain rfl | rfl := hu
  · exact ⟨fun h => respondStatus_no_room h r w, fun h hm => respondStatus_room h hm r w⟩
  · exact ⟨fun h => respondStatus_no_room (s := isStalledCall _ s) h r w,
      fun h hm => respondStatus_room (s := isStalledCall _ s) h hm r w⟩

/-! ### A data packet that leaves more to come (R110, R112) -/

/-- R110, R111: a data read whose result is a number of bytes, at most those asked, is good. -/
theorem badDataOut_of_le {r : BitVec 32} {n len : Nat} (hr : r.toInt = n) (hn : n ≤ len) :
    badDataOut r len = false := by
  simp only [badDataOut, rxResult, hr, Bool.or_eq_false_iff, decide_eq_false_iff_not]
  omega

/-- R45: a read whose result is at most what was asked writes as many bytes as its result says. -/
theorem rxBytes_of_le {a : RxAnswer} {n len : Nat} (hr : a.result.toInt = n) (hn : n ≤ len) :
    rxBytes a len = firstBytes a.bytes n := by
  have hcount : rxCount a len = n := by
    rw [rxCount, rxResult, hr, if_neg (by omega), Int.toNat_natCast, Nat.min_eq_right hn]
  rw [rxBytes, hcount]

/-- R112: while bytes are still to come the step ends once the received ones are accounted for. -/
theorem accumulate_eq {n : Nat} {s : State} (h : s.data_count.toNat - n ≠ 0) :
    accumulate n s = .next (advanced n s) := if_pos h

/-- R110, R112: a good data packet that leaves more to come is read and accounted for. -/
theorem dataOut_gathered {s : State} {n : Nat} (hm : s.data_ptr + s.chunkLen ≤ 2 ^ s.params.ptrW)
    (hr : s.answers.rx.result.toInt = n) (hn : n ≤ s.chunkLen) (hne : n ≠ s.data_count.toNat) :
    dataOut (s.arrives .eprx) = .next (gathered n s) := by
  have hle : s.chunkLen ≤ s.data_count.toNat := Nat.min_le_left _ _
  have hlies : (s.arrives .eprx).inMemory s.data_ptr s.chunkLen = true := inMemory_of_le hm
  have hgood : badDataOut s.answers.rx.result s.chunkLen = false := badDataOut_of_le hr hn
  have hcount : (rxResult s.answers.rx.result).toNat = n := by rw [rxResult, hr, Int.toNat_natCast]
  refine (epRead_eq hlies _).trans ?_
  show (if badDataOut s.answers.rx.result s.chunkLen then _ else
    accumulate (rxResult s.answers.rx.result).toNat (dataRead s)) = _
  rw [hgood, hcount]
  exact accumulate_eq (s := dataRead s) (show s.data_count.toNat - n ≠ 0 by omega)

/-- R112: the cursor is advanced and the count reduced in the state in which the packet has been read. -/
theorem gathered_eq {s : State} {n : Nat} (hn : n ≤ s.data_count.toNat) :
    gathered n s = { packetRead s.data_ptr s.chunkLen s with
      data_ptr := s.data_ptr + n, data_count := BitVec.ofNat 16 (s.data_count.toNat - n) } := by
  rw [← count_sub _ _ hn]
  rfl

/-- Settles O25: the step ends in `gathered n s`, whose memory is that of `s` with the `n` bytes written at the
cursor. -/
theorem anOutPacketIsAccumulated : Obligations.AnOutPacketIsAccumulated := by
  intro s n hwf hm hr hn hne
  have hle : s.chunkLen ≤ s.data_count.toNat := Nat.min_le_left _ _
  have hrun : exec .ep0RxdataEprx s = .next (gathered n s) := dataOut_gathered hm hr hn hne
  have hmem : (gathered n s).mem = s.mem.writeBytes s.data_ptr (firstBytes s.answers.rx.bytes n) :=
    congrArg (s.mem.writeBytes s.data_ptr) (rxBytes_of_le hr hn)
  have hlen : (firstBytes s.answers.rx.bytes n).length = n := length_firstBytes _ _
  refine ⟨hrun.trans (congrArg _ (gathered_eq (le_trans hn hle))), fun t ht => ?_⟩
  rw [hrun] at ht
  obtain rfl := Host.Outcome.next.inj ht
  rw [hmem]
  refine ⟨?_, fun a ha => Memory.read_writeBytes_outside hwf (by rwa [hlen])⟩
  have hread := Memory.readBytes_writeBytes s.data_ptr (firstBytes s.answers.rx.bytes n) hwf
  rwa [hlen] at hread

/-! ### The canonical form determines memory (R41) -/

/-- The first entry of a canonical memory is missed by a memory whose addresses are all higher. -/
theorem Memory.read_head_ne {c : Host.Cell} {m m' : Memory} (hm : Memory.wf (c :: m)) (h : ∀ d ∈ m', c.1 < d.1) :
    Memory.read m' c.1 ≠ Memory.read (c :: m) c.1 := by
  obtain ⟨-, hne, -⟩ := Memory.wf_cons hm
  rw [Memory.read_below h, Memory.read, if_pos rfl]
  exact hne.symm

/-- Behind the first entry of a canonical memory every other address reads as before. -/
theorem Memory.read_tail {c : Host.Cell} {m : Memory} (hm : Memory.wf (c :: m)) (a : Nat) :
    Memory.read m a = if a = c.1 then Memory.unlisted else Memory.read (c :: m) a := by
  obtain ⟨hlt, -, -⟩ := Memory.wf_cons hm
  split
  · next h => exact Memory.read_below (h ▸ hlt)
  · next h =>
    rw [Memory.read, if_neg h]
    split
    · next ha => exact Memory.read_below fun d hd => ha.trans (hlt d hd)
    · rfl

/-- R41: two memories in canonical form that read alike everywhere are the same. -/
theorem Memory.eq_of_read_eq {m m' : Memory} (hm : m.wf) (hm' : m'.wf) (h : ∀ a, m'.read a = m.read a) : m' = m := by
  induction m generalizing m' with
  | nil =>
    cases m' with
    | nil => rfl
    | cons d m' => exact absurd (h d.1).symm (Memory.read_head_ne hm' nofun)
  | cons c m ih =>
    cases m' with
    | nil => exact absurd (h c.1) (Memory.read_head_ne hm nofun)
    | cons d m' =>
      obtain ⟨hlt, -, htail⟩ := Memory.wf_cons hm
      obtain ⟨hlt', -, htail'⟩ := Memory.wf_cons hm'
      have hcd : ¬c.1 < d.1 := fun hl =>
        Memory.read_head_ne hm (List.forall_mem_cons.2 ⟨hl, fun e he => hl.trans (hlt' e he)⟩) (h c.1)
      have hdc : ¬d.1 < c.1 := fun hl =>
        Memory.read_head_ne hm' (List.forall_mem_cons.2 ⟨hl, fun e he => hl.trans (hlt e he)⟩) (h d.1).symm
      have haddr : d.1 = c.1 := Nat.le_antisymm (Nat.not_lt.1 hcd) (Nat.not_lt.1 hdc)
      have hbyte : d.2 = c.2 := by simpa [Memory.read, haddr] using h c.1
      have hrest : m' = m := ih htail htail' fun a => by
        rw [Memory.read_tail hm', Memory.read_tail hm, haddr, h a]
      rw [hrest, Prod.ext haddr hbyte]

/-! ### The frame of memory (R58) -/

/-- From the memory `m` to the memory `m'` the canonical form is kept and only bytes at addresses in `w` are written. -/
def Memory.Writes (w : Nat → Prop) (m m' : Memory) : Prop :=
  m.wf → m'.wf ∧ ∀ a, ¬w a → m'.read a = m.read a

theorem Memory.Writes.refl {w : Nat → Prop} (m : Memory) : Memory.Writes w m m := fun hm => ⟨hm, fun _ _ => rfl⟩

theorem Memory.Writes.trans {w : Nat → Prop} {m m' m'' : Memory} (h : Memory.Writes w m m')
    (h' : Memory.Writes w m' m'') : Memory.Writes w m m'' := by
  intro hm
  obtain ⟨hm', hread⟩ := h hm
  obtain ⟨hm'', hread'⟩ := h' hm'
  exact ⟨hm'', fun a ha => (hread' a ha).trans (hread a ha)⟩

theorem Memory.Writes.mono {w w' : Nat → Prop} {m m' : Memory} (h : Memory.Writes w m m') (hw : ∀ a, w a → w' a) :
    Memory.Writes w' m m' :=
  fun hm => (h hm).imp_right fun hread a ha => hread a fun hwa => ha (hw a hwa)

/-- Where there is no address to write, memory is unchanged. -/
theorem Memory.Writes.eq_of_none {w : Nat → Prop} {m m' : Memory} (h : Memory.Writes w m m') (hm : m.wf)
    (hw : ∀ a, ¬w a) : m' = m :=
  Memory.eq_of_read_eq hm (h hm).1 fun a => (h hm).2 a (hw a)

/-- A run of bytes written. -/
theorem Memory.writes_writeBytes (m : Memory) {a n : Nat} {bs : List Byte} (hn : bs.length ≤ n) :
    Memory.Writes (fun b => a ≤ b ∧ b < a + n) m (m.writeBytes a bs) :=
  fun hm => ⟨Memory.wf_writeBytes a bs hm, fun _ hb => Memory.read_writeBytes_outside hm (by omega)⟩

/-- R58 (c): the address `a` lies in the payload area. -/
def inPayload (s : State) (a : Nat) : Prop := s.data_buf + 8 ≤ a ∧ a < s.data_buf + 8 + s.data_maxsize.toNat

/-- R98: the address `a` lies in the header of the control buffer. -/
def inHeader (s : State) (a : Nat) : Prop := s.data_buf ≤ a ∧ a < s.data_buf + 8

/-- R110: the address `a` is one of those a data packet is read to. -/
def inChunk (s : State) (a : Nat) : Prop := s.data_ptr ≤ a ∧ a < s.data_ptr + s.chunkLen

/-! #### What the operations write -/

/-- R45: a packet is read to at most as many bytes as were asked. -/
theorem packetRead_writes (buf len : Nat) (s : State) :
    Memory.Writes (fun a => buf ≤ a ∧ a < buf + len) s.mem (packetRead buf len s).mem :=
  Memory.writes_writeBytes s.mem (by rw [rxBytes, length_firstBytes]; exact rxCount_le _ _)

theorem setupRead_writes (s : State) : Memory.Writes (inHeader s) s.mem (setupRead s).mem :=
  packetRead_writes s.data_buf 8 { s with
    hab := s.hab.onEvent .epsetup
    control_state := .idle, complete_cb := none, pend_addr_v := false, tx_short := false }

theorem dataRead_writes (s : State) : Memory.Writes (inChunk s) s.mem (dataRead s).mem :=
  packetRead_writes s.data_ptr s.chunkLen (s.arrives .eprx)

theorem ctlCallback_writes (cb : Nat) (r : Request) (payload : List Byte) (s : State) :
    Memory.Writes (inPayload s) s.mem (ctlCallback cb r payload s).mem :=
  fun hm => ⟨(base_ctl cb r payload s).mem_wf hm,
    fun a ha => ctlCallback_read_outside hm cb r payload (by unfold inPayload at ha; omega)⟩

/-- R141: bytes for which there is room, stored at the start of the payload area. -/
theorem payloadWritten_writes {s : State} {bs : List Byte} (h : bs.length ≤ s.data_maxsize.toNat) :
    Memory.Writes (inPayload s) s.mem (s.mem.writeBytes (s.data_buf + 8) bs) :=
  Memory.writes_writeBytes s.mem h

/-- R126: reading the status packet stores nothing. -/
@[simp] theorem statusRead_mem (s : State) : (statusRead s).mem = s.mem :=
  packetRead_zero_mem s.data_ptr (s.arrives .eprx)

/-- R101, R104: accepting a request stores nothing. -/
@[simp] theorem accepted_mem (r : Request) (p : Response) (s : State) : (accepted r p s).mem = s.mem := by
  unfold accepted
  split <;> rfl

/-- R101 to R106: a result stores nothing. -/
theorem finish_mem {stage : Stage} {res : Res} {p : Response} {u t : State} (h : finish stage res p u = .next t) :
    t.mem = u.mem := by
  have hq (h : enterStatusIn { u with resp := p } = .next t) : t.mem = u.mem := by
    rw [enterStatusIn_eq] at h
    obtain rfl := Host.Outcome.next.inj h
    rfl
  cases res with
  | ack =>
    cases stage with
    | noData => exact hq h
    | outData => exact hq h
    | inData w =>
      obtain ⟨-, rfl⟩ := beginDataIn_next h
      rfl
  | nak =>
    obtain rfl := Host.Outcome.next.inj h
    rfl
  | fail =>
    rw [finish_fail] at h
    obtain rfl := Host.Outcome.next.inj h
    rfl

/-! #### What the stages of a request write -/

/-- R141: of the handler's cases only GET_STATUS and GET_CONFIGURATION store their answer, in the payload area. -/
theorem handled_writes {row : Nat → Prop} {r : Request} {s u : State} {res : Res} {p : Response}
    (h : Handled row r s res p u) :
    Memory.Writes (fun a => (row 0 ∨ row 8) ∧ inPayload s a) s.mem u.mem := by
  cases h with
  | status _ w _ room _ hrow =>
    exact (payloadWritten_writes (bs := statusBytes w) room).mono fun _ ha => ⟨.inl hrow, ha⟩
  | current room _ hrow =>
    exact (payloadWritten_writes (bs := [s.device_cfg]) room).mono fun _ ha => ⟨.inr hrow, ha⟩
  | _ => exact .refl _

theorem served_writes {row : Nat → Prop} {r : Request} {s t : State} (h : Served row r s t) :
    Memory.Writes (fun a => (row 0 ∨ row 8) ∧ inPayload s a) s.mem t.mem := by
  obtain ⟨res, p, u, hu, hf⟩ := h
  rw [finish_mem hf]
  exact handled_writes hu

/-- R100, R141: the request `r` asks the control callback, or for an answer that is built. -/
def storesAnswer (r : Request) (s : State) : Prop :=
  s.ctl_cb ≠ none ∨ r.typ = 0 ∧ (r.bRequest = 0 ∨ r.bRequest = 8)

theorem storesAnswer_of_stdRow {r : Request} {s : State} (h : StdRow r 0 ∨ StdRow r 8) : storesAnswer r s := by
  obtain ⟨ht, hb⟩ | ⟨ht, hb⟩ := h
  · exact .inr ⟨ht, .inl hb⟩
  · exact .inr ⟨ht, .inr hb⟩

/-- R100: a request stores in the payload area only. -/
theorem processRequest_writes {stage : Stage} {r : Request} {s t : State} (h : processRequest stage r s = .next t) :
    Memory.Writes (fun a => storesAnswer r s ∧ inPayload s a) s.mem t.mem := by
  unfold processRequest at h
  split at h
  · next cb hcb =>
    have hstores : storesAnswer r s := .inl (by simp [hcb])
    have hctl : Memory.Writes (fun a => storesAnswer r s ∧ inPayload s a) s.mem (ctlCallback cb r [] s).mem :=
      (ctlCallback_writes cb r [] s).mono fun _ ha => ⟨hstores, ha⟩
    split at h
    · rwa [finish_mem h]
    · rwa [finish_mem h]
    · exact hctl.trans ((served_writes (stdRequest_served h)).mono fun _ ha => ⟨hstores, ha.2⟩)
  · exact (served_writes (stdRequest_served h)).mono fun _ ha => ha.imp_left storesAnswer_of_stdRow

theorem processed_writes {r : Request} {s u : State} {res : Res} {p : Response} (h : Processed r s res p u) :
    Memory.Writes (inPayload s) s.mem u.mem := by
  cases h with
  | control cb => exact ctlCallback_writes cb r [] s
  | fallback cb _ _ _ _ hh => exact (ctlCallback_writes cb r [] s).trans ((handled_writes hh).mono fun _ ha => ha.2)
  | builtin _ _ _ hh => exact (handled_writes hh).mono fun _ ha => ha.2

/-! #### What an instruction writes -/

/-- R58: the addresses the instruction `i` may write in the state `s`. -/
def storable (s : State) (i : Instr) (a : Nat) : Prop :=
  readsSetup i ∧ inHeader s a ∨ readsData s i ∧ inChunk s a ∨ mayStore s i ∧ inPayload s a

/-- R95 to R131: what an event of endpoint 0 writes, in the row of the control state `c` that the instruction `i`
runs. -/
theorem engineDone_writes {s t : State} {c : ControlState} {k : EventKind} {i : Instr} (h : EngineDone s c k t)
    (hsetup : k = .epsetup → readsSetup i) (hdata : k = .eprx → c = .rxdata → readsData s i) :
    Memory.Writes (storable s i) s.mem t.mem := by
  have hread (hk : k = .epsetup) : Memory.Writes (storable s i) s.mem (setupBegun s).mem :=
    (setupRead_writes s).mono fun _ ha => .inl ⟨hsetup hk, ha⟩
  have hdone {res : Res} {p : Response} {u : State} (hk : k = .epsetup)
      (hu : Processed (setupRead s).header (setupBegun s) res p u) : Memory.Writes (storable s i) s.mem u.mem :=
    (hread hk).trans ((processed_writes hu).mono fun _ ha => .inr (.inr ⟨.inl (hsetup hk), ha⟩))
  have hgather (hk : k = .eprx) (hc : c = .rxdata) : Memory.Writes (storable s i) s.mem (dataRead s).mem :=
    (dataRead_writes s).mono fun _ ha => .inr (.inl ⟨hdata hk hc, ha⟩)
  have hoffer (hk : k = .eprx) (hc : c = .rxdata) (n cb : Nat) :
      Memory.Writes (storable s i) s.mem (payloadOffered cb (gathered n s)).mem :=
    (hgather hk hc).trans ((ctlCallback_writes cb _ _ (gathered n s)).mono
      fun _ ha => .inr (.inr ⟨.inr (.inl (hdata hk hc)), ha⟩))
  cases h with
  | badSetup => exact hread rfl
  | overflow => exact hread rfl
  | payloadDue => exact hread rfl
  | accepted p u h =>
    rw [accepted_mem]
    exact hdone rfl h
  | deferred p u h => exact hdone rfl h
  | failed p u h =>
    rw [stalledState_mem]
    exact hdone rfl h
  | badDataOut hc => exact hgather rfl hc
  | payloadPart hc => exact hgather rfl hc
  | payloadUnheard hc => exact hgather rfl hc
  | payloadAcked hc n _ cb => exact hoffer rfl hc n cb
  | payloadNaked hc n _ cb => exact hoffer rfl hc n cb
  | payloadFailed hc n _ cb => exact hoffer rfl hc n cb
  | badStatusOut =>
    rw [stalledState_mem, statusRead_mem]
    exact .refl _
  | statusOutDone =>
    rw [completedState_mem, statusRead_mem]
    exact .refl _
  | chunk | zlp | lastThenIn | lastThenOut | statusInDone | outOfSequenceRx | outOfSequenceTx => exact .refl s.mem

/-- R81: the rows of a Setup event read a Setup packet. -/
theorem readsSetup_of_row {c : ControlState} {i : Instr} (h : ep0Row c .epsetup = .ok i) : readsSetup i := by
  left
  cases c <;> cases h <;> decide

/-- R81: the row of `rxdata` for a packet received reads a data packet. -/
theorem readsData_of_row {s : State} {i : Instr} (h : ep0Row .rxdata .eprx = .ok i) : readsData s i :=
  .inl (Except.ok.inj h).symm

/-- R133, R138: of the handler's rows only those of GET_STATUS and GET_CONFIGURATION may store. -/
theorem mayStore_of_rowOf {s : State} {r : Request} {i : Instr} (h : RowOf r i 0 ∨ RowOf r i 8) : mayStore s i := by
  right; right
  refine ⟨r, ?_⟩
  obtain h | h := h
  · exact .inl (by simpa [RowOf] using h)
  · exact .inr (.inl (by simpa [RowOf] using h))

/-- R58: what an instruction that completes has written. -/
theorem ran_writes {s t : State} {i : Instr} (h : Ran s i t) : Memory.Writes (storable s i) s.mem t.mem := by
  have hrequest {stage : Stage} {r : Request} (hi : i = .setupNodata r ∨ i = .setupIn r)
      (h : processRequest stage r (cursorSet r s) = .next t) : Memory.Writes (storable s i) s.mem t.mem :=
    (processRequest_writes h).mono fun _ ha => .inr (.inr ⟨.inr (.inr ⟨r, .inr (.inr ⟨hi, ha.1⟩)⟩), ha.2⟩)
  cases h with
  | reset ep =>
    rw [eventCallback_mem]
    exact .refl s.mem
  | info _ k ep =>
    rw [eventCallback_mem]
    exact .refl s.mem
  | engine _ j k ep _ hi h0 hj h =>
    refine engineDone_writes (engine_done hj h) (fun hk => ?_) fun hk hc => ?_
    · subst hk
      simp only [reduceCtorEq, and_false, and_true, false_or] at hi
      exact .inr ⟨ep, h0, hi⟩
    · subst hk
      simp only [reduceCtorEq, and_false, and_true, false_or, or_false] at hi
      exact .inr ⟨hc, ep, h0, hi⟩
  | row c k _ _ hr h =>
    exact engineDone_writes (engine_done hr h) (fun hk => readsSetup_of_row (hk ▸ hr))
      fun hk hc => readsData_of_row (hk ▸ hc ▸ hr)
  | nodata r _ h => exact hrequest (.inl rfl) h
  | std _ r _ h =>
    exact (served_writes h).mono fun _ ha => .inr (.inr ⟨mayStore_of_rowOf ha.1, ha.2⟩)
  | user | empty | enable | disable | connect | disconnect | resetCmd | resFail | resNak | resAckOut | resAckIn
  | outBig | outFits => exact .refl s.mem
  -- What is left is the request of the class IN, whose constructor's name is a keyword of Lean.
  | _ =>
    rename_i r h
    exact hrequest (.inr rfl) h

/-- Settles O58: only the addresses of `storable` are written, and a form that may not store has none. -/
theorem memoryFrameOfEveryInstruction : Obligations.MemoryFrameOfEveryInstruction := by
  intro s t i hm h
  have hwrites := ran_writes (exec_ran h)
  obtain ⟨hwf, hread⟩ := hwrites hm
  refine ⟨hwf, fun hno => hwrites.eq_of_none hm ?_, fun a hout hhead hchunk => hread a ?_⟩
  · rintro a (⟨hi, -⟩ | ⟨hi, -⟩ | ⟨hi, -⟩)
    · exact hno (.inl hi)
    · exact hno (.inr (.inl hi))
    · exact hno hi
  · rintro (⟨hi, ha, ha'⟩ | ⟨hi, ha, ha'⟩ | ⟨-, ha, ha'⟩)
    · have := hhead hi
      omega
    · have := hchunk hi
      rw [State.chunkLen] at ha'
      omega
    · omega

end Sys2Proof.Machine

namespace Sys2Proof

/-! ### The decoder read back from the encoder (R60, R64, R67, R68, R81) -/

/-- R64, R65: the instruction of an event kind with the address the driver reports. -/
def EventKind.instr (k : EventKind) (ep : BitVec 8) : Instr :=
  match k with
  | .reset => .evtReset ep
  | .sof => .evtSof ep
  | .suspend => .evtSuspend ep
  | .wakeup => .evtWakeup ep
  | .eptx => .evtEptx ep
  | .eprx => .evtEprx ep
  | .epsetup => .evtEpsetup ep
  | .error => .evtError ep
  | .esof => .evtEsof ep

/-- R64: an event token decodes to the instruction of its kind. -/
theorem decode_evtWord (k : EventKind) (ep : BitVec 8) : decode (evtWord k ep) = .ok (k.instr ep) := by
  unfold decode evtWord decodeEvt
  simp only [evt_kind, evt_ep]
  cases k <;> rfl

/-- R81, R82: a key decodes to the row of its control state and its event. -/
theorem decode_ep0Word (c : ControlState) (k : EventKind) : decode (ep0Word c k) = ep0Row c k := by
  unfold decode ep0Word decodeEp0
  simp only [key_kind, key_state, ofCode_code]
  cases k <;> rfl

/-- R63: the instruction of a Setup packet by its class. -/
def setupInstr (r : Request) : Instr :=
  if r.wLength = 0 then .setupNodata r else if r.dir then .setupIn r else .setupOut r

/-- R63: a Setup packet decodes by the class of its request. -/
theorem decode_setup_packet (r : Request) : decode (.setup r.packet) = .ok (setupInstr r) := by
  simp only [decode, decodeSetup, ofPacket_packet, setupInstr]

/-- R70, R132: the instruction of a standard request of code `q`. -/
def stdInstr (q : Nat) (r : Request) : Instr :=
  match q with
  | 0 => .stdGetStatus r
  | 1 => .stdClearFeature r
  | 2 => .stdReserved2 r
  | 3 => .stdSetFeature r
  | 4 => .stdReserved4 r
  | 5 => .stdSetAddress r
  | 6 => .stdGetDescriptor r
  | 7 => .stdSetDescriptor r
  | 8 => .stdGetConfiguration r
  | 9 => .stdSetConfiguration r
  | 10 => .stdGetInterface r
  | 11 => .stdSetInterface r
  | 12 => .stdSynchFrame r
  | _ => .stdOther r

/-- R132: the instruction of a request whose type is not standard. -/
def nonstdInstr (r : Request) : Instr :=
  if r.typ = 1 then .nonstdClass r else if r.typ = 2 then .nonstdVendor r else .nonstdTypeReserved r

/-- R132: the instruction of a request, by type and then by request code. -/
def Request.instr (r : Request) : Instr := if r.typ = 0 then stdInstr r.bRequest.toNat r else nonstdInstr r

theorem Request.instr_std {r : Request} (h : r.typ = 0) : r.instr = stdInstr r.bRequest.toNat r := if_pos h

theorem Request.instr_nonstd {r : Request} (h : r.typ ≠ 0) : r.instr = nonstdInstr r := if_neg h

/-- R132: the three types that are not standard. -/
theorem typ_of_nonstd {r : Request} (h : r.typ ≠ 0) : r.typ = 1 ∨ r.typ = 2 ∨ r.typ = 3 := by
  generalize r.typ = t at h
  revert t
  decide

/-- R70, R132: the built-in handler decodes a packet by the type and the code of its request. -/
theorem decodeStd_eq (p : BitVec 64) : decodeStd p = (Request.ofPacket p).instr := by
  unfold decodeStd
  dsimp only
  generalize Request.ofPacket p = r
  by_cases ht : r.typ = 0
  · rw [Request.instr_std ht, ht]
    generalize r.bRequest.toNat = q
    by_cases hq : 13 ≤ q
    · obtain ⟨n, rfl⟩ := Nat.exists_eq_add_of_le' hq
      rfl
    · interval_cases q <;> rfl
  · rw [Request.instr_nonstd ht]
    unfold nonstdInstr
    obtain ht | ht | ht := typ_of_nonstd ht <;> rw [ht] <;> rfl

theorem decode_std_packet (r : Request) : decode (.std r.packet) = .ok r.instr := by
  simp only [decode, decodeStd_eq, ofPacket_packet]

/-- R70: a standard request decodes by its code. -/
theorem decode_std_of_isStd {r : Request} {q : Nat} (h : r.isStd q = true) :
    decode (.std r.packet) = .ok (stdInstr q r) := by
  simp only [Request.isStd, Bool.and_eq_true, decide_eq_true_eq] at h
  obtain ⟨htyp, rfl⟩ := h
  rw [decode_std_packet, Request.instr_std htyp]

/-- R140: the request codes 13 to 255 have one row. -/
theorem stdInstr_other {q : Nat} (h : 13 ≤ q) (r : Request) : stdInstr q r = .stdOther r := by
  obtain ⟨n, rfl⟩ := Nat.exists_eq_add_of_le' h
  rfl

/-- Settles O1: an event by its kind, a command and a result by its number, a packet by its fields, a key by its row. -/
theorem decodingAnEncodedInstructionGivesItBack : Obligations.DecodingAnEncodedInstructionGivesItBack := by
  intro i hwf
  cases i with
  | evtReset ep => exact decode_evtWord .reset ep
  | evtSof ep => exact decode_evtWord .sof ep
  | evtSuspend ep => exact decode_evtWord .suspend ep
  | evtWakeup ep => exact decode_evtWord .wakeup ep
  | evtEptx ep => exact decode_evtWord .eptx ep
  | evtEprx ep => exact decode_evtWord .eprx ep
  | evtEpsetup ep => exact decode_evtWord .epsetup ep
  | evtError ep => exact decode_evtWord .error ep
  | evtEsof ep => exact decode_evtWord .esof ep
  | cmdEnable | cmdDisable | cmdConnect | cmdDisconnect | cmdReset => rfl
  | resFail | resAck | resNak => rfl
  | setupNodata r =>
    have hw : r.wLength = 0 := of_decide_eq_true hwf
    rw [encode, decode_setup_packet, setupInstr, if_pos hw]
  | setupIn r =>
    obtain ⟨hw, hd⟩ : r.wLength ≠ 0 ∧ r.dir = true := by simpa [Instr.wf] using hwf
    rw [encode, decode_setup_packet, setupInstr, if_neg hw, if_pos hd]
  | setupOut r =>
    obtain ⟨hw, hd⟩ : r.wLength ≠ 0 ∧ r.dir = false := by simpa [Instr.wf] using hwf
    rw [encode, decode_setup_packet, setupInstr, if_neg hw, if_neg (by simp [hd])]
  | stdGetStatus r => exact decode_std_of_isStd (q := 0) hwf
  | stdClearFeature r => exact decode_std_of_isStd (q := 1) hwf
  | stdReserved2 r => exact decode_std_of_isStd (q := 2) hwf
  | stdSetFeature r => exact decode_std_of_isStd (q := 3) hwf
  | stdReserved4 r => exact decode_std_of_isStd (q := 4) hwf
  | stdSetAddress r => exact decode_std_of_isStd (q := 5) hwf
  | stdGetDescriptor r => exact decode_std_of_isStd (q := 6) hwf
  | stdSetDescriptor r => exact decode_std_of_isStd (q := 7) hwf
  | stdGetConfiguration r => exact decode_std_of_isStd (q := 8) hwf
  | stdSetConfiguration r => exact decode_std_of_isStd (q := 9) hwf
  | stdGetInterface r => exact decode_std_of_isStd (q := 10) hwf
  | stdSetInterface r => exact decode_std_of_isStd (q := 11) hwf
  | stdSynchFrame r => exact decode_std_of_isStd (q := 12) hwf
  | stdOther r =>
    obtain ⟨ht, hcode⟩ : r.typ = 0 ∧ 13 ≤ r.bRequest.toNat := by simpa [Instr.wf] using hwf
    rw [encode, decode_std_packet, Request.instr_std ht, stdInstr_other hcode]
  | nonstdClass r =>
    have ht : r.typ = 1 := of_decide_eq_true hwf
    rw [encode, decode_std_packet, Request.instr, nonstdInstr, ht]
    rfl
  | nonstdVendor r =>
    have ht : r.typ = 2 := of_decide_eq_true hwf
    rw [encode, decode_std_packet, Request.instr, nonstdInstr, ht]
    rfl
  | nonstdTypeReserved r =>
    have ht : r.typ = 3 := of_decide_eq_true hwf
    rw [encode, decode_std_packet, Request.instr, nonstdInstr, ht]
    rfl
  | ep0IdleEpsetup => exact decode_ep0Word .idle .epsetup
  | ep0IdleEprx => exact decode_ep0Word .idle .eprx
  | ep0IdleEptx => exact decode_ep0Word .idle .eptx
  | ep0RxdataEpsetup => exact decode_ep0Word .rxdata .epsetup
  | ep0RxdataEprx => exact decode_ep0Word .rxdata .eprx
  | ep0RxdataEptx => exact decode_ep0Word .rxdata .eptx
  | ep0TxdataEpsetup => exact decode_ep0Word .txdata .epsetup
  | ep0TxdataEprx => exact decode_ep0Word .txdata .eprx
  | ep0TxdataEptx => exact decode_ep0Word .txdata .eptx
  | ep0ZtxdataEpsetup => exact decode_ep0Word .ztxdata .epsetup
  | ep0ZtxdataEprx => exact decode_ep0Word .ztxdata .eprx
  | ep0ZtxdataEptx => exact decode_ep0Word .ztxdata .eptx
  | ep0LastdataEpsetup => exact decode_ep0Word .lastdata .epsetup
  | ep0LastdataEprx => exact decode_ep0Word .lastdata .eprx
  | ep0LastdataEptx => exact decode_ep0Word .lastdata .eptx
  | ep0StatusinEpsetup => exact decode_ep0Word .statusin .epsetup
  | ep0StatusinEprx => exact decode_ep0Word .statusin .eprx
  | ep0StatusinEptx => exact decode_ep0Word .statusin .eptx
  | ep0StatusoutEpsetup => exact decode_ep0Word .statusout .epsetup
  | ep0StatusoutEprx => exact decode_ep0Word .statusout .eprx
  | ep0StatusoutEptx => exact decode_ep0Word .statusout .eptx

/-! ### The encoder read back from the decoder (R60, R64, R67, R68, R81) -/

/-- R64: a token is its kind and its address. -/
theorem token_append (w : BitVec 16) : w.extractLsb' 8 8 ++ w.extractLsb' 0 8 = w :=
  (BitVec.extractLsb'_append_extractLsb'_eq_extractLsb' rfl).trans BitVec.extractLsb'_eq_self

/-- R82: a key is its control state and its kind. -/
theorem key_append (w : BitVec 11) : w.extractLsb' 8 3 ++ w.extractLsb' 0 8 = w :=
  (BitVec.extractLsb'_append_extractLsb'_eq_extractLsb' rfl).trans BitVec.extractLsb'_eq_self

theorem wf_eventInstr (k : EventKind) (ep : BitVec 8) : (k.instr ep).wf = true := by cases k <;> rfl

theorem encode_eventInstr (k : EventKind) (ep : BitVec 8) : encode (k.instr ep) = evtWord k ep := by cases k <;> rfl

/-- R64, R65: a token that decodes is the token of one of the nine kinds. -/
theorem kind_of_decode_evt {w : BitVec 16} {i : Instr} (h : decode (.evt w) = .ok i) :
    ∃ k : EventKind, w.extractLsb' 8 8 = k.code ∧ i = k.instr (w.extractLsb' 0 8) := by
  have h : decodeEvt w = .ok i := h
  unfold decodeEvt at h
  split at h <;> cases h
  case h_1 hk => exact ⟨.reset, BitVec.eq_of_toNat_eq hk, rfl⟩
  case h_2 hk => exact ⟨.sof, BitVec.eq_of_toNat_eq hk, rfl⟩
  case h_3 hk => exact ⟨.suspend, BitVec.eq_of_toNat_eq hk, rfl⟩
  case h_4 hk => exact ⟨.wakeup, BitVec.eq_of_toNat_eq hk, rfl⟩
  case h_5 hk => exact ⟨.eptx, BitVec.eq_of_toNat_eq hk, rfl⟩
  case h_6 hk => exact ⟨.eprx, BitVec.eq_of_toNat_eq hk, rfl⟩
  case h_7 hk => exact ⟨.epsetup, BitVec.eq_of_toNat_eq hk, rfl⟩
  case h_8 hk => exact ⟨.error, BitVec.eq_of_toNat_eq hk, rfl⟩
  case h_9 hk => exact ⟨.esof, BitVec.eq_of_toNat_eq hk, rfl⟩

/-- R64: what an event token decodes to is encoded by it. -/
theorem encode_of_decode_evt {w : BitVec 16} {i : Instr} (h : decode (.evt w) = .ok i) :
    i.wf = true ∧ encode i = .evt w := by
  obtain ⟨k, hk, rfl⟩ := kind_of_decode_evt h
  refine ⟨wf_eventInstr _ _, ?_⟩
  rw [encode_eventInstr, evtWord, ← hk, token_append]

/-- R67: what a command token decodes to is encoded by it. -/
theorem encode_of_decode_cmd {w : BitVec 8} {i : Instr} (h : decode (.cmd w) = .ok i) :
    i.wf = true ∧ encode i = .cmd w := by
  have h : decodeCmd w = .ok i := h
  unfold decodeCmd at h
  split at h <;> cases h
  all_goals exact ⟨rfl, congrArg Word.cmd (BitVec.eq_of_toNat_eq (Eq.symm ‹_›))⟩

/-- R68, R75: a result code is a result's own code, or neither ack's nor nak's and read as fail. -/
theorem decodeRes_cases (c : BitVec 8) : c = 1 ∧ decodeRes c = .resAck ∨ c = 2 ∧ decodeRes c = .resNak ∨
    c ≠ 1 ∧ c ≠ 2 ∧ decodeRes c = .resFail := by
  by_cases h1 : c = 1
  · exact .inl ⟨h1, h1 ▸ rfl⟩
  by_cases h2 : c = 2
  · exact .inr (.inl ⟨h2, h2 ▸ rfl⟩)
  · refine .inr (.inr ⟨h1, h2, ?_⟩)
    rw [decodeRes, Machine.ofCode_fail h1 h2]

theorem wf_decodeRes (c : BitVec 8) : (decodeRes c).wf = true := by
  obtain ⟨-, h⟩ | ⟨-, h⟩ | ⟨-, -, h⟩ := decodeRes_cases c <;> rw [h] <;> rfl

/-- R68: the codes 0 to 2 are the results' own. -/
theorem encode_decodeRes {c : BitVec 8} (hc : c.toNat ≤ 2) : encode (decodeRes c) = .res c := by
  obtain ⟨rfl, h⟩ | ⟨rfl, h⟩ | ⟨h1, h2, h⟩ := decodeRes_cases c <;> rw [h]
  · rfl
  · rfl
  · have hzero : c = 0 := by bv_omega
    rw [hzero]
    rfl

/-- R63: the row of a class admits its requests. -/
theorem wf_setupInstr (r : Request) : (setupInstr r).wf = true := by
  unfold setupInstr
  split_ifs with hw hd
  · exact decide_eq_true hw
  · exact Bool.and_eq_true_iff.2 ⟨decide_eq_true hw, hd⟩
  · exact Bool.and_eq_true_iff.2 ⟨decide_eq_true hw, by simp [hd]⟩

theorem encode_setupInstr (r : Request) : encode (setupInstr r) = .setup r.packet := by
  unfold setupInstr
  split_ifs <;> rfl

/-- R70: the row of a standard request admits it. -/
theorem wf_stdInstr {r : Request} (h : r.typ = 0) : (stdInstr r.bRequest.toNat r).wf = true := by
  by_cases hcode : 13 ≤ r.bRequest.toNat
  · rw [stdInstr_other hcode]
    simp [Instr.wf, h, hcode]
  · have hstd : r.isStd r.bRequest.toNat = true := by simp [Request.isStd, h]
    revert hstd
    generalize r.bRequest.toNat = q at *
    interval_cases q <;> exact id

theorem encode_stdInstr (q : Nat) (r : Request) : encode (stdInstr q r) = .std r.packet := by
  unfold stdInstr
  split <;> rfl

/-- R132: the row of a request that is not standard admits it, and its encoding is the packet. -/
theorem encode_nonstdInstr {r : Request} (h : r.typ ≠ 0) :
    (nonstdInstr r).wf = true ∧ encode (nonstdInstr r) = .std r.packet := by
  unfold nonstdInstr
  obtain ht | ht | ht := typ_of_nonstd h <;> rw [ht]
  · exact ⟨decide_eq_true ht, rfl⟩
  · exact ⟨decide_eq_true ht, rfl⟩
  · exact ⟨decide_eq_true ht, rfl⟩

/-- R70, R132: the row the built-in handler selects is well-formed, and its encoding is the packet. -/
theorem encode_decodeStd (p : BitVec 64) : (decodeStd p).wf = true ∧ encode (decodeStd p) = .std p := by
  rw [decodeStd_eq]
  have hp := congrArg Word.std (packet_ofPacket p)
  by_cases ht : (Request.ofPacket p).typ = 0
  · rw [Request.instr_std ht]
    exact ⟨wf_stdInstr ht, (encode_stdInstr _ _).trans hp⟩
  · rw [Request.instr_nonstd ht]
    exact ⟨(encode_nonstdInstr ht).1, (encode_nonstdInstr ht).2.trans hp⟩

theorem wf_ep0Row {c : ControlState} {k : EventKind} {i : Instr} (h : ep0Row c k = .ok i) : i.wf = true := by
  cases k <;> cases c <;> cases h <;> rfl

theorem encode_ep0Row {c : ControlState} {k : EventKind} {i : Instr} (h : ep0Row c k = .ok i) :
    encode i = ep0Word c k := by
  cases k <;> cases c <;> cases h <;> rfl

/-- R26, R81: the codes 0 to 6 are the control states' own. -/
theorem code_ofCode {c : BitVec 3} (h : c.toNat ≤ 6) : (ControlState.ofCode c).code = c := by
  revert c
  decide

/-- R65: the code of an endpoint event stands for it. -/
theorem code_of_endpointKind {c : BitVec 8} {k : EventKind} (h : endpointKind c = some k) : k.code = c := by
  unfold endpointKind at h
  split at h <;> cases h
  all_goals exact BitVec.eq_of_toNat_eq (Eq.symm ‹_›)

/-- R81: a key that decodes is the key of an endpoint event. -/
theorem kind_of_decode_ep0 {w : BitVec 11} {i : Instr} (h : decode (.ep0 w) = .ok i) :
    ∃ k : EventKind, k.code = w.extractLsb' 0 8 ∧ ep0Row (ControlState.ofCode (w.extractLsb' 8 3)) k = .ok i := by
  have h : decodeEp0 w = .ok i := h
  unfold decodeEp0 at h
  split at h
  · next k hk => exact ⟨k, code_of_endpointKind hk, h⟩
  · cases h

/-- Settles O2: by the decode context; the two exceptions are a result's code and the control state in a key. -/
theorem encodingADecodedWordGivesItBack : Obligations.EncodingADecodedWordGivesItBack := by
  intro w i h
  cases w with
  | evt w => exact (encode_of_decode_evt h).imp_right fun he _ _ => he
  | cmd w => exact (encode_of_decode_cmd h).imp_right fun he _ _ => he
  | res c =>
    obtain rfl := Except.ok.inj h
    exact ⟨wf_decodeRes c, fun hres _ => encode_decodeRes (hres c rfl)⟩
  | setup p =>
    obtain rfl := Except.ok.inj h
    refine ⟨wf_setupInstr _, fun _ _ => ?_⟩
    exact (encode_setupInstr _).trans (congrArg Word.setup (packet_ofPacket p))
  | std p =>
    obtain rfl := Except.ok.inj h
    exact (encode_decodeStd p).imp_right fun he _ _ => he
  | ep0 w =>
    obtain ⟨k, hk, hrow⟩ := kind_of_decode_ep0 h
    refine ⟨wf_ep0Row hrow, fun _ hkey => ?_⟩
    rw [encode_ep0Row hrow, ep0Word, code_ofCode (hkey w rfl), hk, key_append]

/-! ### The classes and the layout of a Setup packet (R60, R63) -/

/-- R63: the mask of the NODATA row asks for `wLength`. -/
theorem length_mask_eq_zero (p : BitVec 64) :
    p &&& 0xFFFF000000000000#64 = 0 ↔ (Request.ofPacket p).wLength = 0 := by
  have hm := length_mask (Request.ofPacket p)
  rw [packet_ofPacket] at hm
  rw [hm]
  constructor
  · intro h
    rw [← extract_high (Request.ofPacket p).wLength 0#48]
    exact congrArg (BitVec.extractLsb' 48 16) h
  · intro h
    rw [h]
    rfl

theorem decode_setup (p : BitVec 64) : decode (.setup p) = .ok (setupInstr (Request.ofPacket p)) := rfl

theorem setupInstr_eq_nodata {q r : Request} : setupInstr q = .setupNodata r ↔ q.wLength = 0 ∧ q = r := by
  unfold setupInstr
  split_ifs <;> simp_all

theorem setupInstr_eq_in {q r : Request} : setupInstr q = .setupIn r ↔ (q.dir = true ∧ q.wLength ≠ 0) ∧ q = r := by
  unfold setupInstr
  split_ifs <;> simp_all

theorem setupInstr_eq_out {q r : Request} : setupInstr q = .setupOut r ↔ (q.dir = false ∧ q.wLength ≠ 0) ∧ q = r := by
  unfold setupInstr
  split_ifs <;> simp_all

/-- Settles O3: the class is read off `wLength` and the direction bit. -/
theorem setupPacketsFallIntoThreeClasses : Obligations.SetupPacketsFallIntoThreeClasses := by
  intro p
  simp only [decode_setup, Except.ok.injEq, setupInstr_eq_nodata, setupInstr_eq_in, setupInstr_eq_out]
  refine ⟨?nodata, ?inData, ?outData, ?_, ?_, ?_⟩
  case nodata => rw [length_mask_eq_zero]; simp
  case inData => simp [Request.ofPacket]
  case outData => simp [Request.ofPacket]
  · rintro r ⟨hw, rfl⟩
    exact hw
  · rintro r ⟨⟨hd, hw⟩, rfl⟩
    exact ⟨BitVec.toNat_pos_of_ne_zero hw, hd⟩
  · rintro r ⟨⟨hd, hw⟩, rfl⟩
    exact ⟨BitVec.toNat_pos_of_ne_zero hw, hd⟩

/-- R60: the layout, bit by bit: bit `i` of the packet is a bit of the byte it lies in. -/
theorem getLsbD_packetOfBytes (b0 b1 b2 b3 b4 b5 b6 b7 : Byte) (k i : Nat) (hi : i < 8) (hk : k < 8) :
    (packetOfBytes [b0, b1, b2, b3, b4, b5, b6, b7]).getLsbD (8 * k + i) =
      ([b0, b1, b2, b3, b4, b5, b6, b7].getD k 0).getLsbD i := by
  simp only [packetOfBytes, List.getD_cons_zero, List.getD_cons_succ, BitVec.getLsbD_append]
  interval_cases k <;> interval_cases i <;> rfl

/-- R60: a packet of eight bytes has the byte `k` at bits `8k` to `8k+7`. -/
theorem extract_packetOfBytes (b0 b1 b2 b3 b4 b5 b6 b7 : Byte) (k : Nat) (hk : k < 8) :
    (packetOfBytes [b0, b1, b2, b3, b4, b5, b6, b7]).extractLsb' (8 * k) 8 =
      [b0, b1, b2, b3, b4, b5, b6, b7].getD k 0 := by
  apply BitVec.eq_of_getLsbD_eq
  intro i hi
  rw [BitVec.getLsbD_extractLsb', getLsbD_packetOfBytes _ _ _ _ _ _ _ _ k i hi hk]
  simp [hi]

/-- R60: two bytes that lie side by side are read as one field, the later byte on top. -/
theorem extract_pair (p : BitVec 64) (a : Nat) :
    p.extractLsb' a 16 = p.extractLsb' (a + 8) 8 ++ p.extractLsb' a 8 :=
  (BitVec.extractLsb'_append_extractLsb'_eq_extractLsb' (len₁ := 8) (len₂ := 8) rfl).symm

/-- R60: a field that lies in the first byte is a field of it. -/
theorem extract_first_byte (p : BitVec 64) {a n : Nat} (h : a + n ≤ 8) :
    p.extractLsb' a n = (p.extractLsb' 0 8).extractLsb' a n := by
  apply BitVec.eq_of_getLsbD_eq
  intro i hi
  simp [hi, show a + i < 8 by omega]

/-- Settles O4: each byte by `extract_packetOfBytes`, each field by the bytes it lies in. -/
theorem setupPacketLayoutIsLittleEndian : Obligations.SetupPacketLayoutIsLittleEndian := by
  intro b0 b1 b2 b3 b4 b5 b6 b7 p r
  have byte (k : Nat) (hk : k < 8) : p.extractLsb' (8 * k) 8 = [b0, b1, b2, b3, b4, b5, b6, b7].getD k 0 :=
    extract_packetOfBytes b0 b1 b2 b3 b4 b5 b6 b7 k hk
  have h0 : p.extractLsb' 0 8 = b0 := byte 0 (by decide)
  have h1 : p.extractLsb' 8 8 = b1 := byte 1 (by decide)
  have h2 : p.extractLsb' 16 8 = b2 := byte 2 (by decide)
  have h3 : p.extractLsb' 24 8 = b3 := byte 3 (by decide)
  have h4 : p.extractLsb' 32 8 = b4 := byte 4 (by decide)
  have h5 : p.extractLsb' 40 8 = b5 := byte 5 (by decide)
  have h6 : p.extractLsb' 48 8 = b6 := byte 6 (by decide)
  have h7 : p.extractLsb' 56 8 = b7 := byte 7 (by decide)
  refine ⟨?bytes, rfl, ?dir, ?typ, ?recipient, h1, ?wValue, ?wIndex, ?wLength⟩
  case bytes => simp only [bytesOfPacket, h0, h1, h2, h3, h4, h5, h6, h7]
  case dir => rw [← h0]; simp [r, Request.ofPacket]
  case typ => rw [← h0]; exact extract_first_byte p (by decide)
  case recipient => rw [← h0]; exact extract_first_byte p (by decide)
  case wValue => rw [← h2, ← h3]; exact extract_pair p 16
  case wIndex => rw [← h4, ← h5]; exact extract_pair p 32
  case wLength => rw [← h6, ← h7]; exact extract_pair p 48

/-- Settles O5: each word evaluates to its instruction. -/
theorem wordsOfTheSpecDecode : Obligations.WordsOfTheSpecDecode :=
  ⟨rfl, rfl, rfl, rfl, rfl, rfl, rfl⟩

end Sys2Proof

namespace Sys2Proof.Machine

/-! ### Endpoint events (R94, R95) -/

/-- R95: the engine runs the row of its control state. -/
theorem engineEptx_eq {s : State} {j : Instr} (h : ep0Row s.control_state .eptx = .ok j) :
    engineEptx s = exec j s := by
  unfold engineEptx
  split <;> next hc => rw [hc] at h; cases h; rfl

/-- R95: the engine runs the row of its control state. -/
theorem engineEprx_eq {s : State} {j : Instr} (h : ep0Row s.control_state .eprx = .ok j) :
    engineEprx s = exec j s := by
  unfold engineEprx
  split <;> next hc => rw [hc] at h; cases h; rfl

/-- R95: the engine runs the row of its control state. -/
theorem engineEpsetup_eq {s : State} {j : Instr} (h : ep0Row s.control_state .epsetup = .ok j) :
    engineEpsetup s = exec j s := by
  unfold engineEpsetup
  split <;> next hc => rw [hc] at h; cases h; rfl

/-- R94: an endpoint event is routed, and for number 0 the engine runs the row of its control state. -/
theorem exec_endpointEvent {s : State} {ep : Byte} {i : Instr} {k : EventKind}
    (hi : (i, k) ∈ [(.evtEptx ep, .eptx), (.evtEprx ep, .eprx), (Instr.evtEpsetup ep, EventKind.epsetup)]) :
    ∃ engine : State → Result, exec i s = route k engine ep s ∧
      ∀ j, ep0Row s.control_state k = .ok j → engine s = exec j s := by
  simp only [List.mem_cons, Prod.mk.injEq, List.not_mem_nil, or_false] at hi
  obtain ⟨rfl, rfl⟩ | ⟨rfl, rfl⟩ | ⟨rfl, rfl⟩ := hi
  · exact ⟨engineEptx, rfl, fun _ => engineEptx_eq⟩
  · exact ⟨engineEprx, rfl, fun _ => engineEprx_eq⟩
  · exact ⟨engineEpsetup, rfl, fun _ => engineEpsetup_eq⟩

/-- R33: the slots of the endpoint numbers 1 to 7. -/
theorem epSlot_eq {s : State} {n : BitVec 3} {slot : Option Nat}
    (h : (n, slot) ∈ [(1#3, s.ep_cb.ep1), (2#3, s.ep_cb.ep2), (3#3, s.ep_cb.ep3), (4#3, s.ep_cb.ep4),
      (5#3, s.ep_cb.ep5), (6#3, s.ep_cb.ep6), (7#3, s.ep_cb.ep7)]) : s.epSlot n = .ofOption slot := by
  simp only [List.mem_cons, Prod.mk.injEq, List.not_mem_nil, or_false] at h
  obtain ⟨rfl, rfl⟩ | ⟨rfl, rfl⟩ | ⟨rfl, rfl⟩ | ⟨rfl, rfl⟩ | ⟨rfl, rfl⟩ | ⟨rfl, rfl⟩ | ⟨rfl, rfl⟩ := h <;> rfl

/-- R94: a registered callback is called. -/
theorem route_user {s : State} {ep : Byte} {cb : Nat} (h : s.epSlot (epNumber ep) = .user cb) (k : EventKind)
    (e : State → Result) : route k e ep s = .next (s.call (.epCb cb (epNumber ep) k ep)) := by
  unfold route
  rw [h]

/-- R94: without a callback the address is stalled. -/
theorem route_empty {s : State} {ep : Byte} (h : s.epSlot (epNumber ep) = .empty) (k : EventKind)
    (e : State → Result) : route k e ep s = .next (epSetStall ep true s) := by
  unfold route
  rw [h]

/-- Settles O15: the number selects the slot, and what the slot holds selects the outcome of `route`. -/
theorem endpointEventsGoToTheirSlot : Obligations.EndpointEventsGoToTheirSlot := by
  intro s ep i j k hi
  obtain ⟨engine, hroute, hrow⟩ := exec_endpointEvent (s := s) hi
  rw [hroute]
  refine ⟨fun h0 hj => ?engine, fun n slot hslot hn => ⟨fun cb hcb => ?user, fun hnone => ?empty⟩⟩
  case engine =>
    rw [route_zero h0]
    exact hrow j ((decode_ep0Word _ _).symm.trans hj)
  case user =>
    subst hn hcb
    exact route_user (epSlot_eq hslot) k engine
  case empty =>
    subst hn hnone
    exact route_empty (epSlot_eq hslot) k engine

/-- R97: each row of a Setup event runs the Setup stage. -/
theorem exec_setupRow {i : Instr} (hi : i ∈ setupRows) (s : State) : exec i s = setupStage (s.arrives .epsetup) := by
  simp only [setupRows, List.mem_cons, List.not_mem_nil, or_false] at hi
  obtain rfl | rfl | rfl | rfl | rfl | rfl | rfl := hi <;> rfl

theorem engineEpsetup_setupStage (s : State) : engineEpsetup s = setupStage (s.arrives .epsetup) := by
  unfold engineEpsetup
  split <;> rfl

/-- Settles O16: number 0 is the engine's, and the control state selects its row. -/
theorem theEngineSelectsOnEventAndControlState : Obligations.TheEngineSelectsOnEventAndControlState := by
  intro s ep h0
  refine ⟨fun i hi => ?setup, ?rx, ?tx⟩
  case setup =>
    rw [exec_setupRow hi, ← engineEpsetup_setupStage]
    exact route_zero h0 .epsetup engineEpsetup s
  case rx =>
    refine (route_zero h0 .eprx engineEprx s).trans ?_
    unfold engineEprx
    cases s.control_state <;> rfl
  case tx =>
    refine (route_zero h0 .eptx engineEptx s).trans ?_
    unfold engineEptx
    cases s.control_state <;> rfl

/-! ### An IN data stage from its first chunk to its last (R118 to R123) -/

/-- R123: the state `t` once `m` chunks of at most `e` bytes have been handed over of the `n` bytes the host gets of the
response `p`. Memory, parameters and packet size are those of `s`; `short` says that the response is shorter than asked. -/
structure Sending (s : State) (p : Response) (short : Bool) (n e m : Nat) (t : State) : Prop where
  params : t.params = s.params
  mem : t.mem = s.mem
  size : t.ep0size.toNat = e
  owed : t.tx_short = short
  sent : sentBytes t.trace = s.mem.readBytes p.ptr (min n (m * e))
  packets : t.trace.length = m
  cursor : t.data_ptr = p.ptr + min n (m * e)
  count : t.data_count.toNat = n - m * e

/-- R123: the bytes of one packet more. -/
theorem sentBytes_append_epWrite (l : List Call) (ep : Byte) (buf len : Nat) (bs : List Byte) :
    sentBytes (l ++ [.epWrite ep buf len bs]) = sentBytes l ++ bs := by
  induction l with
  | nil => exact List.append_nil bs
  | cons c l ih =>
    cases c with
    | epWrite => simp only [List.cons_append, sentBytes, ih, List.append_assoc]
    | _ => exact ih

section
variable {s t : State} {p : Response} {short : Bool} {n e m : Nat}

/-- R118: the length of the next chunk. -/
theorem Sending.chunkLen_eq (h : Sending s p short n e m t) : t.chunkLen = min (n - m * e) e := by
  rw [State.chunkLen, h.count, h.size]

/-- R119: what the event says of the shadow is no part of the transfer. -/
theorem Sending.arrives (h : Sending s p short n e m t) : Sending s p short n e m (t.arrives .eptx) := { h with }

/-- R118: a chunk takes the transfer one packet further. -/
theorem Sending.chunkSent (h : Sending s p short n e m t) : Sending s p short n e (m + 1) (chunkSent t) := by
  have hlen := h.chunkLen_eq
  have hsucc : (m + 1) * e = m * e + e := Nat.succ_mul m e
  have hmin : min n ((m + 1) * e) = min n (m * e) + t.chunkLen := by omega
  refine ⟨h.params, h.mem, h.size, h.owed, ?sent, ?packets, ?cursor, ?count⟩
  case sent =>
    refine (sentBytes_append_epWrite _ _ _ _ _).trans ?_
    rw [h.sent, h.mem, h.cursor, hmin, Memory.readBytes_add]
  case packets => exact List.length_append.trans (by rw [h.packets]; rfl)
  case cursor => exact (congrArg (· + t.chunkLen) h.cursor).trans (by rw [hmin, Nat.add_assoc])
  case count =>
    have hlt := t.data_count.isLt
    refine (BitVec.toNat_ofNat _ _).trans ?_
    rw [Nat.mod_eq_of_lt (by omega), h.count]
    omega

/-- R119: while bytes are left, and they lie in memory, a transmit completion hands over the next chunk. -/
theorem Sending.step (h : Sending s p short n e m t) (hfit : p.ptr + n ≤ 2 ^ s.params.ptrW) (hmore : m * e < n) :
    exec .ep0TxdataEptx t = .next (Machine.chunkSent (t.arrives .eptx)) := by
  refine sendChunk_eq (s := t.arrives .eptx) (inMemory_of_le ?_)
  rw [h.arrives.cursor, h.arrives.chunkLen_eq, h.arrives.params]
  omega

/-- R119, R123: `j` completions after a chunk hand over `j` chunks more, as long as bytes are left before each. -/
theorem Sending.steps (j : Nat) (h : Sending s p short n e m t) (hfit : p.ptr + n ≤ 2 ^ s.params.ptrW)
    (hmore : j = 0 ∨ (m + j) * e < n) :
    ∃ u, dataInSteps j (Machine.chunkSent t) = .next (Machine.chunkSent u) ∧ Sending s p short n e (m + j) u := by
  induction j generalizing m t with
  | zero => exact ⟨t, rfl, h⟩
  | succ j ih =>
    have hlast : (m + 1 + j) * e < n := by
      rw [Nat.add_assoc, Nat.add_comm 1 j]
      exact hmore.resolve_left (Nat.succ_ne_zero j)
    have hfirst : (m + 1) * e < n := lt_of_le_of_lt (Nat.mul_le_mul_right e (by omega)) hlast
    have hsent := h.chunkSent
    obtain ⟨u, hu, hsu⟩ := ih hsent.arrives (.inr hlast)
    refine ⟨u, ?_, by rwa [Nat.add_assoc, Nat.add_comm 1 j] at hsu⟩
    rw [dataInSteps, hsent.step hfit hfirst]
    exact hu

/-- R118, R122: the last chunk is a whole packet exactly when the bytes are some and fill their packets. -/
theorem last_chunk_full (he : 1 ≤ e) (hmore : m = 0 ∨ m * e < n) (hlast : n ≤ (m + 1) * e) :
    n - m * e = e ↔ 0 < n ∧ n % e = 0 := by
  have hsucc : (m + 1) * e = m * e + e := Nat.succ_mul m e
  constructor
  · intro h
    obtain rfl : n = (m + 1) * e := by omega
    exact ⟨by omega, Nat.mul_mod_left _ _⟩
  · rintro ⟨hn, hmod⟩
    obtain ⟨q, rfl⟩ := Nat.dvd_of_mod_eq_zero hmod
    have hq : q ≤ m + 1 := Nat.le_of_mul_le_mul_left (by rwa [Nat.mul_comm e (m + 1)]) he
    have hmq : m < q := by
      obtain rfl | hlt := hmore
      · exact Nat.pos_of_mul_pos_left hn
      · rw [Nat.mul_comm m e] at hlt
        exact Nat.lt_of_mul_lt_mul_left hlt
    obtain rfl : q = m + 1 := by omega
    rw [Nat.mul_comm e (m + 1), hsucc]
    omega

/-- R118: after the last chunk a zero-length packet is owed when the chunk is a whole packet of a short response. -/
theorem Sending.last_control_state (h : Sending s p short n e m t) (he : 1 ≤ e) (hmore : m = 0 ∨ m * e < n)
    (hlast : n ≤ (m + 1) * e) : (Machine.chunkSent t).control_state =
      if (0 < n ∧ n % e = 0) ∧ short = true then .ztxdata else .lastdata := by
  have hsucc : (m + 1) * e = m * e + e := Nat.succ_mul m e
  have hlen : t.chunkLen = n - m * e := by rw [h.chunkLen_eq]; omega
  show afterChunk t t.chunkLen = _
  unfold afterChunk
  rw [if_neg (by rw [h.count, hlen]; omega), h.size, h.owed, hlen]
  simp only [last_chunk_full he hmore hlast]

/-- R78, R123: in how many packets of at most `e` bytes `n` bytes are handed over. -/
def packetCount (n e : Nat) : Nat := max 1 ((n + e - 1) / e)

/-- R78, R123: before the last packet bytes are left, unless it is the only one, and after it none are. -/
theorem packetCount_bounds (n : Nat) (he : 1 ≤ e) :
    (packetCount n e - 1 = 0 ∨ (packetCount n e - 1) * e < n) ∧ n ≤ (packetCount n e - 1 + 1) * e := by
  obtain ⟨q, hq⟩ : ∃ q, q = (n + e - 1) / e := ⟨_, rfl⟩
  have hdiv : q * e + (n + e - 1) % e = n + e - 1 := hq ▸ Nat.div_add_mod' (n + e - 1) e
  have hlt := Nat.mod_lt (n + e - 1) he
  unfold packetCount
  rw [← hq]
  cases q with
  | zero => exact ⟨.inl rfl, show n ≤ 1 * e by omega⟩
  | succ k =>
    have hsucc : (k + 1) * e = k * e + e := Nat.succ_mul k e
    rw [Nat.max_eq_right (Nat.le_add_left 1 k), Nat.add_sub_cancel]
    omega

/-- R123: from the start of a transfer as many completions as there are packets after the first hand over all of it. -/
theorem Sending.delivers (h : Sending s p short n e 0 t) (hfit : p.ptr + n ≤ 2 ^ s.params.ptrW) (he : 1 ≤ e) :
    ∃ u, dataInSteps (packetCount n e - 1) (Machine.chunkSent t) = .next u ∧
      u.control_state = (if (0 < n ∧ n % e = 0) ∧ short = true then .ztxdata else .lastdata) ∧
      sentBytes u.trace = s.mem.readBytes p.ptr n ∧ u.trace.length = packetCount n e ∧
      u.data_ptr = p.ptr + n ∧ u.data_count = 0 := by
  obtain ⟨hmore, hlast⟩ := packetCount_bounds n he
  have hcount : packetCount n e - 1 + 1 = packetCount n e := Nat.sub_add_cancel (Nat.le_max_left _ _)
  obtain ⟨u, hu, hsu⟩ := h.steps (packetCount n e - 1) hfit (by rwa [Nat.zero_add])
  rw [Nat.zero_add] at hsu
  have hdone := hsu.chunkSent
  refine ⟨_, hu, hsu.last_control_state he hmore hlast, ?_, hdone.packets.trans hcount, ?_, ?_⟩
  · rw [hdone.sent, Nat.min_eq_left hlast]
  · rw [hdone.cursor, Nat.min_eq_left hlast]
  · exact BitVec.eq_of_toNat_eq (hdone.count.trans (Nat.sub_eq_zero_of_le hlast))

end

/-- R104: at its start a transfer has handed over nothing. -/
theorem sending_dataInBegun {w : BitVec 16} {p : Response} {s : State} (ht : s.trace = []) :
    Sending s p (txShort w p.len) (min w.toNat p.len.toNat) s.ep0size.toNat 0 (dataInBegun w p s) := by
  refine ⟨rfl, rfl, rfl, rfl, ?_, ?_, ?_, ?_⟩
  · rw [Nat.zero_mul, Nat.min_zero]
    exact congrArg sentBytes ht
  · exact congrArg List.length ht
  · rw [Nat.zero_mul, Nat.min_zero]
    rfl
  · rw [Nat.zero_mul, Nat.sub_zero]
    exact clampLen_toNat w p.len

/-- Settles O30: the first chunk begins the transfer, and each completion takes it one packet further. -/
theorem anInDataStageDeliversTheClampedResponse : Obligations.AnInDataStageDeliversTheClampedResponse := by
  intro s p w n e hn he' he _ hfit ht
  have hstart : Sending s p (txShort w p.len) n e 0 (dataInBegun w p s) := by
    rw [hn, he']
    exact sending_dataInBegun ht
  obtain ⟨u, hu, hcs, hsent, hpackets, hptr, hcount⟩ := hstart.delivers hfit he
  have hshort : txShort w p.len = true ↔ p.len.toNat < w.toNat := decide_eq_true_iff
  simp only [hshort, and_assoc] at hcs
  refine ⟨u, by rw [firstChunkSent_eq]; exact hu, hsent, hpackets, hptr, hcount, fun howed => ?_, fun hnot => ?_⟩
  · exact ⟨hcs.trans (if_pos howed), sendZlp_eq (u.arrives .eptx)⟩
  · exact hcs.trans (if_neg hnot)

end Sys2Proof.Machine

namespace Sys2Proof.Machine

/-! ### Tokens that are not defined (R73, R74) -/

/-- R73: the event kinds 9 to 255 do not decode. -/
theorem decode_evt_undefined {w : BitVec 16} (h : 9 ≤ (w.extractLsb' 8 8).toNat) :
    decode (.evt w) = .error .undefinedEvent := by
  obtain ⟨n, hn⟩ := Nat.exists_eq_add_of_le' h
  simp only [decode, decodeEvt, hn]

/-- R74: the command codes 5 to 255 do not decode. -/
theorem decode_cmd_undefined {w : BitVec 8} (h : 5 ≤ w.toNat) : decode (.cmd w) = .error .undefinedCommand := by
  obtain ⟨n, hn⟩ := Nat.exists_eq_add_of_le' h
  simp only [decode, decodeCmd, hn]

/-- R73, R74: a word that does not decode changes nothing. -/
theorem runWord_of_error {w : Word} {e : DecodeError} (h : decode w = .error e) (s : State) :
    runWord s w = .next s := by
  unfold runWord
  rw [h]
  rfl

/-- Settles O6: the delivery is taken, and its word does not decode. -/
theorem undefinedTokensAreIgnored : Obligations.UndefinedTokensAreIgnored := by
  refine fun s a rest => ⟨fun w hin hk => ?_, fun w hin hk => ?_⟩
  · exact (step_of_delivery hin).trans (runWord_of_error (decode_evt_undefined hk) _)
  · exact (step_of_delivery hin).trans (runWord_of_error (decode_cmd_undefined hk) _)

/-! ### Commands (R144 to R149) -/

/-- Settles O10: each command is its HAB call and a device state. -/
theorem enableAndDisableSwitchTheTransceiver : Obligations.EnableAndDisableSwitchTheTransceiver :=
  ⟨rfl, rfl, fun _ => ⟨rfl, rfl⟩⟩

/-- Settles O11: each command is its HAB call. -/
theorem connectAndDisconnectSwitchThePullUp : Obligations.ConnectAndDisconnectSwitchThePullUp :=
  ⟨rfl, rfl, fun _ => ⟨rfl, rfl⟩⟩

/-- Settles O12: the command is `resetStatus`. -/
theorem commandResetReinitialisesDeviceStatus : Obligations.CommandResetReinitialisesDeviceStatus :=
  ⟨rfl, fun _ => rfl⟩

/-! ### Events that call back (R85 to R93) -/

/-- R84: with a callback in the slot the event is one call. -/
theorem eventCallback_some {s : State} {k : EventKind} {cb : Nat} (h : s.evtSlot k = some cb) (ep : Byte) :
    eventCallback k ep s = s.call (.evtCb cb k ep) := by
  unfold eventCallback
  rw [h]

/-- R84: with an empty slot the event does nothing. -/
theorem eventCallback_none {s : State} {k : EventKind} (h : s.evtSlot k = none) (ep : Byte) :
    eventCallback k ep s = s := by
  unfold eventCallback
  rw [h]

/-- R84: an event's callback adds at most one call to the trace. -/
theorem eventCallback_eq {s : State} {k : EventKind} {slot : Option Nat} (h : s.evtSlot k = slot) (ep : Byte) :
    eventCallback k ep s = { s with trace := s.trace ++ slot.toList.map fun cb => .evtCb cb k ep } := by
  cases slot with
  | some cb => exact eventCallback_some h ep
  | none => rw [eventCallback_none h, Option.toList_none, List.map_nil, List.append_nil]

/-- Settles O13: the token decodes by its kind; the callback is called in the state `resetStatus` leaves. -/
theorem eventResetResetsAndThenCallsBack : Obligations.EventResetResetsAndThenCallsBack := by
  refine ⟨decode_evtWord .reset, fun s ep => ?_⟩
  refine congrArg Host.Outcome.next ((eventCallback_eq (s := resetStatus s) (k := .reset) rfl ep).trans ?_)
  unfold State.evtSlot
  cases h : s.evt_cb.reset <;> simp [resetStatus, h]

/-- Settles O14: each of the five events is its callback. -/
theorem informationalEventsOnlyCallBack : Obligations.InformationalEventsOnlyCallBack := by
  refine ⟨⟨rfl, rfl, rfl, rfl, rfl⟩, fun s ep i slot k hi => ?_⟩
  obtain ⟨hrun, hslot⟩ : exec i s = .next (eventCallback k ep s) ∧ s.evtSlot k = slot := by
    simp only [List.mem_cons, Prod.mk.injEq, List.not_mem_nil, or_false] at hi
    obtain ⟨rfl, rfl, rfl⟩ | ⟨rfl, rfl, rfl⟩ | ⟨rfl, rfl, rfl⟩ | ⟨rfl, rfl, rfl⟩ | ⟨rfl, rfl, rfl⟩ := hi
    all_goals exact ⟨rfl, rfl⟩
  rw [hrun, eventCallback_eq hslot]
  cases slot <;> rfl

/-! ### The built-in handler's rows (R132 to R140) -/

/-- R134, R135: the halt feature is an endpoint's. -/
theorem setHalt_of_recipient {r : Request} (h : r.recipient ≠ 2) (b : Bool) (s : State) :
    setHalt b r s = .next (stalledState .requestFailed s) := by
  have hhalt : isEndpointHalt r = false := by rw [isEndpointHalt, decide_eq_false h, Bool.false_and]
  unfold setHalt
  rw [hhalt]
  exact unserved_eq r s

/-- Settles O33: the row fails whatever the request, or its recipient is not one the handler knows. -/
theorem unrecognisedRequestsStall : Obligations.UnrecognisedRequestsStall := by
  rintro s r i (hi | ⟨hr, hi⟩) <;> simp only [List.mem_cons, List.not_mem_nil, or_false] at hi
  · obtain rfl | rfl | rfl | rfl | rfl | rfl | rfl | rfl | rfl | rfl := hi
    all_goals exact unserved_eq r s
  · have h2 : r.recipient ≠ 2 := by
      rintro h
      rw [h] at hr
      exact absurd hr (by decide)
    obtain rfl | rfl | rfl | rfl | rfl | rfl | rfl := hi
    · exact recognised_fail hr s _
    · exact setHalt_of_recipient h2 false s
    · exact setHalt_of_recipient h2 true s
    · exact recognised_fail hr s _
    · exact recognised_fail hr s _
    · exact recognised_fail hr s _
    · exact recognised_fail hr s _

/-- Settles O37: the address is stored, then the request is served. -/
theorem setAddressOnlyStoresTheAddress : Obligations.SetAddressOnlyStoresTheAddress :=
  fun s r hr => ⟨_, (recognised_eq hr s _).trans (served_eq r _)⟩

/-- R137: without a descriptor callback the request fails. -/
theorem getDescriptor_of_none {s : State} {r : Request} (hr : r.recipient.toNat < 4) (h : s.dsc_cb = none) :
    exec (.stdGetDescriptor r) s = .next (stalledState .requestFailed s) := by
  refine (recognised_eq hr s _).trans ?_
  rw [h]
  exact unserved_eq r s

/-- R137: the descriptor callback's result and response end the request. -/
theorem getDescriptor_of_some {s : State} {r : Request} {cb : Nat} (hr : r.recipient.toNat < 4)
    (h : s.dsc_cb = some cb) : exec (.stdGetDescriptor r) s =
      finish (stageOf r) (Res.ofCode s.answers.dsc.res) s.dscResponse (s.call (.dscCb cb r s.answers.dsc.res)) := by
  refine (recognised_eq hr s _).trans ?_
  rw [h]
  rfl

/-- R137, R75: a descriptor callback that answers neither ack nor nak fails the request. -/
theorem getDescriptor_of_fail {s : State} {r : Request} {cb : Nat} (hr : r.recipient.toNat < 4)
    (h : s.dsc_cb = some cb) (h1 : s.answers.dsc.res ≠ 1) (h2 : s.answers.dsc.res ≠ 2) :
    exec (.stdGetDescriptor r) s =
      .next (stalledState .requestFailed (s.call (.dscCb cb r s.answers.dsc.res))) := by
  rw [getDescriptor_of_some hr h, ofCode_fail h1 h2, finish_fail]

/-- Settles O39: by the slot, then by the callback's result. -/
theorem getDescriptorAsksTheDescriptorCallback : Obligations.GetDescriptorAsksTheDescriptorCallback := by
  refine fun s r hr => ⟨getDescriptor_of_none hr, fun cb hcb => ⟨fun hack hfit => ?ack, fun hnak => ?nak, ?fail⟩⟩
  case ack =>
    rw [getDescriptor_of_some hr hcb, hack]
    exact finish_ack fun _ _ => hfit
  case nak =>
    rw [getDescriptor_of_some hr hcb, hnak]
    exact finish_nak _ _ _
  case fail => exact getDescriptor_of_fail hr hcb

/-- R139: without a configuration callback the request fails. -/
theorem setConfiguration_of_none {s : State} {r : Request} (hr : r.recipient.toNat < 4) (h : s.cfg_cb = none) :
    exec (.stdSetConfiguration r) s = .next (stalledState .requestFailed s) := by
  refine (recognised_eq hr s _).trans ?_
  rw [h]
  exact unserved_eq r s

/-- R139: an acked configuration is stored, then the request is served. -/
theorem setConfiguration_of_ack {s : State} {r : Request} {cb : Nat} (hr : r.recipient.toNat < 4)
    (h : s.cfg_cb = some cb) (hack : s.answers.cfg = 1) : exec (.stdSetConfiguration r) s =
      served r { s.call (.cfgCb cb (configOf r) 1) with
        device_cfg := configOf r, device_state := stateForConfig (configOf r) } := by
  refine (recognised_eq hr s _).trans ?_
  simp only [h, cfgCallback, hack]
  rfl

/-- R139, R75: a configuration callback that does not answer ack fails the request. -/
theorem setConfiguration_of_fail {s : State} {r : Request} {cb : Nat} (hr : r.recipient.toNat < 4)
    (h : s.cfg_cb = some cb) (hfail : s.answers.cfg ≠ 1) : exec (.stdSetConfiguration r) s =
      .next (stalledState .requestFailed (s.call (.cfgCb cb (configOf r) s.answers.cfg))) := by
  refine (recognised_eq hr s _).trans ?_
  rw [h]
  cases hres : Res.ofCode s.answers.cfg with
  | ack => exact absurd (ofCode_eq_ack.1 hres) hfail
  | nak => exact unserved_eq r _
  | fail => exact unserved_eq r _

/-- Settles O41: by the slot, then by the callback's result. -/
theorem setConfigurationAsksTheConfigurationCallback :
    Obligations.SetConfigurationAsksTheConfigurationCallback := by
  rintro s r c hr rfl
  refine ⟨setConfiguration_of_none hr, fun cb hcb => ⟨fun hack => ?_, setConfiguration_of_fail hr hcb⟩⟩
  exact ⟨_, (setConfiguration_of_ack hr hcb hack).trans (served_eq r _)⟩

/-! ### Result codes (R68, R75, R157) -/

/-- R132: the handler runs the row the packet decodes to. -/
theorem exec_instr (r : Request) (s : State) : exec r.instr s = stdRequest r s := by
  unfold stdRequest
  by_cases ht : r.typ = 0
  · rw [Request.instr_std ht, ht]
    generalize r.bRequest.toNat = q
    by_cases hq : 13 ≤ q
    · obtain ⟨n, rfl⟩ := Nat.exists_eq_add_of_le' hq
      rfl
    · interval_cases q <;> rfl
  · rw [Request.instr_nonstd ht]
    unfold nonstdInstr
    obtain ht | ht | ht := typ_of_nonstd ht <;> rw [ht] <;> rfl

/-- R132: the handler runs the row the packet decodes to. -/
theorem stdRequest_of_decode {r : Request} {i : Instr} (h : decode (.std r.packet) = .ok i) (s : State) :
    stdRequest r s = exec i s := by
  rw [decode_std_packet] at h
  obtain rfl := Except.ok.inj h
  exact (exec_instr r s).symm

/-- R100: when the control callback fails, the handler runs. -/
theorem processRequest_of_fail {stage : Stage} {r : Request} {s : State} {cb : Nat} (h : s.ctl_cb = some cb)
    (h1 : s.answers.ctl.res ≠ 1) (h2 : s.answers.ctl.res ≠ 2) :
    processRequest stage r s = stdRequest r (ctlCallback cb r [] s) := by
  unfold processRequest
  rw [h, ofCode_fail h1 h2]

/-- Settles O7: `ofCode_fail` at the decoder and at each of the three callbacks. -/
theorem undefinedResultsAreFail : Obligations.UndefinedResultsAreFail := by
  refine ⟨fun c h1 h2 => ?res, fun s r cb i hcb h1 h2 hi => ?ctl, fun s r cb hr hcb => getDescriptor_of_fail hr hcb,
    fun s r cb hr hcb => setConfiguration_of_fail hr hcb⟩
  case res =>
    obtain ⟨h, -⟩ | ⟨h, -⟩ | ⟨-, -, h⟩ := decodeRes_cases c
    · exact absurd h h1
    · exact absurd h h2
    · exact congrArg Except.ok h
  case ctl =>
    rw [← stdRequest_of_decode hi]
    exact ⟨processRequest_of_fail (s := cursorSet r s) hcb h1 h2,
      processRequest_of_fail (s := cursorSet r s) hcb h1 h2⟩

/-- Log 13: outside `rxdata` a bare result code takes its stage from the buffered request. -/
theorem withStage_of_ne {s : State} (hc : s.control_state ≠ .rxdata) (hm : s.data_buf + 8 ≤ 2 ^ s.params.ptrW)
    (k : Stage → Result) : withStage s k = k (stageOf s.header) := by
  refine Eq.trans ?_ (withRequest_eq (inMemory_of_le hm) fun r => k (stageOf r))
  unfold withStage
  split
  · next h => exact absurd h hc
  all_goals rfl

/-- R68: a bare ack decides the stage under way. -/
theorem exec_resAck (s : State) : exec .resAck s = withStage s fun stage => resultAck stage s := rfl

/-- R101, R104: outside `rxdata` a bare ack accepts the buffered request with the response kept (log 13). -/
theorem execResAck_of_ne {s : State} (hc : s.control_state ≠ .rxdata) (hm : s.data_buf + 8 ≤ 2 ^ s.params.ptrW)
    (hfit : s.header.wLength ≠ 0 → s.header.dir = true → firstChunkFits s.header.wLength s.resp s) :
    exec .resAck s = .next (accepted s.header s.resp s) := by
  rw [exec_resAck, withStage_of_ne hc hm]
  exact finish_ack hfit

/-- Settles O42: fail and nak by what they are, ack by its stage. -/
theorem resultCodesDecideTheTransfer : Obligations.ResultCodesDecideTheTransfer := by
  refine fun s => ⟨?fail, rfl, fun hc => ?out, fun hc hm => ⟨fun hclass => ?status, fun hw hd hfit => ?data⟩⟩
  case fail => exact congrArg Host.Outcome.next (stall_eq .requestFailed s)
  case out =>
    rw [exec_resAck, withStage, hc]
    exact enterStatusIn_eq s
  case status =>
    have hother : ¬ (s.header.wLength ≠ 0 ∧ s.header.dir = true) := by
      obtain h | h := hclass <;> simp [h]
    rw [execResAck_of_ne hc hm fun hw hd => absurd ⟨hw, hd⟩ hother, accepted_other hother]
  case data => rw [execResAck_of_ne hc hm fun _ _ => hfit, accepted_in hw hd]

end Sys2Proof.Machine

namespace Sys2Proof.Machine

/-! ### Out-of-sequence events (R153) -/

/-- R152, R153: an out-of-sequence event stalls endpoint 0 and does nothing else. -/
theorem outOfSequence_eq (s : State) : outOfSequence s = .next (stalledState .outOfSequence s) :=
  congrArg Host.Outcome.next (stall_eq .outOfSequence s)

/-- Settles O17: each row is `outOfSequence` once its event has arrived. -/
theorem outOfSequenceEventsStallEndpointZero : Obligations.OutOfSequenceEventsStallEndpointZero := by
  intro s i h hi
  obtain ⟨k, hrun, rfl⟩ : ∃ k, exec i s = outOfSequence (s.arrives k) ∧ s.hab.onEvent k = h := by
    simp only [List.mem_cons, Prod.mk.injEq, List.not_mem_nil, or_false] at hi
    obtain ⟨rfl, rfl⟩ | ⟨rfl, rfl⟩ | ⟨rfl, rfl⟩ | ⟨rfl, rfl⟩ | ⟨rfl, rfl⟩ | ⟨rfl, rfl⟩ | ⟨rfl, rfl⟩ | ⟨rfl, rfl⟩ := hi
    iterate 5 exact ⟨.eprx, rfl, rfl⟩
    iterate 3 exact ⟨.eptx, rfl, rfl⟩
  rw [hrun]
  exact outOfSequence_eq (s.arrives k)

end Sys2Proof.Machine

namespace Sys2Proof.Machine

/-! ### The end of the IN data stage (R120, R121) -/

/-- R121: a device whose status stage is IN queues the status packet. -/
theorem lastDataDone_statusin {s : State} (h : s.params.statusAfterIn = .statusin) :
    lastDataDone s = .next (statusQueued s) := by
  unfold lastDataDone
  rw [h]
  exact enterStatusIn_eq s

/-- R121: a device whose status stage is OUT waits for the status packet. -/
theorem lastDataDone_statusout {s : State} (h : s.params.statusAfterIn = .statusout) :
    lastDataDone s = .next { s with control_state := .statusout } := by
  unfold lastDataDone
  rw [h]

/-- Settles O29: `sendZlp` in `ztxdata`, and `lastDataDone` by STATUS_AFTER_IN in `lastdata`. -/
theorem theEndOfTheInDataStage : Obligations.TheEndOfTheInDataStage :=
  fun s => ⟨sendZlp_eq (s.arrives .eptx), lastDataDone_statusin (s := s.arrives .eptx),
    lastDataDone_statusout (s := s.arrives .eptx)⟩

/-! ### The three classes of a Setup packet (R99 to R108) -/

/-- R107: a payload larger than the payload area stalls. -/
theorem execSetupOut_overflow {r : Request} {s : State} (h : s.data_maxsize.toNat < r.wLength.toNat) :
    execSetupOut r s = .next (stalledState .overflow (cursorSet r s)) :=
  (if_pos (decide_eq_true h)).trans (congrArg Host.Outcome.next (stall_eq .overflow (cursorSet r s)))

/-- R108: a payload that fits is awaited. -/
theorem execSetupOut_fits {r : Request} {s : State} (h : r.wLength.toNat ≤ s.data_maxsize.toNat) :
    execSetupOut r s = .next { cursorSet r s with control_state := .rxdata } :=
  if_neg (by simpa [outOverflow] using h)

/-- Settles O22: by whether the payload fits. -/
theorem requestsWithAnOutDataStage : Obligations.RequestsWithAnOutDataStage :=
  fun _ _ => ⟨execSetupOut_overflow, execSetupOut_fits⟩

/-- R100: without a control callback the handler runs. -/
theorem processRequest_of_none {stage : Stage} {r : Request} {s : State} (h : s.ctl_cb = none) :
    processRequest stage r s = stdRequest r s := by
  unfold processRequest
  rw [h]

/-- R100: the control callback's ack accepts the request with its response. -/
theorem processRequest_of_ack {stage : Stage} {r : Request} {s : State} {cb : Nat} (h : s.ctl_cb = some cb)
    (hack : s.answers.ctl.res = 1) :
    processRequest stage r s = resultAck stage { ctlCallback cb r [] s with resp := s.ctlResponse } := by
  unfold processRequest
  rw [h, hack]
  rfl

/-- R100, R157: the control callback's nak leaves the request to a later event. -/
theorem processRequest_of_nak {stage : Stage} {r : Request} {s : State} {cb : Nat} (h : s.ctl_cb = some cb)
    (hnak : s.answers.ctl.res = 2) : processRequest stage r s = .next (ctlCallback cb r [] s) := by
  unfold processRequest
  rw [h, hnak]
  rfl

/-- Settles O20: by the control callback's slot, then by its result. -/
theorem requestsWithoutDataStage : Obligations.RequestsWithoutDataStage := by
  refine fun s r => ⟨fun cb hcb => ⟨fun hack => ?ack, processRequest_of_nak (s := cursorSet r s) hcb,
    fun h1 h2 i hi => ?fail⟩, fun hnone i hi => ?none⟩
  case ack => exact (processRequest_of_ack (s := cursorSet r s) hcb hack).trans (enterStatusIn_eq _)
  case fail =>
    rw [← stdRequest_of_decode hi]
    exact processRequest_of_fail (s := cursorSet r s) hcb h1 h2
  case none =>
    rw [← stdRequest_of_decode hi]
    exact processRequest_of_none (s := cursorSet r s) hnone

/-- Settles O21: by the control callback's slot, then by its result. -/
theorem requestsWithAnInDataStage : Obligations.RequestsWithAnInDataStage := by
  refine fun s r => ⟨fun cb hcb => ⟨fun hack hfit => ?ack, processRequest_of_nak (s := cursorSet r s) hcb,
    fun h1 h2 i hi => ?fail⟩, fun hnone i hi => ?none⟩
  case ack =>
    exact (processRequest_of_ack (s := cursorSet r s) hcb hack).trans
      (beginDataIn_eq (s := ctlCallback cb r [] (cursorSet r s)) (firstChunkFits_inMemory hfit))
  case fail =>
    rw [← stdRequest_of_decode hi]
    exact processRequest_of_fail (s := cursorSet r s) hcb h1 h2
  case none =>
    rw [← stdRequest_of_decode hi]
    exact processRequest_of_none (s := cursorSet r s) hnone

/-! ### A Setup event (R97 to R99) -/

/-- R97, R95: every form that reads a Setup packet runs the Setup stage. -/
theorem exec_of_readsSetup {i : Instr} (hi : readsSetup i) (s : State) :
    exec i s = setupStage (s.arrives .epsetup) := by
  obtain hi | ⟨ep, h0, rfl⟩ := hi
  · exact exec_setupRow hi s
  · exact (route_zero h0 .epsetup engineEpsetup s).trans (engineEpsetup_setupStage s)

/-- R97 to R99: a Setup event whose packet lies in memory reads it, then stalls or goes on by its class. -/
theorem setupStage_eq {s : State} (hm : s.inMemory s.data_buf 8 = true) : setupStage (s.arrives .epsetup) =
    if badSetup s.answers.rx.result then .next (stalledState .badSetup (setupRead s))
    else setupBranch (setupRead s).header (setupRead s) := by
  have hlies : (restart (s.arrives .epsetup)).inMemory s.data_buf 8 = true := hm
  unfold setupStage readSetup
  refine Eq.trans (epRead_eq hlies _) ?_
  refine if_congr Iff.rfl (congrArg Host.Outcome.next (stall_eq .badSetup (setupRead s))) ?_
  exact withRequest_eq (s := setupRead s) hm _

/-- R98: a Setup read that does not return 8 stalls. -/
theorem setupStage_bad {s : State} (hm : s.inMemory s.data_buf 8 = true) (h : s.answers.rx.result.toInt ≠ 8) :
    setupStage (s.arrives .epsetup) = .next (stalledState .badSetup (setupRead s)) :=
  (setupStage_eq hm).trans (if_pos (decide_eq_true h))

/-- R98, R99: a Setup packet read whole goes on by its class, wherever the control buffer lies in memory. -/
theorem setupStage_whole {s : State} (h : s.answers.rx.result.toInt = 8) : setupStage (s.arrives .epsetup) =
    if s.inMemory s.data_buf 8 then setupBranch (setupRead s).header (setupRead s) else .fault .writeOutsideMemory := by
  split
  · next hm => exact (setupStage_eq hm).trans (if_neg fun hbad => (decide_eq_true_iff.1 hbad : _ ≠ _) h)
  · next hm =>
    have hlen : (rxBytes s.answers.rx 8).length = 8 := by rw [rxBytes_of_le (n := 8) h le_rfl, length_firstBytes]
    exact if_neg fun hlies => hm (hlen ▸ hlies)

/-- R98: the packet read whole lies in the header. -/
theorem setupRead_readBytes {s : State} (hm : s.mem.wf) (h : s.answers.rx.result.toInt = 8) :
    (setupRead s).mem.readBytes s.data_buf 8 = firstBytes s.answers.rx.bytes 8 := by
  have hread := Memory.readBytes_writeBytes s.data_buf (firstBytes s.answers.rx.bytes 8) hm
  rw [length_firstBytes] at hread
  refine Eq.trans ?_ hread
  exact congrArg (fun bs => (s.mem.writeBytes s.data_buf bs).readBytes s.data_buf 8) (rxBytes_of_le (n := 8) h le_rfl)

/-- R99: the branch of a request is the row of its class. -/
theorem exec_setupInstr (r : Request) (s : State) : exec (setupInstr r) s = setupBranch r s := by
  unfold setupInstr setupBranch
  split
  · rfl
  split <;> rfl

/-- Settles O18: the read fails, or the row its packet decodes to is the branch the engine takes. -/
theorem aSetupEventReadsAndDecodesItsPacket : Obligations.ASetupEventReadsAndDecodesItsPacket := by
  intro s i hi hwf hm
  rw [exec_setupRow hi]
  refine ⟨setupStage_bad (inMemory_of_le hm), fun h j hj => ?_⟩
  have hdecode := decode_setup_of_decodeSetupBytes hj
  rw [decode_setup, ← setupRead_readBytes hwf h] at hdecode
  rw [setupStage_whole h, if_pos (inMemory_of_le hm), ← Except.ok.inj hdecode, exec_setupInstr]
  rfl

/-- R99: the branch of a request overwrites the cursor and the count of an earlier transfer. -/
theorem setupBranch_cursor (r : Request) (s : State) (ptr : Nat) (n : BitVec 16) :
    setupBranch r { s with data_ptr := ptr, data_count := n } = setupBranch r s := rfl

/-- Settles O51: the read forgets all of the transfer but the cursor and the count, which the branch overwrites. -/
theorem aSetupForgetsTheTransferInFlight : Obligations.ASetupForgetsTheTransferInFlight := by
  intro s ep c ptr n cb v short h0 h
  have hi : readsSetup (.evtEpsetup ep) := .inr ⟨ep, h0, rfl⟩
  rw [exec_of_readsSetup hi, exec_of_readsSetup hi, setupStage_whole h]
  refine Eq.trans (setupStage_whole h) ?_
  exact congrArg (fun branch => if s.inMemory s.data_buf 8 then branch else .fault .writeOutsideMemory)
    (setupBranch_cursor (setupRead s).header (setupRead s) ptr n)

end Sys2Proof.Machine

namespace Sys2Proof.Machine

/-! ### The packet a step hands over and the transfer it completes (R129, R177) -/

/-- A counted call that was added has one of the kinds listed. -/
theorem Calls.kind_mem {ks : List Nat} {before l : List Call} {c : Call} (h : Calls ks before (before ++ l))
    (hc : c ∈ l) (hk : c.kind ≠ 0) : c.kind ∈ ks := by
  obtain ⟨l', hl', -, hsub⟩ := h
  obtain rfl := List.append_cancel_left hl'
  exact hsub.subset (List.mem_filter.2 ⟨List.mem_map_of_mem hc, by simpa using hk⟩)

/-- The kinds of the calls by which a packet is read and a request or a payload decided. -/
def decisionKinds : List Nat := [1, 3, 4, 5, 6]

/-- R177: the control states that await the completion of a packet handed over. -/
def AwaitsPacket (c : ControlState) : Prop := c = .txdata ∨ c = .ztxdata ∨ c = .lastdata ∨ c = .statusin

/-- R177: the last call from `s` to `t`, and no call before it, hands a packet over to EP0 IN, and its completion is
awaited. -/
def HandsOver (s t : State) : Prop :=
  ∃ before buf len bs, Calls decisionKinds s.trace before ∧ t.trace = before ++ [.epWrite ep0In buf len bs] ∧
    AwaitsPacket t.control_state

/-- R177: what calls for a packet, for an event of kind `k` in the row of the control state `c`: a Setup, the IN data
stage, or the completed payload. -/
def InTurn (c : ControlState) (k : EventKind) (t : State) : Prop :=
  k = .epsetup ∨ k = .eptx ∧ (c = .txdata ∨ c = .ztxdata ∨ c = .lastdata) ∨
    k = .eprx ∧ c = .rxdata ∧ t.control_state = .statusin

/-- R125 to R127: the event of kind `k` has ended a status stage, in the row of the control state `c`. -/
def EndsTransfer (s : State) (c : ControlState) (k : EventKind) (t : State) : Prop :=
  c = .statusin ∧ k = .eptx ∧ t = completedState (s.arrives .eptx) ∨
    c = .statusout ∧ k = .eprx ∧ t = completedState (statusRead s)

/-- What the calls of an event of endpoint 0 come to: a decision alone, a decision and a packet, or the end of a
transfer. -/
inductive EngineCalls (s : State) (c : ControlState) (k : EventKind) (t : State) : Prop
  | decides (h : Calls decisionKinds s.trace t.trace)
  | handsOver (h : HandsOver s t) (turn : InTurn c k t)
  | completes (h : EndsTransfer s c k t)

section
variable {s t : State} {l : List Call}

theorem HandsOver.calls (h : HandsOver s t) : Calls [1, 3, 4, 5, 6, 2] s.trace t.trace := by
  obtain ⟨before, buf, len, bs, hcalls, ht, -⟩ := h
  rw [ht]
  exact hcalls.trans (.one before (c := .epWrite ep0In buf len bs) rfl)

/-- R177: what is handed over goes to EP0 IN. -/
theorem HandsOver.ep_eq {ep : Byte} {buf len : Nat} {bs : List Byte} (h : HandsOver s t) (ht : t.trace = s.trace ++ l)
    (hl : .epWrite ep buf len bs ∈ l) : ep = ep0In := by
  obtain ⟨before, buf', len', bs', hcalls, ht', -⟩ := h
  have ⟨l', hbefore, _⟩ := hcalls
  subst hbefore
  rw [ht, List.append_assoc] at ht'
  obtain rfl := List.append_cancel_left ht'
  obtain hl | hl := List.mem_append.1 hl
  · exact absurd (hcalls.kind_mem hl (by simp [Call.kind])) (show 2 ∉ decisionKinds by decide)
  · exact (Call.epWrite.inj (List.mem_singleton.1 hl)).1

/-- R101, R104: accepting a request hands over its first packet. -/
theorem accepted_handsOver {r : Request} {p : Response} {u : State} (h : Calls decisionKinds s.trace u.trace) :
    HandsOver s (accepted r p u) := by
  have hawaits : AwaitsPacket (accepted r p u).control_state := by
    simpa [AwaitsPacket] using accepted_control_state r p u
  by_cases hin : r.wLength ≠ 0 ∧ r.dir = true
  · rw [accepted_in hin.1 hin.2] at hawaits ⊢
    exact ⟨u.trace, _, _, _, h, rfl, hawaits⟩
  · rw [accepted_other hin] at hawaits ⊢
    exact ⟨u.trace, _, _, _, h, rfl, hawaits⟩

/-- R118: a chunk is handed over. -/
theorem chunkSent_handsOver (s : State) : HandsOver s (chunkSent s) := by
  refine ⟨s.trace, _, _, _, .refl _, rfl, ?_⟩
  obtain ⟨h, -⟩ | ⟨h, -⟩ | ⟨h, -⟩ := afterChunk_cases s s.chunkLen
  · exact .inl h
  · exact .inr (.inl h)
  · exact .inr (.inr (.inl h))

/-- R109: the status packet is handed over. -/
theorem statusQueued_handsOver {u : State} (h : Calls decisionKinds s.trace u.trace) : HandsOver s (statusQueued u) :=
  ⟨u.trace, _, _, _, h, rfl, .inr (.inr (.inr rfl))⟩

/-- R100: a request is decided by the control callback, then by the handler. -/
theorem processed_calls {r : Request} {u : State} {res : Res} {p : Response} (h : Processed r s res p u) :
    Calls [3, 4, 5, 6] s.trace u.trace := by
  cases h with
  | control cb => exact (ctlCallback_calls cb r [] s).mono (by decide)
  | fallback cb _ _ _ _ hh => exact (ctlCallback_calls cb r [] s).trans (handled_calls hh)
  | builtin _ _ _ hh => exact (handled_calls hh).mono (by decide)

theorem dataRead_calls (s : State) : Calls [1] s.trace (dataRead s).trace :=
  packetRead_calls s.data_ptr s.chunkLen (s.arrives .eprx)

theorem statusRead_calls (s : State) : Calls [1] s.trace (statusRead s).trace :=
  packetRead_calls s.data_ptr 0 (s.arrives .eprx)

/-- R95: a row of the engine decides, hands over a packet in turn, or ends a transfer. -/
theorem engineDone_calls {c : ControlState} {k : EventKind} (h : EngineDone s c k t) : EngineCalls s c k t := by
  have hread : Calls [1] s.trace (setupBegun s).trace := .one _ rfl
  have hsetup {res : Res} {p : Response} {u : State} (h : Processed (setupRead s).header (setupBegun s) res p u) :
      Calls decisionKinds s.trace u.trace := hread.trans (processed_calls h)
  have hdata (n : Nat) : Calls [1] s.trace (gathered n s).trace := dataRead_calls s
  have hoffer (n cb : Nat) : Calls decisionKinds s.trace (payloadOffered cb (gathered n s)).trace :=
    ((hdata n).trans (ctlCallback_calls cb _ _ (gathered n s))).mono (by decide)
  cases h with
  | badSetup => exact .decides (hread.trans (stalledState_calls _ (setupRead s)))
  | overflow => exact .decides (hread.trans (stalledState_calls _ (setupBegun s)))
  | payloadDue => exact .decides (hread.mono (by decide))
  | accepted p u h => exact .handsOver (accepted_handsOver (hsetup h)) (.inl rfl)
  | deferred p u h => exact .decides (hsetup h)
  | failed p u h => exact .decides (Calls.trans (ks' := []) (hsetup h) (stalledState_calls _ u))
  | badDataOut => exact .decides ((dataRead_calls s).trans (stalledState_calls _ (dataRead s)))
  | payloadPart _ n => exact .decides ((hdata n).mono (by decide))
  | payloadUnheard _ n => exact .decides ((hdata n).trans (stalledState_calls _ (gathered n s)))
  | payloadAcked hc n _ cb => exact .handsOver (statusQueued_handsOver (hoffer n cb)) (.inr (.inr ⟨rfl, hc, rfl⟩))
  | payloadNaked _ n _ cb => exact .decides (hoffer n cb)
  | payloadFailed _ n _ cb => exact .decides (Calls.trans (ks' := []) (hoffer n cb) (stalledState_calls _ _))
  | badStatusOut => exact .decides ((statusRead_calls s).trans (stalledState_calls _ (statusRead s)))
  | statusOutDone hc => exact .completes (.inr ⟨hc, rfl, rfl⟩)
  | chunk hc => exact .handsOver (chunkSent_handsOver (s.arrives .eptx)) (.inr (.inl ⟨rfl, .inl hc⟩))
  | zlp hc =>
    exact .handsOver ⟨s.trace, _, _, _, .refl _, rfl, .inr (.inr (.inl rfl))⟩ (.inr (.inl ⟨rfl, .inr (.inl hc)⟩))
  | lastThenIn hc =>
    exact .handsOver (statusQueued_handsOver (u := s.arrives .eptx) (.refl _)) (.inr (.inl ⟨rfl, .inr (.inr hc)⟩))
  | lastThenOut => exact .decides (.refl _)
  | statusInDone hc => exact .completes (.inl ⟨hc, rfl, rfl⟩)
  | outOfSequenceRx => exact .decides (stalledState_calls _ (s.arrives .eprx))
  | outOfSequenceTx => exact .decides (stalledState_calls _ (s.arrives .eptx))

/-- R127, R129: the end of a transfer invokes the callback of the slot with the buffered request, and no other. -/
theorem completedState_completeCb {before m : List Call} {cb : Nat} {q : Request} (hs : s.trace = before ++ m)
    (hm : .completeCb cb q ∉ m) (ht : (completedState s).trace = before ++ l) (hl : .completeCb cb q ∈ l) :
    s.complete_cb = some cb ∧ q = s.header := by
  simp only [completedState, hs, List.append_assoc] at ht
  obtain rfl := List.append_cancel_left ht
  obtain hl | hl | hl := by simpa only [List.mem_append] using hl
  · exact absurd hl hm
  · split at hl <;> simp at hl
  · split at hl
    · next cb' hcb =>
      obtain ⟨rfl, rfl⟩ := Call.completeCb.inj (List.mem_singleton.1 hl)
      exact ⟨hcb, rfl⟩
    · cases hl

end

/-- R81, R95: the instruction `i` runs the row of the control state `c` for an event of kind `k`, as that row or as an
event of endpoint number 0. -/
def RunsRow (s : State) (i : Instr) (c : ControlState) (k : EventKind) : Prop :=
  ep0Row c k = .ok i ∨ c = s.control_state ∧ ∃ ep : Byte, ep.extractLsb' 0 3 = 0 ∧
    (i = .evtEptx ep ∧ k = .eptx ∨ i = .evtEprx ep ∧ k = .eprx ∨ i = .evtEpsetup ep ∧ k = .epsetup)

/-- Outside the engine a token makes no counted call, and an inner decode point reads no packet and ends no transfer. -/
theorem ran_engine_or_calls {s t : State} {i : Instr} (h : Ran s i t) :
    (∃ c k, RunsRow s i c k ∧ EngineDone s c k t) ∨ Calls [] s.trace t.trace ∨
      fromToken i = false ∧ Calls [3, 4, 5, 6, 2] s.trace t.trace := by
  cases h with
  | reset ep => exact .inr (.inl (eventCallback_calls _ _ (resetStatus s)))
  | info _ k ep => exact .inr (.inl (eventCallback_calls _ _ s))
  | user _ k ep cb => exact .inr (.inl (.uncounted _ rfl rfl))
  | empty _ ep => exact .inr (.inl (.uncounted _ rfl rfl))
  | engine _ j k ep _ hi h0 hj h =>
    exact .inl ⟨_, k, .inr ⟨rfl, ep, h0, hi⟩, engine_done hj h⟩
  | row c k _ _ hr h => exact .inl ⟨c, k, .inl hr, engine_done hr h⟩
  | enable => exact .inr (.inl (.uncounted _ rfl rfl))
  | disable => exact .inr (.inl (.uncounted _ rfl rfl))
  | connect => exact .inr (.inl (.uncounted _ rfl rfl))
  | disconnect => exact .inr (.inl (.uncounted _ rfl rfl))
  | resetCmd => exact .inr (.inl (.refl s.trace))
  | resFail => exact .inr (.inl (stalledState_calls _ s))
  | resNak => exact .inr (.inl (.refl s.trace))
  | resAckOut => exact .inr (.inr ⟨rfl, (statusQueued_calls s).mono (by decide)⟩)
  | resAckIn => exact .inr (.inr ⟨rfl, (firstChunkSent_calls _ _ s).mono (by decide)⟩)
  | nodata r _ h => exact .inr (.inr ⟨rfl, processRequest_calls (s := cursorSet r s) h⟩)
  | outBig r => exact .inr (.inl (stalledState_calls _ (cursorSet r s)))
  | outFits r => exact .inr (.inl (.refl s.trace))
  | std _ r _ h hi =>
    have hinner : fromToken i = false :=
      eq_of_beq ((List.all_eq_true (p := fun j => fromToken j == false)).1 (by rfl) i hi)
    exact .inr (.inr ⟨hinner, (served_calls h).mono (by decide)⟩)
  -- What is left is the request of the class IN, whose constructor's name is a keyword of Lean.
  | _ =>
    rename_i r h
    exact .inr (.inr ⟨rfl, processRequest_calls (s := cursorSet r s) h⟩)

/-- R125, R95: the instructions that run the row of `statusin` for a packet sent. -/
theorem runsRow_statusin {s : State} {i : Instr} (h : RunsRow s i .statusin .eptx) :
    i = .ep0StatusinEptx ∨ s.control_state = .statusin ∧ ∃ ep, i = .evtEptx ep := by
  obtain h | ⟨hc, ep, -, h⟩ := h
  · exact .inl (Except.ok.inj h).symm
  · exact .inr ⟨hc.symm, ep, by simpa using h⟩

/-- R126, R95: the instructions that run the row of `statusout` for a packet received. -/
theorem runsRow_statusout {s : State} {i : Instr} (h : RunsRow s i .statusout .eprx) :
    i = .ep0StatusoutEprx ∨ s.control_state = .statusout ∧ ∃ ep, i = .evtEprx ep := by
  obtain h | ⟨hc, ep, -, h⟩ := h
  · exact .inl (Except.ok.inj h).symm
  · exact .inr ⟨hc.symm, ep, by simpa using h⟩

/-- Settles O55: only the end of a transfer makes a call of the completion callback's kind. -/
theorem theCompletionCallbackIsOneShot : Obligations.TheCompletionCallbackIsOneShot := by
  intro s t i l cb q h ht hl
  have hnot {ks : List Nat} (hcalls : Calls ks s.trace t.trace) (hks : 7 ∉ ks) : False :=
    hks ((ht ▸ hcalls).kind_mem hl (by simp [Call.kind]))
  obtain ⟨c, k, hrow, hdone⟩ | hcalls | ⟨-, hcalls⟩ := ran_engine_or_calls (exec_ran h)
  · cases engineDone_calls hdone with
    | decides hcalls => exact (hnot hcalls (by decide)).elim
    | handsOver hover => exact (hnot hover.calls (by decide)).elim
    | completes hends =>
      obtain ⟨rfl, rfl, rfl⟩ | ⟨rfl, rfl, rfl⟩ := hends
      · obtain ⟨hcb, hq⟩ := completedState_completeCb (s := s.arrives .eptx) (m := []) (by simp) (by simp) ht hl
        refine ⟨hcb, rfl, rfl, hq, ?_⟩
        exact (runsRow_statusin hrow).imp_right fun h => .inr (.inl h)
      · obtain ⟨hcb, hq⟩ := completedState_completeCb (s := statusRead s) rfl (by simp) ht hl
        refine ⟨hcb, rfl, rfl, hq.trans (still_statusRead s).header, ?_⟩
        exact .inr ((runsRow_statusout hrow).imp_right .inr)
  · exact (hnot hcalls (by decide)).elim
  · exact (hnot hcalls (by decide)).elim

/-- R95: a token that runs a row of the engine is an event of endpoint number 0. -/
theorem RunsRow.of_token {s : State} {i : Instr} {c : ControlState} {k : EventKind} (h : RunsRow s i c k)
    (hi : fromToken i = true) : c = s.control_state ∧ ∃ ep : Byte, ep.extractLsb' 0 3 = 0 ∧
      (i = .evtEptx ep ∧ k = .eptx ∨ i = .evtEprx ep ∧ k = .eprx ∨ i = .evtEpsetup ep ∧ k = .epsetup) := by
  obtain h | h := h
  · rw [fromToken_ep0Row h] at hi
    cases hi
  · exact h

/-- Settles O56: of the tokens only events of endpoint 0 that hand over a packet make a call of `ep_write`'s kind. -/
theorem packetsAreHandedOverOnlyInTurn : Obligations.PacketsAreHandedOverOnlyInTurn := by
  intro s t i l ep buf len bs htoken h ht hl
  have hi : fromToken i = true := by
    obtain ⟨w, hw⟩ | ⟨w, hw⟩ := htoken
    · exact fromToken_of_decode_evt hw
    · exact fromToken_of_decode_cmd hw
  have hnot {ks : List Nat} (hcalls : Calls ks s.trace t.trace) (hks : 2 ∉ ks) : False :=
    hks ((ht ▸ hcalls).kind_mem hl (by simp [Call.kind]))
  obtain ⟨c, k, hrow, hdone⟩ | hcalls | ⟨hinner, -⟩ := ran_engine_or_calls (exec_ran h)
  · cases engineDone_calls hdone with
    | decides hcalls => exact (hnot hcalls (by decide)).elim
    | handsOver hover hturn =>
      have hep := hover.ep_eq ht hl
      obtain ⟨-, -, -, -, -, -, hawaits⟩ := hover
      obtain ⟨rfl, e, h0, hevent⟩ := hrow.of_token hi
      refine ⟨hep, hawaits, ?_⟩
      obtain rfl | ⟨rfl, hc⟩ | ⟨rfl, hc, hstatus⟩ := hturn
      · exact .inl ⟨e, by simpa using hevent, h0⟩
      · exact .inr (.inl ⟨e, by simpa using hevent, h0, hc⟩)
      · exact .inr (.inr ⟨e, by simpa using hevent, h0, hc, hstatus⟩)
    | completes hends =>
      refine (hnot (ks := [1, 8, 7]) ?_ (by decide)).elim
      obtain ⟨-, -, rfl⟩ | ⟨-, -, rfl⟩ := hends
      · exact (completedState_calls (s.arrives .eptx)).mono (by decide)
      · exact (statusRead_calls s).trans (completedState_calls (statusRead s))
  · exact (hnot hcalls (by decide)).elim
  · rw [hinner] at hi
    cases hi

end Sys2Proof.Machine

namespace Sys2Proof.Machine

/-! ### What a request leaves unchanged (R97 to R142) -/

/-- Of the environment's state the address, the power and the pull-up are those of `s`. -/
def SameBus (s t : State) : Prop :=
  t.hab.address = s.hab.address ∧ t.hab.powered = s.hab.powered ∧ t.hab.pullup = s.hab.pullup

theorem SameBus.trans {s t u : State} (h : SameBus s t) (h' : SameBus t u) : SameBus s u := by
  obtain ⟨ha, hp, hu⟩ := h
  obtain ⟨ha', hp', hu'⟩ := h'
  exact ⟨ha'.trans ha, hp'.trans hp, hu'.trans hu⟩

/-- From `s` to `t` the configuration, the device state and the pending address are left alone, calls are only added, and
no bad Setup is labelled. -/
structure Quiet (s t : State) : Prop where
  buf : t.data_buf = s.data_buf
  slot : t.cfg_cb = s.cfg_cb
  config : t.device_cfg = s.device_cfg ∧ t.device_state = s.device_state
  address : t.pend_addr = s.pend_addr ∧ t.pend_addr_v = s.pend_addr_v
  bus : SameBus s t
  calls : ∃ l, t.trace = s.trace ++ l
  label : t.cause = some .badSetup → s.cause = some .badSetup

/-- R139: the request `r` had the configuration callback called from its slot and acked, and the configuration and the
device state follow it. -/
def Configured (r : Request) (s t : State) : Prop :=
  ∃ cb l, s.cfg_cb = some cb ∧ t.trace = s.trace ++ l ∧ .cfgCb cb t.device_cfg 1 ∈ l ∧ t.device_cfg = configOf r ∧
    t.device_state = stateForConfig t.device_cfg

/-- R139: the configuration is left alone, or the handler's case of SET_CONFIGURATION has run, of which `row 9` is
known. -/
def ConfigFrame (row : Nat → Prop) (r : Request) (s t : State) : Prop :=
  (t.device_cfg = s.device_cfg ∧ t.device_state = s.device_state) ∨ row 9 ∧ Configured r s t

/-- R136: the pending address is left alone, or the handler's case of SET_ADDRESS has run, of which `row 5` is known. -/
def AddressFrame (row : Nat → Prop) (r : Request) (s t : State) : Prop :=
  (t.pend_addr = s.pend_addr ∧ t.pend_addr_v = s.pend_addr_v) ∨
    row 5 ∧ t.pend_addr_v = true ∧ t.pend_addr = addressOf r

/-- What the request `r` may have changed from `s` to `t`, where `row n` is what is known if the handler's case of
request code `n` has run. -/
structure RequestFrame (row : Nat → Prop) (r : Request) (s t : State) : Prop where
  buf : t.data_buf = s.data_buf
  config : ConfigFrame row r s t
  address : AddressFrame row r s t
  bus : SameBus s t
  label : t.cause = some .badSetup → s.cause = some .badSetup

section
variable {row : Nat → Prop} {r : Request} {s t u : State}

theorem Quiet.frame (h : Quiet s t) : RequestFrame row r s t := ⟨h.buf, .inl h.config, .inl h.address, h.bus, h.label⟩

/-- What comes before a configuration only adds calls. -/
theorem ConfigFrame.after (h : ConfigFrame row r t u) (hslot : t.cfg_cb = s.cfg_cb)
    (hsame : t.device_cfg = s.device_cfg ∧ t.device_state = s.device_state) (hcalls : ∃ l, t.trace = s.trace ++ l) :
    ConfigFrame row r s u := by
  obtain ⟨hc, hd⟩ | ⟨hrow, cb, l, hs, ht, hmem, hcfg⟩ := h
  · exact .inl ⟨hc.trans hsame.1, hd.trans hsame.2⟩
  · obtain ⟨l', hl'⟩ := hcalls
    refine .inr ⟨hrow, cb, l' ++ l, hslot ▸ hs, ?_, List.mem_append_right _ hmem, hcfg⟩
    rw [ht, hl', List.append_assoc]

/-- What comes after a configuration only adds calls. -/
theorem ConfigFrame.before (h : ConfigFrame row r s t)
    (hsame : u.device_cfg = t.device_cfg ∧ u.device_state = t.device_state) (hcalls : ∃ l, u.trace = t.trace ++ l) :
    ConfigFrame row r s u := by
  obtain ⟨hc, hd⟩ | ⟨hrow, cb, l, hs, ht, hmem, hcfg, hdev⟩ := h
  · exact .inl ⟨hsame.1.trans hc, hsame.2.trans hd⟩
  · obtain ⟨l', hl'⟩ := hcalls
    refine .inr ⟨hrow, cb, l ++ l', hs, by rw [hl', ht, List.append_assoc], ?_⟩
    rw [hsame.1, hsame.2]
    exact ⟨List.mem_append_left _ hmem, hcfg, hdev⟩

/-- What comes before the request's own changes. -/
theorem RequestFrame.after (h : RequestFrame row r t u) (hq : Quiet s t) : RequestFrame row r s u where
  buf := h.buf.trans hq.buf
  config := h.config.after hq.slot hq.config hq.calls
  address := h.address.imp_left fun ⟨ha, hv⟩ => ⟨ha.trans hq.address.1, hv.trans hq.address.2⟩
  bus := hq.bus.trans h.bus
  label := hq.label ∘ h.label

/-- What comes after the request's own changes. -/
theorem RequestFrame.before (h : RequestFrame row r s t) (hq : Quiet t u) : RequestFrame row r s u where
  buf := hq.buf.trans h.buf
  config := h.config.before hq.config hq.calls
  address := by
    unfold AddressFrame
    rw [hq.address.1, hq.address.2]
    exact h.address
  bus := h.bus.trans hq.bus
  label := h.label ∘ hq.label

/-! #### What is quiet -/

theorem quiet_cursorSet (r : Request) (s : State) : Quiet s (cursorSet r s) :=
  ⟨rfl, rfl, ⟨rfl, rfl⟩, ⟨rfl, rfl⟩, ⟨rfl, rfl, rfl⟩, ⟨[], (List.append_nil _).symm⟩, id⟩

theorem quiet_ctlCallback (cb : Nat) (r : Request) (payload : List Byte) (s : State) :
    Quiet s (ctlCallback cb r payload s) :=
  ⟨rfl, rfl, ⟨rfl, rfl⟩, ⟨rfl, rfl⟩, ⟨rfl, rfl, rfl⟩, ⟨_, rfl⟩, id⟩

/-- R152: a stall for another cause than a bad Setup. -/
theorem quiet_stalledState {c : StallCause} (hc : c ≠ .badSetup) (s : State) : Quiet s (stalledState c s) :=
  ⟨rfl, rfl, ⟨rfl, rfl⟩, ⟨rfl, rfl⟩, ⟨rfl, rfl, rfl⟩, ⟨_, rfl⟩, fun h => absurd (Option.some.inj h) hc⟩

/-- R101 to R106: a known result ends the step in one of these states, whatever the stage. -/
theorem finish_cases {stage : Stage} {res : Res} {p : Response} (h : finish stage res p u = .next t) :
    t = statusQueued { u with resp := p } ∨ (∃ w, t = firstChunkSent w p u) ∨ t = u ∨
      t = stalledState .requestFailed u := by
  have hq (h : enterStatusIn { u with resp := p } = .next t) : t = statusQueued { u with resp := p } :=
    (Host.Outcome.next.inj ((enterStatusIn_eq _).symm.trans h)).symm
  cases res with
  | ack =>
    cases stage with
    | noData => exact .inl (hq h)
    | outData => exact .inl (hq h)
    | inData w => exact .inr (.inl ⟨w, (beginDataIn_next h).2⟩)
  | nak => exact .inr (.inr (.inl (Host.Outcome.next.inj h).symm))
  | fail => exact .inr (.inr (.inr (Host.Outcome.next.inj ((finish_fail _ _ _).symm.trans h)).symm))

theorem quiet_finish {stage : Stage} {res : Res} {p : Response} (h : finish stage res p u = .next t) : Quiet u t := by
  obtain rfl | ⟨w, rfl⟩ | rfl | rfl := finish_cases h
  · exact ⟨rfl, rfl, ⟨rfl, rfl⟩, ⟨rfl, rfl⟩, ⟨rfl, rfl, rfl⟩, ⟨_, rfl⟩, id⟩
  · exact ⟨rfl, rfl, ⟨rfl, rfl⟩, ⟨rfl, rfl⟩, ⟨rfl, rfl, rfl⟩, ⟨_, rfl⟩, id⟩
  · exact ⟨rfl, rfl, ⟨rfl, rfl⟩, ⟨rfl, rfl⟩, ⟨rfl, rfl, rfl⟩, ⟨[], (List.append_nil _).symm⟩, id⟩
  · exact quiet_stalledState (by decide) u

/-! #### What the stages of a request change -/

/-- R132 to R142: SET_CONFIGURATION changes the configuration, SET_ADDRESS the pending address, no other case either. -/
theorem handled_frame {res : Res} {p : Response} (h : Handled row r s res p u) : RequestFrame row r s u := by
  cases h with
  | status u w hu => obtain rfl | rfl := hu <;> exact ⟨rfl, .inl ⟨rfl, rfl⟩, .inl ⟨rfl, rfl⟩, ⟨rfl, rfl, rfl⟩, id⟩
  | address hrow => exact ⟨rfl, .inl ⟨rfl, rfl⟩, .inr ⟨hrow, rfl, rfl⟩, ⟨rfl, rfl, rfl⟩, id⟩
  | configured cb slot acked hrow =>
    refine ⟨rfl, .inr ⟨hrow, cb, [.cfgCb cb (configOf r) 1], slot, ?_, List.mem_singleton_self _, rfl, rfl⟩,
      .inl ⟨rfl, rfl⟩, ⟨rfl, rfl, rfl⟩, id⟩
    exact acked ▸ cfgCallback_trace s cb (configOf r)
  | _ => exact ⟨rfl, .inl ⟨rfl, rfl⟩, .inl ⟨rfl, rfl⟩, ⟨rfl, rfl, rfl⟩, id⟩

theorem served_frame (h : Served row r s t) : RequestFrame row r s t := by
  obtain ⟨res, p, u, hu, hf⟩ := h
  exact (handled_frame hu).before (quiet_finish hf)

/-- R100: the control callback leaves the changes to the handler. -/
theorem processRequest_frame {stage : Stage} (h : processRequest stage r s = .next t) :
    RequestFrame (StdRow r) r s t := by
  unfold processRequest at h
  split at h
  · next cb _ =>
    have hctl := quiet_ctlCallback cb r [] s
    split at h
    · exact (quiet_finish h).frame.after hctl
    · exact (quiet_finish h).frame.after hctl
    · exact (served_frame (stdRequest_served h)).after hctl
  · exact served_frame (stdRequest_served h)

/-- R107, R108: a request with an OUT data stage stalls or waits. -/
theorem execSetupOut_next (h : execSetupOut r s = .next t) :
    t = stalledState .overflow (cursorSet r s) ∨ t = { cursorSet r s with control_state := .rxdata } := by
  obtain hbig | hfits := Nat.lt_or_ge s.data_maxsize.toNat r.wLength.toNat
  · exact .inl (Host.Outcome.next.inj ((execSetupOut_overflow hbig).symm.trans h)).symm
  · exact .inr (Host.Outcome.next.inj ((execSetupOut_fits hfits).symm.trans h)).symm

theorem quiet_execSetupOut (h : execSetupOut r s = .next t) : Quiet s t := by
  obtain rfl | rfl := execSetupOut_next h
  · exact ⟨rfl, rfl, ⟨rfl, rfl⟩, ⟨rfl, rfl⟩, ⟨rfl, rfl, rfl⟩, ⟨_, rfl⟩, nofun⟩
  · exact ⟨rfl, rfl, ⟨rfl, rfl⟩, ⟨rfl, rfl⟩, ⟨rfl, rfl, rfl⟩, ⟨[], (List.append_nil _).symm⟩, id⟩

theorem setupBranch_frame (h : setupBranch r s = .next t) : RequestFrame (StdRow r) r s t := by
  have hcursor := quiet_cursorSet r s
  unfold setupBranch at h
  split at h
  · exact (processRequest_frame h).after hcursor
  split at h
  · exact (processRequest_frame h).after hcursor
  · exact (quiet_execSetupOut h).frame

/-- R99: a decoded request stores in the payload area only. -/
theorem setupBranch_writes (h : setupBranch r s = .next t) : Memory.Writes (inPayload s) s.mem t.mem := by
  unfold setupBranch at h
  split at h
  · exact (processRequest_writes (s := cursorSet r s) h).mono fun _ ha => ha.2
  split at h
  · exact (processRequest_writes (s := cursorSet r s) h).mono fun _ ha => ha.2
  · obtain rfl | rfl := execSetupOut_next h <;> exact .refl s.mem

/-- R99: a decoded request leaves its packet in the header. -/
theorem setupBranch_readBytes (hm : s.mem.wf) (h : setupBranch r s = .next t) :
    t.mem.readBytes s.data_buf 8 = s.mem.readBytes s.data_buf 8 :=
  Memory.readBytes_congr fun a _ ha => (setupBranch_writes h hm).2 a fun hp => by
    unfold inPayload at hp
    omega

theorem setupBranch_header (hm : s.mem.wf) (h : setupBranch r s = .next t) : t.header = s.header := by
  unfold State.header
  rw [(setupBranch_frame h).buf, setupBranch_readBytes hm h]

end

/-- Settles O19: the read is whole and lies in memory, so the step goes on with the branch of its request, which
completes, adds calls, and leaves the header alone. -/
theorem setupEventsComplete : Obligations.SetupEventsComplete := by
  intro s ep i hi h0 hwf hbuf hres hctl hdsc
  have hreads : readsSetup i := (List.mem_cons.1 hi).elim (fun hi => .inr ⟨ep, h0, hi⟩) .inl
  have hwhole : s.answers.rx.result.toInt = 8 := by rw [hres]; rfl
  have hlies : s.inMemory s.data_buf 8 = true := inMemory_of_le (by omega)
  have ha : AnswersFit s := ⟨hctl, hdsc⟩
  obtain ⟨t, ht⟩ := setupBranch_completes (setupRead s).header (s := setupRead s) hbuf (ha.of_eq rfl rfl)
  obtain ⟨l, hl, -⟩ := setupBranch_calls ht
  refine ⟨t, l, ?run, ?trace, ?packet, fun hnone hbad => ?label⟩
  case run => rw [exec_of_readsSetup hreads, setupStage_whole hwhole, if_pos hlies, ht]
  case trace =>
    have hread : (setupRead s).trace = s.trace ++ [.epRead ep0Out s.data_buf 8 8] := hres ▸ rfl
    rw [hl, hread, List.append_assoc]
    rfl
  case packet => exact (setupBranch_readBytes (setupRead_writes s hwf).1 ht).trans (setupRead_readBytes hwf hwhole)
  case label => simpa [setupRead, hnone] using (setupBranch_frame ht).label hbad

/-! ### The frame of the Setup stage (R97 to R142) -/

/-- R99, R132: the instruction `i` leaves the configuration alone, or a SET_CONFIGURATION it has run was acked. -/
def ConfigMove (i : Instr) (s t : State) : Prop :=
  t.device_cfg = s.device_cfg ∧ t.device_state = s.device_state ∨
    ∃ cb q l, s.cfg_cb = some cb ∧ t.trace = s.trace ++ l ∧ .cfgCb cb t.device_cfg 1 ∈ l ∧
      t.device_cfg = q.wValue.extractLsb' 0 8 ∧
      t.device_state = (if t.device_cfg ≠ 0 then .configured else .addressed) ∧
      fromRequest (.stdSetConfiguration q) 9 q i t

/-- R99, R132: the instruction `i` leaves the pending address alone, or a SET_ADDRESS it has run stored it. -/
def AddressMove (i : Instr) (s t : State) : Prop :=
  t.pend_addr = s.pend_addr ∧ t.pend_addr_v = s.pend_addr_v ∨
    t.pend_addr_v = true ∧ ∃ q, t.pend_addr = q.wValue.extractLsb' 0 7 ∧ fromRequest (.stdSetAddress q) 5 q i t

section
variable {row : Nat → Prop} {r : Request} {s t : State} {i : Instr}

theorem ConfigFrame.move (h : ConfigFrame row r s t)
    (hrow : row 9 → fromRequest (.stdSetConfiguration r) 9 r i t) : ConfigMove i s t :=
  h.imp_right fun ⟨h9, cb, l, hs, ht, hmem, hcfg, hdev⟩ => ⟨cb, r, l, hs, ht, hmem, hcfg, hdev, hrow h9⟩

theorem AddressFrame.move (h : AddressFrame row r s t) (hrow : row 5 → fromRequest (.stdSetAddress r) 5 r i t) :
    AddressMove i s t := h.imp_right fun ⟨h5, hv, ha⟩ => ⟨hv, r, ha, hrow h5⟩

/-- R132 to R140: a row of the handler serves its request. -/
theorem handlerRow_served (hi : i ∈ [.stdGetStatus r, .stdClearFeature r, .stdReserved2 r, .stdSetFeature r,
      .stdReserved4 r, .stdSetAddress r, .stdGetDescriptor r, .stdSetDescriptor r, .stdGetConfiguration r,
      .stdSetConfiguration r, .stdGetInterface r, .stdSetInterface r, .stdSynchFrame r, .stdOther r, .nonstdClass r,
      .nonstdVendor r, Instr.nonstdTypeReserved r])
    (h : exec i s = .next t) : Served (RowOf r i) r s t := by
  simp only [List.mem_cons, List.not_mem_nil, or_false] at hi
  obtain rfl | rfl | rfl | rfl | rfl | rfl | rfl | rfl | rfl | rfl | hi := hi
  · exact execStdGetStatus_served (by simp [RowOf]) h
  · exact execStdClearFeature_served (by simp [RowOf]) h
  · exact unserved_served h
  · exact execStdSetFeature_served (by simp [RowOf]) h
  · exact unserved_served h
  · exact execStdSetAddress_served (by simp [RowOf]) h
  · exact execStdGetDescriptor_served (by simp [RowOf]) h
  · exact unserved_served h
  · exact execStdGetConfiguration_served (by simp [RowOf]) h
  · exact execStdSetConfiguration_served (by simp [RowOf]) h
  · obtain rfl | rfl | rfl | rfl | rfl | rfl | rfl := hi <;> exact unserved_served h

/-- R99, R132: a row of a Setup class or of the handler, as its own request. -/
theorem request_moves (hi : i ∈ [.setupNodata r, .setupIn r, .setupOut r, .stdGetStatus r, .stdClearFeature r,
      .stdReserved2 r, .stdSetFeature r, .stdReserved4 r, .stdSetAddress r, .stdGetDescriptor r, .stdSetDescriptor r,
      .stdGetConfiguration r, .stdSetConfiguration r, .stdGetInterface r, .stdSetInterface r, .stdSynchFrame r,
      .stdOther r, .nonstdClass r, .nonstdVendor r, Instr.nonstdTypeReserved r])
    (h : exec i s = .next t) : ConfigMove i s t ∧ AddressMove i s t ∧ SameBus s t := by
  have hcursor := quiet_cursorSet r s
  obtain rfl | hi := List.mem_cons.1 hi
  · have hframe := RequestFrame.after (processRequest_frame h) hcursor
    exact ⟨hframe.config.move fun h9 => .inr ⟨h9.1, h9.2, .inl rfl⟩,
      hframe.address.move fun h5 => .inr ⟨h5.1, h5.2, .inl rfl⟩, hframe.bus⟩
  obtain rfl | hi := List.mem_cons.1 hi
  · have hframe := RequestFrame.after (processRequest_frame h) hcursor
    exact ⟨hframe.config.move fun h9 => .inr ⟨h9.1, h9.2, .inr (.inl rfl)⟩,
      hframe.address.move fun h5 => .inr ⟨h5.1, h5.2, .inr (.inl rfl)⟩, hframe.bus⟩
  obtain rfl | hi := List.mem_cons.1 hi
  · have hquiet : Quiet s t := quiet_execSetupOut h
    exact ⟨.inl hquiet.config, .inl hquiet.address, hquiet.bus⟩
  · have hframe := served_frame (handlerRow_served hi h)
    exact ⟨hframe.config.move fun h9 => .inl (by simpa [RowOf] using h9),
      hframe.address.move fun h5 => .inl (by simpa [RowOf] using h5), hframe.bus⟩

/-- R97, R99: a Setup event, as the request it has read; it clears the pending address first (D21). -/
theorem setupEvent_moves (hm : s.mem.wf) (hi : readsSetup i) (h : exec i s = .next t) :
    ConfigMove i s t ∧ AddressMove i (setupRead s) t ∧ SameBus s t := by
  rw [exec_of_readsSetup hi] at h
  obtain ⟨-, ⟨-, rfl⟩ | ⟨-, -, hbranch⟩⟩ := setupStage_next h
  · exact ⟨.inl ⟨rfl, rfl⟩, .inl ⟨rfl, rfl⟩, rfl, rfl, rfl⟩
  · have hframe := setupBranch_frame hbranch
    have hheader := setupBranch_header (setupRead_writes s hm).1 hbranch
    exact ⟨ConfigFrame.move (hframe.config.after rfl ⟨rfl, rfl⟩ ⟨_, rfl⟩)
        fun h9 => .inr ⟨h9.1, h9.2, .inr (.inr ⟨hi, hheader⟩)⟩,
      hframe.address.move fun h5 => .inr ⟨h5.1, h5.2, .inr (.inr ⟨hi, hheader⟩)⟩, hframe.bus⟩

end

/-- Settles O59: a row by its own request, a Setup event by the one it reads. -/
theorem frameOfTheSetupStage : Obligations.FrameOfTheSetupStage := by
  intro s t r i hm hi h
  obtain hi | hi := hi
  · obtain ⟨hconfig, haddress, hbus⟩ := request_moves hi h
    exact ⟨hconfig, haddress.imp_right .inr, hbus⟩
  · obtain ⟨hconfig, haddress, hbus⟩ := setupEvent_moves hm hi h
    exact ⟨hconfig, .inr (haddress.imp_left fun ⟨ha, hv⟩ => ⟨ha, hv, hi⟩), hbus⟩

end Sys2Proof.Machine

namespace Sys2Proof.Machine

/-! ### The end of the OUT data stage (R110 to R116) -/

/-- R111: a data read is bad when its result is an error or more than was asked. -/
theorem badDataOut_iff {r : BitVec 32} {len : Nat} : badDataOut r len = true ↔ r.toInt < 0 ∨ (len : Int) < r.toInt := by
  simp only [badDataOut, Bool.or_eq_true, decide_eq_true_eq]
  rfl

/-- R110: a data packet that lies in memory is read, and what follows is decided in `dataRead s`. -/
theorem dataOut_eq {s : State} (hm : s.data_ptr + s.chunkLen ≤ 2 ^ s.params.ptrW) :
    dataOut (s.arrives .eprx) =
      if badDataOut s.answers.rx.result s.chunkLen then .next (stall .badDataOut (dataRead s))
      else accumulate (rxResult s.answers.rx.result).toNat (dataRead s) :=
  epRead_eq (s := s.arrives .eprx) (inMemory_of_le hm) _

/-- Settles O24: the packet is read, and its result is bad. -/
theorem aBadDataReadStalls : Obligations.ABadDataReadStalls := by
  intro s hm hbad
  have hread : badDataOut s.answers.rx.result s.chunkLen = true :=
    badDataOut_iff.2 (by rwa [State.chunkLen, Nat.cast_min])
  have hrun : dataOut (s.arrives .eprx) = .next (stall .badDataOut (dataRead s)) := by
    rw [dataOut_eq hm, if_pos hread]
  exact hrun.trans (congrArg _ (stall_eq _ _))

/-- R112: once nothing is left to come the payload is complete. -/
theorem accumulate_last {n : Nat} {s : State} (h : s.data_count.toNat = n) :
    accumulate n s = rxComplete (advanced n s) := if_neg (by omega)

/-- R110, R112: the packet with the last bytes is read and accounted for, and the payload is complete. -/
theorem dataOut_last {s : State} (hm : s.data_ptr + s.chunkLen ≤ 2 ^ s.params.ptrW)
    (hr : s.answers.rx.result.toInt = s.data_count.toNat) (hle : s.data_count.toNat ≤ s.chunkLen) :
    dataOut (s.arrives .eprx) = rxComplete (gathered s.data_count.toNat s) := by
  rw [dataOut_eq hm, badDataOut_of_le hr hle, rxResult, hr, Int.toNat_natCast]
  exact accumulate_last (s := dataRead s) rfl

section
variable {s : State}

/-- R113, R115: no control callback is registered for a completed payload. -/
theorem rxComplete_unheard (hh : s.inMemory s.data_buf 8 = true)
    (hp : s.inMemory (s.data_buf + 8) s.header.wLength.toNat = true) (hcb : s.ctl_cb = none) :
    rxComplete s = .next (stalledState .requestFailed s) := by
  unfold rxComplete
  rw [withRequest_eq hh, readMem_eq hp, hcb]
  exact congrArg _ (stall_eq _ _)

/-- R113 to R116: the control callback's result decides a completed payload. -/
theorem rxComplete_offered {cb : Nat} (hh : s.inMemory s.data_buf 8 = true)
    (hp : s.inMemory (s.data_buf + 8) s.header.wLength.toNat = true) (hcb : s.ctl_cb = some cb) :
    (s.answers.ctl.res = 1 → rxComplete s = .next (statusQueued (payloadOffered cb s))) ∧
    (s.answers.ctl.res = 2 → rxComplete s = .next (payloadOffered cb s)) ∧
    (s.answers.ctl.res ≠ 1 → s.answers.ctl.res ≠ 2 →
      rxComplete s = .next (stalledState .requestFailed (payloadOffered cb s))) := by
  have hoffer : rxComplete s =
      payloadResult cb s.header (s.mem.readBytes (s.data_buf + 8) s.header.wLength.toNat) s := by
    unfold rxComplete
    rw [withRequest_eq hh, readMem_eq hp, hcb]
  rw [hoffer]
  unfold payloadResult
  refine ⟨fun hack => ?ack, fun hnak => ?nak, fun hnack hnnak => ?fail⟩
  case ack =>
    rw [hack]
    exact enterStatusIn_eq _
  case nak =>
    rw [hnak]
    rfl
  case fail =>
    rw [ofCode_fail hnack hnnak]
    exact congrArg _ (stall_eq _ _)

end

/-- Settles O26: the last bytes leave `t` with the payload complete, and the control callback's slot and result decide. -/
theorem aCompletePayloadIsDecidedByTheControlCallback : Obligations.ACompletePayloadIsDecidedByTheControlCallback := by
  intro s t hm hr hle ht hbuf
  have hlen : s.chunkLen = s.data_count.toNat := Nat.min_eq_left hle
  have hlast : t = gathered s.data_count.toNat s := by
    rw [ht, gathered_eq le_rfl, hlen, Nat.sub_self]
    rfl
  have hrun : exec .ep0RxdataEprx s = rxComplete t := (dataOut_last hm hr hlen.ge).trans (congrArg _ hlast.symm)
  obtain ⟨hcb, hanswers, hdata, hparams⟩ : t.ctl_cb = s.ctl_cb ∧ t.answers = s.answers ∧ t.data_buf = s.data_buf ∧
      t.params = s.params := by
    rw [ht]
    exact ⟨rfl, rfl, rfl, rfl⟩
  rw [← hparams, ← hdata] at hbuf
  have hheader : t.inMemory t.data_buf 8 = true := inMemory_of_le (by omega)
  have hpayload : t.inMemory (t.data_buf + 8) t.header.wLength.toNat = true := inMemory_of_le (by omega)
  rw [hrun, ← hcb, ← hanswers, ← hdata]
  exact ⟨rxComplete_unheard hheader hpayload, fun cb => rxComplete_offered hheader hpayload⟩

end Sys2Proof.Machine

namespace Sys2Proof.Machine

/-! ### The next chunk of the IN data stage (R118, R119) -/

/-- R118: bytes remain after a chunk within the count exactly when it is not the whole count. -/
theorem afterChunk_of_le {s : State} {c : Nat} (h : c ≤ s.data_count.toNat) :
    afterChunk s c =
      if s.data_count.toNat ≠ c then .txdata
      else if c = s.ep0size.toNat ∧ s.tx_short = true then .ztxdata
      else .lastdata :=
  if_congr (by omega) rfl rfl

/-- Settles O28: the event leaves the chunk where it was, in memory or empty, and `sendChunk` hands it over. -/
theorem aTransmitCompletionSendsTheNextChunk : Obligations.ATransmitCompletionSendsTheNextChunk := by
  rintro s c rfl hfit
  have hlies : s.inMemory s.data_ptr s.chunkLen = true := (inMemory_iff s _ _).2 hfit
  rw [← afterChunk_of_le (Nat.min_le_left _ _)]
  exact sendChunk_eq (s := s.arrives .eptx) hlies

end Sys2Proof.Machine

namespace Sys2Proof.Machine

/-! ### The STATUS stage (R125 to R129, R182) -/

/-- R126: a status read is bad when its result is anything but 0. -/
theorem badStatusOut_iff {r : BitVec 32} : badStatusOut r = true ↔ r.toInt ≠ 0 := decide_eq_true_iff

/-- R126: reading the status packet adds a call and leaves no packet waiting; nothing else changes. -/
theorem statusRead_eq (s : State) : statusRead s = { s with
    trace := s.trace ++ [.epRead ep0Out s.data_ptr 0 s.answers.rx.result]
    hab := { s.hab with rx_waiting := false } } :=
  congrArg (fun m : Memory => { statusRead s with mem := m }) (statusRead_mem s)

/-- R126: the status packet is read, wherever the cursor is, and its result decides between the stall and the end of the
transfer. -/
theorem statusOutDone_eq (s : State) : statusOutDone (s.arrives .eprx) =
    if badStatusOut s.answers.rx.result then .next (stalledState .badStatusOut (statusRead s))
    else complete (statusRead s) := by
  rw [← stall_eq]
  exact epRead_eq (s := s.arrives .eprx) (inMemory_zero _ _) _

/-- Settles O31: the event ends the pending packet, and the transfer completes. -/
theorem theStatusInStageCompletesTheTransfer : Obligations.TheStatusInStageCompletesTheTransfer :=
  fun s h => complete_eq (s := s.arrives .eptx) (h.imp_right inMemory_of_le)

/-- Settles O32: the packet is read, and its result decides. -/
theorem theStatusOutStageCompletesOrStalls : Obligations.TheStatusOutStageCompletesOrStalls := by
  intro s
  have hrun : exec .ep0StatusoutEprx s = statusOutDone (s.arrives .eprx) := rfl
  rw [hrun, statusOutDone_eq]
  refine ⟨fun hr hcb => ?completes, fun hr => ?stalls⟩
  case completes =>
    have hzero : s.answers.rx.result = 0 := BitVec.eq_of_toInt_eq hr
    rw [if_neg (by rwa [badStatusOut_iff, not_not]), statusRead_eq, hzero]
    exact complete_eq (hcb.imp_right inMemory_of_le)
  case stalls => rw [if_pos (badStatusOut_iff.2 hr), statusRead_eq]

/-- Settles O38: SET_ADDRESS stores the address and queues the status packet; its completion applies what is stored. -/
theorem theAddressIsAppliedAfterTheStatusStage : Obligations.TheAddressIsAppliedAfterTheStatusStage := by
  intro s r hr hw hcb ht
  obtain ⟨ptr, hstored⟩ := setAddressOnlyStoresTheAddress s r hr
  rw [accepted_other (by simp [hw])] at hstored
  refine ⟨_, _, hstored, rfl, rfl, rfl, ?_, theStatusInStageCompletesTheTransfer _ (.inl hcb), ?_, rfl, rfl, rfl, rfl⟩
  · simp [statusQueued, ht]
  · simp [completedState, statusQueued, hcb]

/-! #### Where `set_address` is called (R127, R182) -/

/-- R95: an instruction that runs a row of the engine does what that row does. -/
theorem RunsRow.exec_eq {s : State} {i j : Instr} {c : ControlState} {k : EventKind} (h : RunsRow s i c k)
    (hj : ep0Row c k = .ok j) : exec i s = exec j s := by
  obtain h | ⟨rfl, ep, h0, hi⟩ := h
  · rw [Except.ok.inj (h.symm.trans hj)]
  · obtain ⟨engine, hroute, hrow⟩ := exec_endpointEvent (s := s) (ep := ep) (i := i) (k := k) (by simpa using hi)
    rw [hroute, route_zero h0]
    exact hrow j hj

section
variable {s t : State} {l : List Call} {a : BitVec 8}

/-- R127: the end of a transfer calls `set_address` for the pending address only, and before its other calls. -/
theorem completedState_setAddress {before m : List Call} (hs : s.trace = before ++ m) (hm : .setAddress a ∉ m)
    (ht : (completedState s).trace = before ++ l) (hl : .setAddress a ∈ l) :
    s.pend_addr_v = true ∧ a = s.pend_addr.setWidth 8 ∧ ∃ l', l = m ++ .setAddress a :: l' := by
  simp only [completedState, hs, List.append_assoc] at ht
  obtain rfl := List.append_cancel_left ht
  obtain hl | hl | hl := by simpa only [List.mem_append] using hl
  · exact absurd hl hm
  · split at hl
    · next hv =>
      obtain rfl := Call.setAddress.inj (List.mem_singleton.1 hl)
      exact ⟨hv, rfl, _, by rw [if_pos hv]; rfl⟩
    · cases hl
  · split at hl <;> simp at hl

/-- R126: an OUT status stage whose step calls `set_address` has read its status packet with the result 0. -/
theorem statusOutDone_result (h : statusOutDone (s.arrives .eprx) = .next t) (ht : t.trace = s.trace ++ l)
    (hl : .setAddress a ∈ l) : s.answers.rx.result = 0 := by
  rw [statusOutDone_eq] at h
  split at h
  · obtain rfl := Host.Outcome.next.inj h
    have hcalls : Calls [1] s.trace (stalledState .badStatusOut (statusRead s)).trace :=
      (statusRead_calls s).trans (stalledState_calls _ (statusRead s))
    exact absurd ((ht ▸ hcalls).kind_mem hl (by simp [Call.kind])) (show 8 ∉ [1] by decide)
  · next hgood => exact BitVec.eq_of_toInt_eq (not_not.1 (mt badStatusOut_iff.2 hgood))

end

/-- Settles O54: only the end of a transfer makes a call of the kind of `set_address`. -/
theorem setAddressIsCalledOnlyAtTheStatusCompletion : Obligations.SetAddressIsCalledOnlyAtTheStatusCompletion := by
  intro s t i l a h ht hl
  have hnot {ks : List Nat} (hcalls : Calls ks s.trace t.trace) (hks : 8 ∉ ks) : False :=
    hks ((ht ▸ hcalls).kind_mem hl (by simp [Call.kind]))
  obtain ⟨c, k, hrow, hdone⟩ | hcalls | ⟨-, hcalls⟩ := ran_engine_or_calls (exec_ran h)
  · cases engineDone_calls hdone with
    | decides hcalls => exact (hnot hcalls (by decide)).elim
    | handsOver hover => exact (hnot hover.calls (by decide)).elim
    | completes hends =>
      obtain ⟨rfl, rfl, rfl⟩ | ⟨rfl, rfl, rfl⟩ := hends
      · obtain ⟨hv, ha, hfirst⟩ := completedState_setAddress (s := s.arrives .eptx) (m := []) (by simp) (by simp) ht hl
        exact ⟨hv, ha, rfl, rfl, .inl ⟨hfirst, runsRow_statusin hrow⟩⟩
      · have hzero := statusOutDone_result ((hrow.exec_eq rfl).symm.trans h) ht hl
        obtain ⟨hv, ha, hsecond⟩ := completedState_setAddress (s := statusRead s) rfl (by simp) ht hl
        refine ⟨hv, ha, rfl, rfl, .inr ⟨?_, runsRow_statusout hrow⟩⟩
        rw [← hzero]
        exact hsecond
  · exact (hnot hcalls (by decide)).elim
  · exact (hnot hcalls (by decide)).elim

end Sys2Proof.Machine

namespace Sys2Proof.Machine

/-! ### GET_STATUS, the halt feature and GET_CONFIGURATION (R133 to R135, R138) -/

/-- R133: by default a recipient that is neither device, interface nor endpoint has no word. -/
theorem statusSource_unserved {p : Params} {r : Request}
    (h : p.getStatusWord.lookup (r.recipient, r.wIndex) = none) (hr : 3 ≤ r.recipient.toNat) :
    statusSource p r = .unserved := by
  obtain ⟨n, hn⟩ := Nat.exists_eq_add_of_le' hr
  unfold statusSource
  simp only [h, hn]

/-- Settles O35: the source has no word, so the request fails whether the handler knows its recipient or not. -/
theorem getStatusFailsForOtherRecipients : Obligations.GetStatusFailsForOtherRecipients := by
  intro s r hnone hr
  obtain hknown | hother := Nat.lt_or_ge r.recipient.toNat 4
  · refine (recognised_eq hknown s _).trans ?_
    rw [statusSource_unserved hnone hr]
    exact unserved_eq r s
  · exact recognised_fail hother s _

theorem isEndpointHalt_iff {r : Request} : isEndpointHalt r = true ↔ r.recipient = 2 ∧ r.wValue = 0 := by
  simp [isEndpointHalt]

/-- R134, R135: a request for an endpoint's halt feature sets it and is served. -/
theorem setHalt_of_halt {r : Request} (h : r.recipient = 2 ∧ r.wValue = 0) (b : Bool) (s : State) :
    setHalt b r s = served r (epSetStall (endpointOf r) b s) := if_pos (isEndpointHalt_iff.2 h)

/-- R134, R135: any other feature request fails. -/
theorem setHalt_of_other {r : Request} (h : ¬ (r.recipient = 2 ∧ r.wValue = 0)) (b : Bool) (s : State) :
    setHalt b r s = .next (stalledState .requestFailed s) :=
  (if_neg (mt isEndpointHalt_iff.1 h)).trans (unserved_eq r s)

/-- Settles O36: both rows are `setHalt`. -/
theorem featureRequestsSetTheEndpointHalt : Obligations.FeatureRequestsSetTheEndpointHalt := by
  intro s r i b hi
  have hrun : exec i s = setHalt b r s := by
    simp only [List.mem_cons, Prod.mk.injEq, List.not_mem_nil, or_false] at hi
    obtain ⟨rfl, rfl⟩ | ⟨rfl, rfl⟩ := hi <;> rfl
  rw [hrun]
  exact ⟨fun hrec hval => ⟨_, (setHalt_of_halt ⟨hrec, hval⟩ b s).trans (served_eq r _)⟩,
    fun hother => setHalt_of_other hother b s⟩

/-- R141: without room for one byte GET_CONFIGURATION fails. -/
theorem getConfiguration_no_room {s : State} {r : Request} (hr : r.recipient.toNat < 4) (h : s.data_maxsize = 0) :
    exec (.stdGetConfiguration r) s = .next (stalledState .requestFailed s) := by
  refine (recognised_eq hr s _).trans ?_
  rw [h]
  exact unserved_eq r s

/-- R138, R141: the configuration is stored at the start of the payload area and sent from there. -/
theorem getConfiguration_room {s : State} {r : Request} (hr : r.recipient.toNat < 4) (h : s.data_maxsize ≠ 0)
    (hm : s.data_buf + 9 ≤ 2 ^ s.params.ptrW) :
    exec (.stdGetConfiguration r) s = .next (accepted r ⟨s.data_buf + 8, 1⟩
      { s with mem := s.mem.write (s.data_buf + 8) s.device_cfg }) := by
  have hroom : ¬ s.data_maxsize.toNat < 1 := fun hlt => h (BitVec.eq_of_toNat_eq (Nat.lt_one_iff.1 hlt))
  have hlies : s.inMemory (s.data_buf + 8) [s.device_cfg].length = true := inMemory_of_le hm
  refine (recognised_eq hr s _).trans ?_
  rw [if_neg hroom, writeMem_eq hlies]
  refine finish_ack fun _ _ => ?_
  have hlen : (1 : BitVec 16).toNat = 1 := rfl
  unfold firstChunkFits
  simp only [hlen]
  omega

/-- R104, R118: a response of one byte is one packet. -/
theorem firstChunkSent_trace_one {s : State} {w : BitVec 16} (hw : w ≠ 0) (he : s.ep0size ≠ 0) (a : Nat) :
    (firstChunkSent w ⟨a, 1⟩ s).trace = s.trace ++ [.epWrite ep0In a 1 [s.mem.read a]] := by
  have hchunk : min (min w.toNat (1 : BitVec 16).toNat) s.ep0size.toNat = 1 := by
    have hlen : (1 : BitVec 16).toNat = 1 := rfl
    have hw' : w.toNat ≠ 0 := fun h => hw (BitVec.eq_of_toNat_eq h)
    have he' : s.ep0size.toNat ≠ 0 := fun h => he (BitVec.eq_of_toNat_eq h)
    omega
  simp only [firstChunkSent, hchunk]
  rfl

/-- Settles O40: the byte written is the one the packet carries. -/
theorem getConfigurationAnswersTheConfiguration : Obligations.GetConfigurationAnswersTheConfiguration := by
  refine fun s r hr => ⟨getConfiguration_no_room hr, fun hroom hm => ?_⟩
  have hrun := getConfiguration_room hr hroom hm
  refine ⟨hrun, fun hwf hw hd he t ht => ?_⟩
  obtain rfl := Host.Outcome.next.inj (hrun.symm.trans ht)
  rw [accepted_in hw hd, firstChunkSent_trace_one hw (by exact he), Memory.read_write_same _ _ hwf]

/-! ### Where `ep_set_stall(ep, false)` is called (R134, R155) -/

/-- From the trace `before` to the trace `after` calls are only added, at the end, and `ep_set_stall(ep, false)` is among
them only if `p`. -/
def ClearsOnlyIf (ep : Byte) (p : Prop) (before after : List Call) : Prop :=
  ∃ l, after = before ++ l ∧ (.epSetStall ep false ∈ l → p)

/-- R134: the request `r` names the halt feature of the endpoint `ep`. -/
def NamesHalt (r : Request) (ep : Byte) : Prop := r.recipient = 2 ∧ r.wValue = 0 ∧ endpointOf r = ep

section
variable {ep : Byte} {p q : Prop} {before between after l : List Call}
variable {row : Nat → Prop} {r : Request} {s t u : State}

theorem ClearsOnlyIf.refl (before : List Call) : ClearsOnlyIf ep p before before :=
  ⟨[], (List.append_nil _).symm, nofun⟩

/-- More calls, none of which clears the stall. -/
theorem ClearsOnlyIf.append (h : ClearsOnlyIf ep p before after) (hl : .epSetStall ep false ∉ l) :
    ClearsOnlyIf ep p before (after ++ l) := by
  obtain ⟨l', rfl, hp⟩ := h
  exact ⟨l' ++ l, List.append_assoc _ _ _, fun hmem => (List.mem_append.1 hmem).elim hp fun hmem => absurd hmem hl⟩

theorem ClearsOnlyIf.trans (h : ClearsOnlyIf ep p before between) (h' : ClearsOnlyIf ep p between after) :
    ClearsOnlyIf ep p before after := by
  obtain ⟨l, rfl, hp⟩ := h
  obtain ⟨l', rfl, hp'⟩ := h'
  exact ⟨l ++ l', List.append_assoc _ _ _, fun hmem => (List.mem_append.1 hmem).elim hp hp'⟩

theorem ClearsOnlyIf.mono (h : ClearsOnlyIf ep p before after) (hpq : p → q) : ClearsOnlyIf ep q before after := by
  obtain ⟨l, hl, hp⟩ := h
  exact ⟨l, hl, hpq ∘ hp⟩

/-- What the added calls clear, `p` allows. -/
theorem ClearsOnlyIf.of_mem (h : ClearsOnlyIf ep p before (before ++ l)) (hl : .epSetStall ep false ∈ l) : p := by
  obtain ⟨l', hl', hp⟩ := h
  obtain rfl := List.append_cancel_left hl'
  exact hp hl

/-- R152: the block's own stall clears none. -/
theorem ClearsOnlyIf.stalled (h : ClearsOnlyIf ep p before s.trace) (c : StallCause) :
    ClearsOnlyIf ep p before (stalledState c s).trace := h.append (by simp)

/-- R127: neither the address nor the completion callback clears a stall. -/
theorem ClearsOnlyIf.completed (h : ClearsOnlyIf ep p before s.trace) :
    ClearsOnlyIf ep p before (completedState s).trace := by
  refine (h.append ?address).append ?callback
  · split <;> simp
  · split <;> simp

theorem eventCallback_clears (k : EventKind) (e : Byte) (s : State) :
    ClearsOnlyIf ep p s.trace (eventCallback k e s).trace := by
  rw [eventCallback_eq rfl]
  exact (ClearsOnlyIf.refl _).append (by simp)

/-! #### What the stages of a request clear -/

/-- R133 to R139: of the handler's cases only CLEAR_FEATURE of the endpoint's halt clears a stall. -/
theorem handled_clears {res : Res} {resp : Response} (h : Handled row r s res resp u) :
    ClearsOnlyIf ep (row 1 ∧ NamesHalt r ep) s.trace u.trace := by
  have quiet : ClearsOnlyIf ep (row 1 ∧ NamesHalt r ep) s.trace s.trace := .refl _
  have asked : ClearsOnlyIf ep (row 1 ∧ NamesHalt r ep) s.trace (isStalledCall (endpointOf r) s).trace :=
    quiet.append (by simp)
  cases h with
  | unserved | address | current => exact quiet
  | asked => exact asked
  | status _ _ hu =>
    obtain rfl | rfl := hu
    · exact quiet
    · exact asked
  | halt b endpoint feature cleared =>
    refine ⟨[.epSetStall (endpointOf r) b], rfl, fun hmem => ?_⟩
    obtain ⟨hep, hb⟩ := Call.epSetStall.inj (List.mem_singleton.1 hmem)
    exact ⟨cleared hb.symm, endpoint, feature, hep.symm⟩
  | descriptor | configured | notConfigured => exact quiet.append (by simp)

/-- R101 to R106: no result clears a stall. -/
theorem finish_clears {stage : Stage} {res : Res} {resp : Response} (h : finish stage res resp u = .next t) :
    ClearsOnlyIf ep p u.trace t.trace := by
  have quiet : ClearsOnlyIf ep p u.trace u.trace := .refl _
  obtain rfl | ⟨w, rfl⟩ | rfl | rfl := finish_cases h
  · exact quiet.append (by simp)
  · exact quiet.append (by simp)
  · exact quiet
  · exact quiet.stalled _

theorem served_clears (h : Served row r s t) : ClearsOnlyIf ep (row 1 ∧ NamesHalt r ep) s.trace t.trace := by
  obtain ⟨res, resp, u, hu, hf⟩ := h
  exact (handled_clears hu).trans (finish_clears hf)

/-- R100: the control callback clears no stall. -/
theorem processRequest_clears {stage : Stage} (h : processRequest stage r s = .next t) :
    ClearsOnlyIf ep (StdRow r 1 ∧ NamesHalt r ep) s.trace t.trace := by
  unfold processRequest at h
  split at h
  · next cb _ =>
    have hctl : ClearsOnlyIf ep (StdRow r 1 ∧ NamesHalt r ep) s.trace (ctlCallback cb r [] s).trace :=
      (ClearsOnlyIf.refl _).append (by simp)
    split at h
    · exact hctl.trans (finish_clears h)
    · exact hctl.trans (finish_clears h)
    · exact hctl.trans (served_clears (stdRequest_served h))
  · exact served_clears (stdRequest_served h)

theorem execSetupOut_clears (h : execSetupOut r s = .next t) : ClearsOnlyIf ep p s.trace t.trace := by
  have quiet : ClearsOnlyIf ep p s.trace (cursorSet r s).trace := .refl s.trace
  obtain rfl | rfl := execSetupOut_next h
  · exact quiet.stalled _
  · exact quiet

/-- R99: the branch of a decoded Setup packet. -/
theorem setupBranch_clears (h : setupBranch r s = .next t) :
    ClearsOnlyIf ep (StdRow r 1 ∧ NamesHalt r ep) s.trace t.trace := by
  unfold setupBranch at h
  split at h
  · exact processRequest_clears (s := cursorSet r s) h
  split at h
  · exact processRequest_clears (s := cursorSet r s) h
  · exact execSetupOut_clears h

/-! #### What an instruction clears -/

/-- R110 to R131: an event of endpoint 0 that is no Setup clears no stall. -/
theorem engineDone_clears {c : ControlState} {k : EventKind} (h : EngineDone s c k t) (hk : k ≠ .epsetup) :
    ClearsOnlyIf ep p s.trace t.trace := by
  have quiet : ClearsOnlyIf ep p s.trace s.trace := .refl _
  have hstatus : ClearsOnlyIf ep p s.trace (statusRead s).trace := quiet.append (by simp)
  have hread : ClearsOnlyIf ep p s.trace (dataRead s).trace := quiet.append (by simp)
  have hdata (n : Nat) : ClearsOnlyIf ep p s.trace (gathered n s).trace := hread
  have hoffer (n cb : Nat) : ClearsOnlyIf ep p s.trace (payloadOffered cb (gathered n s)).trace :=
    (hdata n).append (by simp)
  cases h with
  | badSetup | overflow | payloadDue | accepted | deferred | failed => exact absurd rfl hk
  | badDataOut => exact hread.stalled _
  | payloadPart _ n => exact hdata n
  | payloadUnheard _ n => exact (hdata n).stalled _
  | payloadAcked _ n _ cb => exact (hoffer n cb).append (by simp)
  | payloadNaked _ n _ cb => exact hoffer n cb
  | payloadFailed _ n _ cb => exact (hoffer n cb).stalled _
  | badStatusOut => exact hstatus.stalled _
  | statusOutDone => exact hstatus.completed
  | chunk | zlp | lastThenIn => exact quiet.append (by simp)
  | lastThenOut => exact quiet
  | statusInDone => exact ClearsOnlyIf.completed (s := s.arrives .eptx) quiet
  | outOfSequenceRx => exact ClearsOnlyIf.stalled (s := s.arrives .eprx) quiet _
  | outOfSequenceTx => exact ClearsOnlyIf.stalled (s := s.arrives .eptx) quiet _

/-- R134: the instruction `i` is, or processes, a CLEAR_FEATURE of the halt feature of `ep`. -/
def ClearFeatureRan (ep : Byte) (i : Instr) (t : State) : Prop :=
  ∃ q, NamesHalt q ep ∧ fromRequest (.stdClearFeature q) 1 q i t

/-- R97 to R99: a Setup event clears what the request it has read asks for. -/
theorem setupEvent_clears {i : Instr} (hm : s.mem.wf) (hi : readsSetup i) (h : exec i s = .next t) :
    ClearsOnlyIf ep (ClearFeatureRan ep i t) s.trace t.trace := by
  have hread : ClearsOnlyIf ep (ClearFeatureRan ep i t) s.trace (setupRead s).trace :=
    (ClearsOnlyIf.refl _).append (by simp)
  rw [exec_of_readsSetup hi] at h
  obtain ⟨-, ⟨-, rfl⟩ | ⟨-, -, hbranch⟩⟩ := setupStage_next h
  · exact hread.stalled _
  · have hheader := setupBranch_header (setupRead_writes s hm).1 hbranch
    exact hread.trans ((setupBranch_clears hbranch).mono
      fun ⟨⟨htyp, hcode⟩, hnames⟩ => ⟨_, hnames, .inr ⟨htyp, hcode, .inr (.inr ⟨hi, hheader⟩)⟩⟩)

/-- R134, R155: an instruction clears a stall only for a CLEAR_FEATURE that it is or processes: a Setup event for the one
it reads, any other for its own request. -/
theorem exec_clears {i : Instr} (hm : s.mem.wf) (h : exec i s = .next t) :
    ClearsOnlyIf ep (ClearFeatureRan ep i t) s.trace t.trace := by
  by_cases hi : readsSetup i
  · exact setupEvent_clears hm hi h
  have quiet : ClearsOnlyIf ep (ClearFeatureRan ep i t) s.trace s.trace := .refl _
  have hrequest {stage : Stage} {r : Request} (hri : i = .setupNodata r ∨ i = .setupIn r)
      (h : processRequest stage r (cursorSet r s) = .next t) :
      ClearsOnlyIf ep (ClearFeatureRan ep i t) s.trace t.trace :=
    (processRequest_clears (s := cursorSet r s) h).mono fun ⟨⟨htyp, hcode⟩, hnames⟩ =>
      ⟨r, hnames, .inr ⟨htyp, hcode, hri.imp_right .inl⟩⟩
  cases exec_ran h with
  | reset e => exact eventCallback_clears _ _ (resetStatus s)
  | info _ k e => exact eventCallback_clears k e s
  | user | empty | enable | disable | connect | disconnect => exact quiet.append (by simp)
  | resetCmd | resNak => exact quiet
  | resAckOut | resAckIn => exact quiet.append (by simp)
  | resFail => exact quiet.stalled _
  | engine _ j k e _ hk h0 hj hrow =>
    refine engineDone_clears (engine_done hj hrow) ?_
    rintro rfl
    exact hi (.inr ⟨e, h0, by simpa using hk⟩)
  | row c k _ _ hrow =>
    refine engineDone_clears (engine_done hrow h) ?_
    rintro rfl
    exact hi (readsSetup_of_row hrow)
  | nodata r _ h => exact hrequest (.inl rfl) h
  | outBig | outFits => exact execSetupOut_clears h
  | std _ r _ hserved =>
    exact (served_clears hserved).mono fun ⟨hrow, hnames⟩ => ⟨r, hnames, .inl (by simpa [RowOf] using hrow)⟩
  -- What is left is the request of the class IN, whose constructor's name is a keyword of Lean.
  | _ =>
    rename_i r h
    exact hrequest (.inr rfl) h

end

/-- Settles O53: the call is one of those added, so `exec_clears` gives its request. -/
theorem epSetStallFalseIsCalledOnlyForClearFeature : Obligations.EpSetStallFalseIsCalledOnlyForClearFeature := by
  intro s t i l ep hm h ht hl
  obtain ⟨q, ⟨hrec, hval, hep⟩, hfrom⟩ := (ht ▸ exec_clears hm h).of_mem hl
  refine ⟨q, hrec, hval, hep, hfrom.imp_right ?_⟩
  rintro ⟨htyp, hcode, hi | hi | ⟨hsetup, hheader⟩⟩
  · exact ⟨htyp, hcode, .inl hi⟩
  · exact ⟨htyp, hcode, .inr (.inl hi)⟩
  · exact ⟨htyp, hcode, .inr (.inr ⟨hsetup.imp_right fun ⟨e, _, he⟩ => ⟨e, he⟩, hheader⟩)⟩

end Sys2Proof.Machine

namespace Sys2Proof.Machine

/-! ### What no instruction changes (R169, R171, R28 to R33) -/

/-- R169, R171: what initialisation loads, the callback slots the environment alone writes, and the inputs and answers of
the model. -/
def State.loaded (s : State) :=
  (s.params, s.data_buf, s.data_maxsize, s.ep0size, s.ctl_cb, s.cfg_cb, s.dsc_cb, s.evt_cb, s.ep_cb, s.inputs, s.answers)

section
variable {row : Nat → Prop} {r : Request} {s t u : State} {res : Res} {p : Response}

/-- R84: an event's callback adds to the trace only. -/
theorem eventCallback_loaded (k : EventKind) (ep : Byte) (s : State) : (eventCallback k ep s).loaded = s.loaded := by
  rw [eventCallback_eq rfl]
  rfl

theorem ctlCallback_loaded (cb : Nat) (r : Request) (payload : List Byte) (s : State) :
    (ctlCallback cb r payload s).loaded = s.loaded := rfl

theorem cursorSet_loaded (r : Request) (s : State) : (cursorSet r s).loaded = s.loaded := rfl

theorem stalledState_loaded (c : StallCause) (s : State) : (stalledState c s).loaded = s.loaded := rfl

theorem statusQueued_loaded (s : State) : (statusQueued s).loaded = s.loaded := rfl

theorem completedState_loaded (s : State) : (completedState s).loaded = s.loaded := rfl

theorem arrives_loaded (k : EventKind) (s : State) : (s.arrives k).loaded = s.loaded := rfl

theorem packetRead_loaded (buf len : Nat) (s : State) : (packetRead buf len s).loaded = s.loaded := rfl

theorem advanced_loaded (n : Nat) (s : State) : (advanced n s).loaded = s.loaded := rfl

theorem setupRead_loaded (s : State) : (setupRead s).loaded = s.loaded := rfl

theorem setupBegun_loaded (s : State) : (setupBegun s).loaded = s.loaded :=
  (cursorSet_loaded _ _).trans (setupRead_loaded s)

theorem dataRead_loaded (s : State) : (dataRead s).loaded = s.loaded :=
  (packetRead_loaded _ _ _).trans (arrives_loaded .eprx s)

theorem statusRead_loaded (s : State) : (statusRead s).loaded = s.loaded :=
  (packetRead_loaded _ _ _).trans (arrives_loaded .eprx s)

theorem gathered_loaded (n : Nat) (s : State) : (gathered n s).loaded = s.loaded :=
  (advanced_loaded n _).trans (dataRead_loaded s)

theorem payloadOffered_loaded (cb : Nat) (s : State) : (payloadOffered cb s).loaded = s.loaded :=
  ctlCallback_loaded cb _ _ s

/-- R132 to R142: no case of the handler writes what is loaded. -/
theorem handled_loaded (h : Handled row r s res p u) : u.loaded = s.loaded := by
  cases h with
  | status u w hu => obtain rfl | rfl := hu <;> rfl
  | _ => rfl

theorem processed_loaded (h : Processed r s res p u) : u.loaded = s.loaded := by
  cases h with
  | control => rfl
  | fallback cb slot res p u h => exact (handled_loaded h).trans (ctlCallback_loaded cb r [] s)
  | builtin res p u h => exact handled_loaded h

theorem accepted_loaded (r : Request) (p : Response) (s : State) : (accepted r p s).loaded = s.loaded := by
  unfold accepted
  split <;> rfl

theorem finish_loaded {stage : Stage} (h : finish stage res p u = .next t) : t.loaded = u.loaded := by
  obtain rfl | ⟨w, rfl⟩ | rfl | rfl := finish_cases h <;> rfl

theorem served_loaded (h : Served row r s t) : t.loaded = s.loaded := by
  obtain ⟨res, p, u, hu, hf⟩ := h
  exact (finish_loaded hf).trans (handled_loaded hu)

theorem processRequest_loaded {stage : Stage} (h : processRequest stage r s = .next t) : t.loaded = s.loaded := by
  unfold processRequest at h
  split at h
  · next cb _ =>
    have hctl := ctlCallback_loaded cb r [] s
    split at h
    · exact (finish_loaded h).trans hctl
    · exact (finish_loaded h).trans hctl
    · exact (served_loaded (stdRequest_served h)).trans hctl
  · exact served_loaded (stdRequest_served h)

/-- R97 to R131: no event of endpoint 0 writes what is loaded. -/
theorem engineDone_loaded {c : ControlState} {k : EventKind} (h : EngineDone s c k t) : t.loaded = s.loaded := by
  have hsetup := setupBegun_loaded s
  have hread := dataRead_loaded s
  have hdata (n : Nat) := gathered_loaded n s
  have hoffer (n cb : Nat) := (payloadOffered_loaded cb (gathered n s)).trans (hdata n)
  have hstatus := statusRead_loaded s
  cases h with
  | badSetup => exact (stalledState_loaded _ _).trans (setupRead_loaded s)
  | overflow => exact (stalledState_loaded _ _).trans hsetup
  | accepted p u h => exact (accepted_loaded _ p u).trans ((processed_loaded h).trans hsetup)
  | deferred p u h => exact (processed_loaded h).trans hsetup
  | failed p u h => exact (stalledState_loaded _ u).trans ((processed_loaded h).trans hsetup)
  | badDataOut => exact (stalledState_loaded _ _).trans hread
  | payloadPart _ n => exact hdata n
  | payloadUnheard _ n => exact (stalledState_loaded _ _).trans (hdata n)
  | payloadAcked _ n _ cb => exact (statusQueued_loaded _).trans (hoffer n cb)
  | payloadNaked _ n _ cb => exact hoffer n cb
  | payloadFailed _ n _ cb => exact (stalledState_loaded _ _).trans (hoffer n cb)
  | badStatusOut => exact (stalledState_loaded _ _).trans hstatus
  | statusOutDone => exact (completedState_loaded _).trans hstatus
  | payloadDue | chunk | zlp | lastThenIn | lastThenOut | statusInDone | outOfSequenceRx | outOfSequenceTx => rfl

/-- R169, R171: an instruction that completes has left what is loaded alone. -/
theorem exec_loaded {i : Instr} (h : exec i s = .next t) : t.loaded = s.loaded := by
  cases exec_ran h with
  | reset ep => exact eventCallback_loaded .reset ep (resetStatus s)
  | info _ k ep => exact eventCallback_loaded k ep s
  | engine _ j k ep _ _ _ hj hrow => exact engineDone_loaded (engine_done hj hrow)
  | row c k _ _ hrow => exact engineDone_loaded (engine_done hrow h)
  | nodata r _ h => exact (processRequest_loaded h).trans (cursorSet_loaded r s)
  | std _ r _ h => exact served_loaded h
  | user | empty | enable | disable | connect | disconnect | resetCmd | resFail | resNak | resAckOut | resAckIn
  | outBig | outFits => rfl
  -- What is left is the request of the class IN, whose constructor's name is a keyword of Lean.
  | _ =>
    rename_i r h
    exact (processRequest_loaded h).trans (cursorSet_loaded r s)

end

/-- Settles O57: `exec_loaded`, field by field. -/
theorem noInstructionChangesParametersOrSlots : Obligations.NoInstructionChangesParametersOrSlots := by
  intro s t i h
  simpa only [State.loaded, Prod.mk.injEq] using exec_loaded h

/-! ### What the environment's actions change (R176, R39, R57) -/

section
variable (slot : Slot) (cb : Option Nat) (s : State)

/-- R176: a registration writes callback slots only. -/
theorem register_eq : s.register cb slot = { s with
    ctl_cb := (s.register cb slot).ctl_cb, cfg_cb := (s.register cb slot).cfg_cb
    dsc_cb := (s.register cb slot).dsc_cb, evt_cb := (s.register cb slot).evt_cb
    ep_cb := (s.register cb slot).ep_cb } := by
  unfold State.register
  split <;> rfl

theorem register_ctl_cb : (s.register cb slot).ctl_cb = if slot = .ctl then cb else s.ctl_cb := by
  unfold State.register
  split <;> rfl

theorem register_cfg_cb : (s.register cb slot).cfg_cb = if slot = .cfg then cb else s.cfg_cb := by
  unfold State.register
  split <;> rfl

theorem register_dsc_cb : (s.register cb slot).dsc_cb = if slot = .dsc then cb else s.dsc_cb := by
  unfold State.register
  split <;> rfl

theorem register_evtSlot (k : EventKind) :
    (s.register cb slot).evtSlot k = if slot = .evt k then cb else s.evtSlot k := by
  unfold State.register
  split <;> cases k <;> rfl

theorem register_ep_cb : (s.register cb slot).ep_cb =
    { ep1 := if slot = .ep1 then cb else s.ep_cb.ep1, ep2 := if slot = .ep2 then cb else s.ep_cb.ep2
      ep3 := if slot = .ep3 then cb else s.ep_cb.ep3, ep4 := if slot = .ep4 then cb else s.ep_cb.ep4
      ep5 := if slot = .ep5 then cb else s.ep_cb.ep5, ep6 := if slot = .ep6 then cb else s.ep_cb.ep6
      ep7 := if slot = .ep7 then cb else s.ep_cb.ep7 } := by
  unfold State.register
  split <;> rfl

end

/-- R58, R39: the environment owns a byte of memory below or above the control buffer. -/
theorem envOwns_iff {s : State} {a : Nat} : s.envOwns a = true ↔
    a < 2 ^ s.params.ptrW ∧ (a < s.data_buf ∨ s.data_buf + 8 + s.data_maxsize.toNat ≤ a) := by
  simp only [State.envOwns, Bool.and_eq_true, Bool.or_eq_true, decide_eq_true_eq]

/-- R39: the environment's write of a byte it owns is made. -/
theorem envStep_write {s : State} {b : Nat} (h : s.envOwns b = true) (v : Byte) :
    envStep (.write b v) s = .next { s with mem := s.mem.write b v } := if_pos h

/-- R176: the step of a registration. -/
theorem step_of_register {s : State} {slot : Slot} {cb : Option Nat} {a : Answers} {rest : List Delivery}
    (h : s.inputs = ⟨.env (.register slot cb), a⟩ :: rest) :
    step s = .next ((s.take ⟨.env (.register slot cb), a⟩ rest).register cb slot) := step_of_delivery h

/-- Settles O9: the delivery is taken, and then `register` fills its slot or `Memory.write` stores its byte. -/
theorem environmentActionsChangeOnlyTheirTarget : Obligations.EnvironmentActionsChangeOnlyTheirTarget := by
  intro s a rest
  refine ⟨fun slot cb hin => ?register, fun b v hin hwf hlt hout => ?write⟩
  case register =>
    have hep := register_ep_cb slot cb (s.take ⟨.env (.register slot cb), a⟩ rest)
    exact ⟨_, step_of_register hin, register_eq slot cb (s.take _ _), rfl,
      register_ctl_cb slot cb _, register_cfg_cb slot cb _, register_dsc_cb slot cb _, register_evtSlot slot cb _,
      congrArg EpTable.ep1 hep, congrArg EpTable.ep2 hep, congrArg EpTable.ep3 hep, congrArg EpTable.ep4 hep,
      congrArg EpTable.ep5 hep, congrArg EpTable.ep6 hep, congrArg EpTable.ep7 hep⟩
  case write =>
    have howns : (s.take ⟨.env (.write b v), a⟩ rest).envOwns b = true := envOwns_iff.2 ⟨hlt, hout⟩
    exact ⟨_, (step_of_delivery hin).trans (envStep_write howns v), rfl, fun x => Memory.read_write b x v hwf⟩

/-! ### The state after power-on (R168, R169) -/

/-- R33: an empty table leaves every endpoint number but 0 without a callback. -/
theorem epSlot_of_no_callback {s : State} (h : s.ep_cb = EpTable.none) {n : BitVec 3} (hn : n ≠ 0) :
    s.epSlot n = .empty := by
  unfold State.epSlot
  rw [h]
  split
  · exact absurd (BitVec.eq_of_toNat_eq ‹_›) hn
  all_goals rfl

/-- Settles O45: the invariant gives the payload area's size; the other fields are those `State.init` writes. -/
theorem powerOnState : Obligations.PowerOnState := by
  intro p hp s
  have hinv : Inv s := inv_init hp
  have hsize : s.data_maxsize.toNat + 8 = p.bufSize := hinv.maxsize
  have hevt (k : EventKind) : s.evtSlot k = none := by cases k <;> rfl
  exact ⟨rfl, Nat.eq_sub_of_add_eq hsize, rfl, rfl, rfl, rfl, rfl, rfl, rfl, rfl, hevt, rfl,
    fun _ => epSlot_of_no_callback rfl, rfl, rfl, rfl, hinv⟩

end Sys2Proof.Machine
